-- ==== Sys2Proof/Word.lean ====
section
/-! DEFINITION. The word types of SYNB: the 32-bit integer `i32` (R8), the command word (R81), and `Val`, the
carrier of samples, times, frequencies and gains (R7), as plain data that stands for exact reals. -/

namespace Sys2Proof

/-- R8: an integer on lane `N`, on lane `R` or in an I-typed register: 32 bits, two's complement. -/
abbrev I32 := BitVec 32

/-- R81: every command word is 32 bits. -/
abbrev CmdWord := BitVec 32

/-- R9: `sext_32(v)`, the unbounded integer an `i32` stands for. -/
def sext32 (v : I32) : Int := v.toInt

/-- R7: the carrier `Val` of the numerics record, as data: names of values.
For the reference instance `NUM_R` a name is the exact real number that an operation of R7 gave: it is never rounded. A rational
multiple of a power of pi is kept as one number, `mono q k`; every other real is kept as the operation and its operands.
What real number each name stands for is `Val.toReal` (Machine/Denotation.lean). For another instance of `NUM` a name stands for
whatever that instance takes it for. Log entries 1 and 2. -/
inductive Val where
  /-- The real `q * PI^k`; `mono q 0` is the rational `q`, `mono 1 1` is `PI`. -/
  | mono (q : Rat) (k : Int)
  /-- A real that the host puts on a lane and of which the model knows nothing. -/
  | host (n : Nat)
  /-- A value of the draw stream (R106), a real in `[-1, 1]` of which nothing else is known. -/
  | draw (n : Nat)
  | sumOf (a b : Val)
  | diffOf (a b : Val)
  | prodOf (a b : Val)
  | quotOf (a b : Val)
  /-- `fmod(a, b) = a - b * trunc(a / b)` (R7). -/
  | remOf (a b : Val)
  /-- The sine of `a`, in radians: `NUM.wave` where `WAVE_IMPL = exact` (R109). -/
  | sineOf (a : Val)
  /-- The unknown approximation of the sine at `a`: `NUM.wave` where `WAVE_IMPL = approx` (R109). -/
  | approxOf (a : Val)
  /-- `NUM.asin` at `a`. -/
  | asinOf (a : Val)
  /-- `e^a`. -/
  | expOf (a : Val)
  /-- The natural logarithm of `a`: no operation of R7, but an exact expression that a host's operand may hold (R89). -/
  | lnOf (a : Val)
  /-- `2^(n/12)`: `NUM.semi` at `n`. -/
  | semiOf (n : Int)
  deriving DecidableEq, Repr, Inhabited

end Sys2Proof
end

