-- ==== Sys2Proof/Config.lean ====
section
/-! DEFINITION. The parameters of R6 (`Cfg`), their legal ranges and defaults, the constants the spec fixes, and the
free values of the model: opaque constants of which nothing can be proved. -/

namespace Sys2Proof

/-- R6 `ENV_REL0`: what a released envelope returns when `releaseTime = 0` (R121, D24). -/
inductive EnvRel0 where
  | zero
  | hold
  deriving DecidableEq, Repr

/-- R6 `WAVE_IMPL`: which sine primitive `NUM.wave` is (R109). -/
inductive WaveImpl where
  | exact
  | approx
  deriving DecidableEq, Repr

/-- R7: a numerics record: the operations of `NUM` on values. `lit(d)` is the name `mono d 0` in every record. -/
structure NumRec where
  add : Val → Val → Val
  sub : Val → Val → Val
  mul : Val → Val → Val
  div : Val → Val → Val
  lt : Val → Val → Bool
  le : Val → Val → Bool
  eq : Val → Val → Bool
  ofInt : Int → Val
  pi : Val
  wave : Val → Val
  asin : Val → Val
  exp : Val → Val
  fmod : Val → Val → Val
  semi : Int → Val
  deriving Inhabited

/-- R6 `NUM`: which numerics record the block has: `NUM_R`, the exact reals, or another. -/
inductive NumImpl where
  | real
  | other (k : Nat)
  deriving DecidableEq, Repr

/-- R6: the record `CFG` of the parameters that a rule reads; `VW`, `LAT` and `NOISE_SRC` are read by no rule. Log entry 3. -/
structure Cfg where
  num : NumImpl
  nslots : Nat
  ninstr : Nat
  nfilt : Nat
  nterm : Nat
  envRel0 : EnvRel0
  waveImpl : WaveImpl
  deriving DecidableEq, Repr

/-- R6: the legal range of each capacity. -/
def Cfg.legal (c : Cfg) : Bool :=
  decide (1 ≤ c.nslots) && decide (c.nslots ≤ 255) && decide (1 ≤ c.ninstr) && decide (c.ninstr ≤ 64) &&
  decide (c.nfilt ≤ 255) && decide (1 ≤ c.nterm) && decide (c.nterm ≤ 6)

/-- R6: the defaults of this spec. -/
def Config.cfg : Cfg :=
  { num := .real, nslots := 16, ninstr := 8, nfilt := 2, nterm := 4, envRel0 := .zero, waveImpl := .exact }

/-- R6 `EPS_ENV`, the envelope's inaudibility threshold `0.01`. -/
def Config.epsEnv : Val := .mono (mkRat 1 100) 0

/-- R6 `SAWP_DEFAULT`, and the reset value of every `SAWP` (R28, R34). -/
def Config.sawpDefault : I32 := 50#32

/-- R6 `BASEF_RESET`, the reset value of BASEF (R26). -/
def Config.basefReset : Val := .mono 8 0

/-- FREE VALUE. The numerics records other than `NUM_R` (R6, R7), one for each number. No body: nothing is known of any of them.
`Cfg.ops` holds each to the law of R170. Log entry 1. -/
opaque Config.num : Nat → NumRec

/-- FREE VALUE. Which of the draws of `Valuation` answers the `n`-th draw (R106). No body, so that no two draws can be told
apart and none can be shown equal to another. Log entry 4. -/
opaque Config.noise : Nat → Nat

/-- What the spec leaves free for `NUM_R`, fixed in one way: the answers of the noise source (R106), the host's unknown operands,
the approximate sine (R109, U5) and the value of `asin` outside its domain (U4). -/
structure Valuation where
  noise : Nat → ℝ
  host : Nat → ℝ
  approxWave : ℝ → ℝ
  asinOutside : ℝ → ℝ
  deriving Inhabited

/-- R106: an answer of the noise source: a real of `[-1, 1]`, both ends allowed, and any of them. -/
noncomputable def Valuation.draw (ρ : Valuation) (n : Nat) : ℝ := max (-1) (min 1 (ρ.noise n))

/-- FREE VALUE. The valuation of the block at hand. No body: nothing is known of it but its type. Log entries 2, 4, 6. -/
opaque Config.world : Valuation

end Sys2Proof
end

