-- ==== Sys2Proof/Syntax.lean ====
section
/-! DEFINITION. The commands of SYNB (R82): one constructor per row of the opcode map, with the word's own operand fields.
The operand lanes are not in the word; they are in `State.lanes` while the command executes. -/

namespace Sys2Proof

/-- R83: the six waveform kinds. -/
inductive WaveKind where
  | sin
  | tri
  | sqr
  | sawa
  | sawd
  | noise
  deriving DecidableEq, Repr

/-- R82: the nineteen commands. A field named `i`, `f` or `s` is field `x` of the word (an instrument, filter or slot index);
`sawp` (a `sawPeriod`) and `a` (a register address) are field `y` (R81, R84). -/
inductive Instr where
  | nop
  | oscSin (sawp : Nat)
  | oscTri (sawp : Nat)
  | oscSqr (sawp : Nat)
  | oscSawa (sawp : Nat)
  | oscSawd (sawp : Nat)
  | oscNoise (sawp : Nat)
  | scale
  | env (i : Nat)
  | fltInit (f : Nat)
  | fltSetf (f : Nat)
  | fltLp (f : Nat)
  | fltHp (f : Nat)
  | voice (i : Nat)
  | addnote (i : Nat)
  | noteoff (s : Nat)
  | render
  | rd (a : Nat)
  | wr (a : Nat)
  deriving DecidableEq, Repr

end Sys2Proof
end

