-- ==== Sys2Proof/WellFormed.lean ====
section
/-! DEFINITION. Which terms of `Instr` are commands: each operand fits its field of the command word (R81). -/

namespace Sys2Proof

/-- R81: field `x` is 8 bits, unsigned. -/
def fitsX (x : Nat) : Bool := decide (x < 256)

/-- R81: field `y` is 16 bits, unsigned. -/
def fitsY (y : Nat) : Bool := decide (y < 65536)

/-- R81: every operand of the command fits the field that carries it. An index beyond the capacity is well formed: it is an
operand error of the command, not an illegal word (R86). -/
def Instr.wellFormed : Instr → Bool
  | .nop => true
  | .oscSin y => fitsY y
  | .oscTri y => fitsY y
  | .oscSqr y => fitsY y
  | .oscSawa y => fitsY y
  | .oscSawd y => fitsY y
  | .oscNoise y => fitsY y
  | .scale => true
  | .env x => fitsX x
  | .fltInit x => fitsX x
  | .fltSetf x => fitsX x
  | .fltLp x => fitsX x
  | .fltHp x => fitsX x
  | .voice x => fitsX x
  | .addnote x => fitsX x
  | .noteoff x => fitsX x
  | .render => true
  | .rd y => fitsY y
  | .wr y => fitsY y

end Sys2Proof
end

