-- ==== Sys2Proof/Decode.lean ====
section
/-! DEFINITION. Decoding a command word (R81, R82, R83, R86), total and rejecting by name, then the encoder, then the opcode
map of R82 once more as rows of match and mask. -/

namespace Sys2Proof

/-- R86: why a command word is illegal. -/
inductive IllegalWord where
  /-- R86 (1): `op` is none of the fourteen opcodes. -/
  | unknownOpcode
  /-- R86 (2): `op = 0x10` and `x > 5`. -/
  | reservedKind
  /-- R86 (3): a must-be-zero field is not zero. -/
  | mustBeZero
  deriving DecidableEq, Repr

/-- What a command word decodes to. -/
inductive Decoded where
  | ok (i : Instr)
  | illegal (why : IllegalWord)
  deriving DecidableEq, Repr

/-- R81: `op = w[31:24]`. -/
def opField (w : CmdWord) : Nat := (w.extractLsb' 24 8).toNat

/-- R81: `x = w[23:16]`. -/
def xField (w : CmdWord) : Nat := (w.extractLsb' 16 8).toNat

/-- R81: `y = w[15:0]`. -/
def yField (w : CmdWord) : Nat := (w.extractLsb' 0 16).toNat

/-- R81 format Z: `x` and `y` must be zero. -/
def formatZ (x y : Nat) (i : Instr) : Decoded :=
  if x = 0 ∧ y = 0 then .ok i else .illegal .mustBeZero

/-- R81 format U: `y` must be zero. -/
def formatU (y : Nat) (i : Instr) : Decoded :=
  if y = 0 then .ok i else .illegal .mustBeZero

/-- R81 format A: `x` must be zero. -/
def formatA (x : Nat) (i : Instr) : Decoded :=
  if x = 0 then .ok i else .illegal .mustBeZero

/-- R81 format O with the kind codes of R83; `x > 5` is illegal (R86). -/
def formatO (x y : Nat) : Decoded :=
  match x with
  | 0 => .ok (.oscSin y)
  | 1 => .ok (.oscTri y)
  | 2 => .ok (.oscSqr y)
  | 3 => .ok (.oscSawa y)
  | 4 => .ok (.oscSawd y)
  | 5 => .ok (.oscNoise y)
  | _ => .illegal .reservedKind

/-- R82, R86: the decoder. -/
def decode (w : CmdWord) : Decoded :=
  match opField w with
  | 0x00 => formatZ (xField w) (yField w) .nop
  | 0x10 => formatO (xField w) (yField w)
  | 0x11 => formatZ (xField w) (yField w) .scale
  | 0x20 => formatU (yField w) (.env (xField w))
  | 0x30 => formatU (yField w) (.fltInit (xField w))
  | 0x31 => formatU (yField w) (.fltSetf (xField w))
  | 0x32 => formatU (yField w) (.fltLp (xField w))
  | 0x33 => formatU (yField w) (.fltHp (xField w))
  | 0x40 => formatU (yField w) (.voice (xField w))
  | 0x50 => formatU (yField w) (.addnote (xField w))
  | 0x51 => formatU (yField w) (.noteoff (xField w))
  | 0x52 => formatZ (xField w) (yField w) .render
  | 0x60 => formatA (xField w) (.rd (yField w))
  | 0x61 => formatA (xField w) (.wr (yField w))
  | _ => .illegal .unknownOpcode

/-- Whether a word is a command. -/
def Decoded.isOk : Decoded → Bool
  | .ok _ => true
  | .illegal _ => false

/-- R81: the word `{op, x, y}`. -/
def packWord (op x y : Nat) : CmdWord := BitVec.ofNat 32 (op * 2 ^ 24 + x * 2 ^ 16 + y)

/-- R82: field `op` of each command. -/
def Instr.opcode : Instr → Nat
  | .nop => 0x00
  | .oscSin _ => 0x10
  | .oscTri _ => 0x10
  | .oscSqr _ => 0x10
  | .oscSawa _ => 0x10
  | .oscSawd _ => 0x10
  | .oscNoise _ => 0x10
  | .scale => 0x11
  | .env _ => 0x20
  | .fltInit _ => 0x30
  | .fltSetf _ => 0x31
  | .fltLp _ => 0x32
  | .fltHp _ => 0x33
  | .voice _ => 0x40
  | .addnote _ => 0x50
  | .noteoff _ => 0x51
  | .render => 0x52
  | .rd _ => 0x60
  | .wr _ => 0x61

/-- R82, R83, R84: field `x` of each command. -/
def Instr.xOf : Instr → Nat
  | .nop => 0
  | .oscSin _ => 0
  | .oscTri _ => 1
  | .oscSqr _ => 2
  | .oscSawa _ => 3
  | .oscSawd _ => 4
  | .oscNoise _ => 5
  | .scale => 0
  | .env i => i
  | .fltInit f => f
  | .fltSetf f => f
  | .fltLp f => f
  | .fltHp f => f
  | .voice i => i
  | .addnote i => i
  | .noteoff s => s
  | .render => 0
  | .rd _ => 0
  | .wr _ => 0

/-- R82, R84: field `y` of each command. -/
def Instr.yOf : Instr → Nat
  | .nop => 0
  | .oscSin y => y
  | .oscTri y => y
  | .oscSqr y => y
  | .oscSawa y => y
  | .oscSawd y => y
  | .oscNoise y => y
  | .scale => 0
  | .env _ => 0
  | .fltInit _ => 0
  | .fltSetf _ => 0
  | .fltLp _ => 0
  | .fltHp _ => 0
  | .voice _ => 0
  | .addnote _ => 0
  | .noteoff _ => 0
  | .render => 0
  | .rd a => a
  | .wr a => a

/-- R89: the command word of a well-formed command. -/
def encode (i : Instr) : CmdWord := packWord i.opcode i.xOf i.yOf

/-- A row of R82: a word `w` selects the row when `w & mask = match`. -/
structure OpRow where
  mnemonic : String
  matchBits : CmdWord
  maskBits : CmdWord
  deriving DecidableEq, Repr

/-- R82: the row's test. -/
def OpRow.selects (r : OpRow) (w : CmdWord) : Bool := w &&& r.maskBits == r.matchBits

/-- R82: the opcode map, copied row by row. The decoder does not use it; claims compare the two. -/
def opcodeMap : List OpRow :=
  [⟨"NOP", 0x00000000#32, 0xFFFFFFFF#32⟩,
   ⟨"OSC.SIN", 0x10000000#32, 0xFFFF0000#32⟩,
   ⟨"OSC.TRI", 0x10010000#32, 0xFFFF0000#32⟩,
   ⟨"OSC.SQR", 0x10020000#32, 0xFFFF0000#32⟩,
   ⟨"OSC.SAWA", 0x10030000#32, 0xFFFF0000#32⟩,
   ⟨"OSC.SAWD", 0x10040000#32, 0xFFFF0000#32⟩,
   ⟨"OSC.NOISE", 0x10050000#32, 0xFFFF0000#32⟩,
   ⟨"SCALE", 0x11000000#32, 0xFFFFFFFF#32⟩,
   ⟨"ENV", 0x20000000#32, 0xFF00FFFF#32⟩,
   ⟨"FLT.INIT", 0x30000000#32, 0xFF00FFFF#32⟩] ++
  [⟨"FLT.SETF", 0x31000000#32, 0xFF00FFFF#32⟩,
   ⟨"FLT.LP", 0x32000000#32, 0xFF00FFFF#32⟩,
   ⟨"FLT.HP", 0x33000000#32, 0xFF00FFFF#32⟩,
   ⟨"VOICE", 0x40000000#32, 0xFF00FFFF#32⟩,
   ⟨"ADDNOTE", 0x50000000#32, 0xFF00FFFF#32⟩,
   ⟨"NOTEOFF", 0x51000000#32, 0xFF00FFFF#32⟩,
   ⟨"RENDER", 0x52000000#32, 0xFFFFFFFF#32⟩,
   ⟨"RD", 0x60000000#32, 0xFFFF0000#32⟩,
   ⟨"WR", 0x61000000#32, 0xFFFF0000#32⟩]

/-- R82: the mnemonic of each command. -/
def Instr.mnemonic : Instr → String
  | .nop => "NOP"
  | .oscSin _ => "OSC.SIN"
  | .oscTri _ => "OSC.TRI"
  | .oscSqr _ => "OSC.SQR"
  | .oscSawa _ => "OSC.SAWA"
  | .oscSawd _ => "OSC.SAWD"
  | .oscNoise _ => "OSC.NOISE"
  | .scale => "SCALE"
  | .env _ => "ENV"
  | .fltInit _ => "FLT.INIT"
  | .fltSetf _ => "FLT.SETF"
  | .fltLp _ => "FLT.LP"
  | .fltHp _ => "FLT.HP"
  | .voice _ => "VOICE"
  | .addnote _ => "ADDNOTE"
  | .noteoff _ => "NOTEOFF"
  | .render => "RENDER"
  | .rd _ => "RD"
  | .wr _ => "WR"

/-- The command that the decoder reads from a word of `nbits` bits, the bits above them zero. -/
def decodeTableWord (nbits w : Nat) : Option Instr :=
  match decode (BitVec.ofNat 32 (w % 2 ^ nbits)) with
  | .ok i => some i
  | .illegal _ => none

end Sys2Proof
end

