-- ==== Sys2Proof/Machine/State.lean ====
section
/-! DEFINITION. The architectural state of SYNB (R20 to R34) with its two ports (R80), as plain data, its reset value, and the
ways a step can stop. -/

namespace Sys2Proof.Machine

/-- The ways a step can stop with a fault: NONE. The block has no trap (R190), every command gives exactly one response and the
block never halts (R13, R68, R85); an error is a code in the response and a STATUS bit, hence a next state. -/
inductive Fault where
  deriving DecidableEq, Repr

/-- The ways the model can refuse a command. -/
inductive Refusal where
  /-- Raised only by an arm of `exec` whose command has no meaning in the model. Safe: the model says nothing of the
  command. No arm is refused now. -/
  | notModelled (mnemonic : String)
  deriving DecidableEq, Repr

/-- R191: the six values of the response lane `ERR`; codes 6 and 7 are never produced (U19). -/
inductive Err where
  | ok
  | illegal
  | badArg
  | poolFull
  | badRef
  | domain
  deriving DecidableEq, Repr

/-- R21: the operand lanes `N`, `D0` to `D3` of the command port. -/
structure Lanes where
  n : I32
  d0 : Val
  d1 : Val
  d2 : Val
  d3 : Val
  deriving DecidableEq, Repr

/-- R80: a command on the command port: the word and the five operand lanes. -/
structure Command where
  word : CmdWord
  lanes : Lanes
  deriving DecidableEq, Repr

/-- R12: what the host does to the block: it puts one command on the command port, or it asserts `rst`. -/
inductive HostInput where
  | command (c : Command)
  | rst
  deriving DecidableEq, Repr

/-- R85: the response `(Q, R, FIN, ERR)` of one command. -/
structure Response where
  q : Val
  r : I32
  fin : Bool
  err : Err
  deriving DecidableEq, Repr

/-- R28: the six registers of one recipe term. -/
structure TermRegs where
  tctl : I32
  weight : Val
  semi : I32
  lfoHz : Val
  lfoAmp : Val
  sawp : I32
  deriving DecidableEq, Repr

/-- R27, R28: the eight registers of one instrument, and its recipe terms. -/
structure InstrRegs where
  vol : Val
  maxLife : Val
  gate : I32
  att : Val
  dec : Val
  sus : Val
  rel : Val
  start : Val
  terms : List TermRegs
  deriving DecidableEq, Repr

/-- R29: the four registers of one filter unit. -/
structure FilterRegs where
  alpha : Val
  prev : Val
  srate : Val
  cutoff : Val
  deriving DecidableEq, Repr

/-- R30: the five registers of one note slot. -/
structure SlotRegs where
  sflags : I32
  nid : I32
  ont : Val
  offt : Val
  sinstr : I32
  deriving DecidableEq, Repr

/-- R20: the whole architectural state (STATUS, BASEF, ACC, the instrument table, the filter units, the note pool), with the
parameter record it is built for (log entry 3), the ports (R80, log entry 5) and the draw counter (log entry 4).
CAP and NVALID are views and hold no state of their own (R20, R26). -/
structure State where
  /-- R6: the parameters. Not state in the spec's sense: no step changes them. -/
  cfg : Cfg
  /-- R23, R26: the sticky error flags. -/
  status : I32
  /-- R26: `baseFrequency`. -/
  basef : Val
  /-- R26: the sum the most recent RENDER returned. -/
  acc : Val
  /-- R27, R28: the instrument table, instrument 0 first. -/
  instrs : List InstrRegs
  /-- R29: the filter units, unit 0 first. -/
  filters : List FilterRegs
  /-- R30: the note slots, slot 0 first. -/
  slots : List SlotRegs
  /-- MODEL'S OWN: how many draws have been taken (R33, R106). -/
  draws : Nat
  /-- R12, R67: what the host has put on the command port and on `rst` and the block has not yet taken, oldest first. -/
  inbox : List HostInput
  /-- R21: the operand lanes of the command being executed. -/
  lanes : Lanes
  /-- R80, R85: the response port: the response on the pins while `rsp_valid` is 1, and `none` while it is 0. -/
  rsp : Option Response
  deriving DecidableEq, Repr

/-- R7: `lit(0)`. -/
def zeroVal : Val := .mono 0 0

/-- R89: a lane that is not named is zero. -/
def Lanes.zero : Lanes := { n := 0#32, d0 := zeroVal, d1 := zeroVal, d2 := zeroVal, d3 := zeroVal }

/-- R28: the reset value of a recipe term. -/
def TermRegs.reset : TermRegs :=
  { tctl := 0#32, weight := zeroVal, semi := 0#32, lfoHz := zeroVal, lfoAmp := zeroVal, sawp := Config.sawpDefault }

/-- R27: the reset value of an instrument with `nterm` terms. -/
def InstrRegs.reset (nterm : Nat) : InstrRegs :=
  { vol := zeroVal, maxLife := zeroVal, gate := 0#32, att := zeroVal, dec := zeroVal, sus := zeroVal, rel := zeroVal,
    start := zeroVal, terms := List.replicate nterm TermRegs.reset }

/-- R29: the reset value of a filter unit. -/
def FilterRegs.reset : FilterRegs := { alpha := zeroVal, prev := zeroVal, srate := zeroVal, cutoff := zeroVal }

/-- R30: a free slot: all its fields are zero. -/
def SlotRegs.free : SlotRegs := { sflags := 0#32, nid := 0#32, ont := zeroVal, offt := zeroVal, sinstr := 0#32 }

/-- R34: the reset state of a block with the parameters `c`. -/
def State.resetOf (c : Cfg) : State :=
  { cfg := c, status := 0#32, basef := Config.basefReset, acc := zeroVal,
    instrs := List.replicate c.ninstr (InstrRegs.reset c.nterm),
    filters := List.replicate c.nfilt FilterRegs.reset,
    slots := List.replicate c.nslots SlotRegs.free,
    draws := 0, inbox := [], lanes := Lanes.zero, rsp := none }

/-- R34, R210: the machine right after reset, with the default parameters of R6. -/
def State.reset : State := State.resetOf Config.cfg

end Sys2Proof.Machine
end

