-- ==== Sys2Proof/Machine/Denotation.lean ====
section
/-! DEFINITION. The real number that each `Val` stands for under the reference instance `NUM_R` (R7), and the order of the reals. -/

namespace Sys2Proof.Machine

/-- R7: `trunc` on the reals, rounding toward zero. -/
noncomputable def truncReal (x : ℝ) : ℤ := if 0 ≤ x then ⌊x⌋ else -⌊-x⌋

/-- R7: `asin`, the inverse sine on `[-1, 1]`; U4: free outside. -/
noncomputable def asinReal (ρ : Valuation) (x : ℝ) : ℝ := if -1 ≤ x ∧ x ≤ 1 then Real.arcsin x else ρ.asinOutside x

/-- R7 `wave`, R109: the sine primitive of a block with the parameters `c`. -/
noncomputable def waveReal (ρ : Valuation) (c : Cfg) (x : ℝ) : ℝ :=
  match c.waveImpl with
  | .exact => Real.sin x
  | .approx => ρ.approxWave x

/-- R7: `fmod(x, y) = x - y * trunc(x / y)`. -/
noncomputable def fmodReal (x y : ℝ) : ℝ := x - y * (truncReal (x / y) : ℝ)

/-- R7: `semi(n) = 2^(n/12)`. -/
noncomputable def semiReal (n : ℤ) : ℝ := (2 : ℝ) ^ ((n : ℝ) / 12)

end Sys2Proof.Machine

namespace Sys2Proof

open Machine in
/-- R7: the real number a `Val` stands for. -/
noncomputable def Val.toReal (ρ : Valuation) : Val → ℝ
  | .mono q k => (q : ℝ) * Real.pi ^ k
  | .host n => ρ.host n
  | .draw n => ρ.draw n
  | .sumOf a b => a.toReal ρ + b.toReal ρ
  | .diffOf a b => a.toReal ρ - b.toReal ρ
  | .prodOf a b => a.toReal ρ * b.toReal ρ
  | .quotOf a b => a.toReal ρ / b.toReal ρ
  | .remOf a b => fmodReal (a.toReal ρ) (b.toReal ρ)
  | .sineOf a => Real.sin (a.toReal ρ)
  | .approxOf a => ρ.approxWave (a.toReal ρ)
  | .asinOf a => asinReal ρ (a.toReal ρ)
  | .expOf a => Real.exp (a.toReal ρ)
  | .lnOf a => Real.log (a.toReal ρ)
  | .semiOf n => semiReal n

/-- R7: the real number a `Val` stands for in the block at hand. -/
noncomputable def Val.real (a : Val) : ℝ := a.toReal Config.world

open Classical in
/-- R7: whether the real `a` is below the real `b`. The order of the reals is the value of this function; it is no evaluation, and
the equation that stands here for a body only says so: a run of the model that gets here does not end. Nothing rests on the
equation, since two answers of this type cannot differ. Log entry 2. -/
def realLt (a b : Val) : Decidable (a.real < b.real) := realLt a b
  partial_fixpoint

end Sys2Proof
end

