-- ==== Sys2Proof/Machine/Numerics.lean ====
section
/-! DEFINITION. The operations of the numerics record `NUM` (R7): the reference instance `NUM_R` on `Val`, exact arithmetic on
rational multiples of powers of pi, and the operation itself kept as a term where the result is another real.
That every operation is the exact real one is proved in Laws/Numerics.lean, against Machine/Denotation.lean. -/

namespace Sys2Proof.Machine

/-- The real `q * PI^k`, with one form for zero. -/
def NumR.mono (q : Rat) (k : Int) : Val := if q = 0 then .mono 0 0 else .mono q k

/-- R7: `lit(d)`, in every numerics record the name `mono d 0`. -/
def NumR.lit (q : Rat) : Val := .mono q 0

/-- R7: `ofInt`. -/
def NumR.ofInt (n : Int) : Val := .mono n 0

/-- R7: `PI`. -/
def NumR.pi : Val := .mono 1 1

/-- The sum of two monomials, where it is one. -/
def NumR.addMono (q r : Rat) (k l : Int) : Val :=
  if q = 0 then .mono r l
  else if r = 0 then .mono q k
  else if k = l then NumR.mono (q + r) k
  else .sumOf (.mono q k) (.mono r l)

/-- Whether a term is written as zero. -/
def NumR.isZeroLit : Val → Bool
  | .mono q _ => q == 0
  | _ => false

/-- R7: `add`. -/
def NumR.add (a b : Val) : Val :=
  match a, b with
  | .mono q k, .mono r l => NumR.addMono q r k l
  | a, b => if NumR.isZeroLit a then b else if NumR.isZeroLit b then a else .sumOf a b

/-- R7: `sub`. -/
def NumR.sub (a b : Val) : Val :=
  match a, b with
  | .mono q k, .mono r l =>
    if r = 0 then .mono q k
    else if q = 0 then .mono (-r) l
    else if k = l then NumR.mono (q - r) k
    else .diffOf (.mono q k) (.mono r l)
  | a, b => if NumR.isZeroLit b then a else .diffOf a b

/-- Whether a term is written as the rational one. -/
def NumR.isOneLit : Val → Bool
  | .mono q k => q == 1 && k == 0
  | _ => false

/-- R7: `mul`. -/
def NumR.mul (a b : Val) : Val :=
  match a, b with
  | .mono q k, .mono r l => NumR.mono (q * r) (k + l)
  | a, b =>
    if NumR.isZeroLit a || NumR.isZeroLit b then .mono 0 0
    else if NumR.isOneLit a then b
    else if NumR.isOneLit b then a
    else .prodOf a b

/-- R7: `div`, used only with a divisor that the rule has tested nonzero. -/
def NumR.div (a b : Val) : Val :=
  match a, b with
  | .mono q k, .mono r l => NumR.mono (q / r) (k - l)
  | a, b =>
    if NumR.isZeroLit a then .mono 0 0
    else if NumR.isOneLit b then a
    else .quotOf a b

/-- R7: `trunc`, rounding toward zero. -/
def NumR.truncRat (q : Rat) : Int := if 0 ≤ q then q.floor else -((-q).floor)

/-- R7: `fmod(x, y) = x - y * trunc(x / y)`, second argument nonzero. -/
def NumR.fmod (a b : Val) : Val :=
  match a, b with
  | .mono q k, .mono r l =>
    if q = 0 then .mono 0 0
    else if k = l then NumR.mono (q - r * (NumR.truncRat (q / r) : Rat)) k
    else .remOf (.mono q k) (.mono r l)
  | a, b => if NumR.isZeroLit a then .mono 0 0 else .remOf a b

/-- The `r` of `[0, 2)` that differs from `q` by an even integer: the angle `q * PI`, brought into one turn. -/
def NumR.turn (q : Rat) : Rat := q - 2 * ((q / 2).floor : Rat)

/-- The sine of `(m / 6) * PI` for `m` from 0 to 11, where it is rational. -/
def NumR.sinSixth (m : Int) : Option Rat :=
  match m with
  | 0 => some 0
  | 1 => some (mkRat 1 2)
  | 3 => some 1
  | 5 => some (mkRat 1 2)
  | 6 => some 0
  | 7 => some (mkRat (-1) 2)
  | 9 => some (-1)
  | 11 => some (mkRat (-1) 2)
  | _ => none

/-- The sine of `q * PI`, where it is rational. -/
def NumR.sinTurn (q : Rat) : Option Rat :=
  if (6 * NumR.turn q).den = 1 then NumR.sinSixth (6 * NumR.turn q).num else none

/-- The exact sine. -/
def NumR.sin (a : Val) : Val :=
  match a with
  | .mono q k =>
    if q = 0 then .mono 0 0
    else if k = 1 then
      match NumR.sinTurn q with
      | some r => .mono r 0
      | none => .sineOf (.mono q k)
    else .sineOf (.mono q k)
  | a => .sineOf a

/-- R7 `wave`, R109: the sine primitive that `WAVE_IMPL` names. -/
def NumR.wave (w : WaveImpl) (a : Val) : Val :=
  match w with
  | .exact => NumR.sin a
  | .approx => .approxOf a

/-- The inverse sine of the sine of `q * PI`, over pi. -/
def NumR.asinTurn (q : Rat) : Rat :=
  if 2 * NumR.turn q ≤ 1 then NumR.turn q
  else if 2 * NumR.turn q ≤ 3 then 1 - NumR.turn q
  else NumR.turn q - 2

/-- R7: `asin`. Outside `[-1, 1]`, where R7 does not define it, its value is free (U4, log entry 6). -/
def NumR.asin (a : Val) : Val :=
  match a with
  | .sineOf (.mono q 1) => NumR.mono (NumR.asinTurn q) 1
  | .mono q k =>
    if q = 0 then .mono 0 0
    else if k = 0 ∧ q = 1 then .mono (mkRat 1 2) 1
    else if k = 0 ∧ q = -1 then .mono (mkRat (-1) 2) 1
    else if k = 0 ∧ 2 * q = 1 then .mono (mkRat 1 6) 1
    else if k = 0 ∧ 2 * q = -1 then .mono (mkRat (-1) 6) 1
    else .asinOf (.mono q k)
  | a => .asinOf a

/-- R7: `exp`. -/
def NumR.exp (a : Val) : Val := if NumR.isZeroLit a then .mono 1 0 else .expOf a

/-- R7: `semi(n) = 2^(n/12)`; a whole number of octaves, up to 1024 either way, is worked out. -/
def NumR.semi (n : Int) : Val :=
  if n % 12 = 0 ∧ (n / 12).natAbs ≤ 1024 then
    (if 0 ≤ n then .mono ((2 ^ (n / 12).natAbs : Nat) : Rat) 0 else .mono (mkRat 1 (2 ^ (n / 12).natAbs)) 0)
  else .semiOf n

/-- The sign of a rational. -/
def NumR.sgnRat (q : Rat) : Int := if q = 0 then 0 else if 0 < q then 1 else -1

/-- The sign of the sine of `q * PI`. -/
def NumR.sgnTurn (q : Rat) : Int :=
  if NumR.turn q = 0 ∨ NumR.turn q = 1 then 0 else if NumR.turn q < 1 then 1 else -1

/-- The sign of a sum, where the signs of its terms settle it. -/
def NumR.sgnAdd (a b : Option Int) : Option Int :=
  match a, b with
  | some a, some b => if a = 0 then some b else if b = 0 ∨ a = b then some a else none
  | _, _ => none

/-- The sign of a product or quotient, where the signs of its factors settle it. -/
def NumR.sgnMul (a b : Option Int) : Option Int :=
  match a, b with
  | some a, some b => some (a * b)
  | some a, none => if a = 0 then some 0 else none
  | none, some b => if b = 0 then some 0 else none
  | none, none => none

/-- The sign of the real that a term stands for, -1, 0 or 1, where the form of the term settles it. -/
def NumR.sgn : Val → Option Int
  | .mono q _ => some (NumR.sgnRat q)
  | .sumOf a b => NumR.sgnAdd (NumR.sgn a) (NumR.sgn b)
  | .diffOf a b => if a = b then some 0 else NumR.sgnAdd (NumR.sgn a) ((NumR.sgn b).map (fun s => -s))
  | .prodOf a b => NumR.sgnMul (NumR.sgn a) (NumR.sgn b)
  | .quotOf a b => NumR.sgnMul (NumR.sgn a) (NumR.sgn b)
  | .sineOf (.mono q 1) => some (NumR.sgnTurn q)
  | .expOf _ => some 1
  | .semiOf _ => some 1
  | _ => none

/-! ### Enclosures: two rationals between which a real lies -/

/-- Two rationals, the lower and the upper end of an interval. -/
structure Ival where
  lo : Rat
  hi : Rat
  deriving DecidableEq, Repr

/-- The interval of one rational. -/
def Ival.point (q : Rat) : Ival := ⟨q, q⟩

/-- The sum of two intervals. -/
def Ival.add (a b : Ival) : Ival := ⟨a.lo + b.lo, a.hi + b.hi⟩

/-- The difference of two intervals. -/
def Ival.sub (a b : Ival) : Ival := ⟨a.lo - b.hi, a.hi - b.lo⟩

/-- The product of two intervals. -/
def Ival.mul (a b : Ival) : Ival :=
  ⟨min (min (a.lo * b.lo) (a.hi * b.lo)) (min (a.lo * b.hi) (a.hi * b.hi)),
    max (max (a.lo * b.lo) (a.hi * b.lo)) (max (a.lo * b.hi) (a.hi * b.hi))⟩

/-- The inverse of an interval on one side of zero. -/
def Ival.inv (a : Ival) : Option Ival := if 0 < a.lo ∨ a.hi < 0 then some ⟨1 / a.hi, 1 / a.lo⟩ else none

/-- A natural power of an interval. -/
def Ival.pow (a : Ival) : Nat → Ival
  | 0 => Ival.point 1
  | n + 1 => (a.pow n).mul a

/-- Pi to twenty decimals. -/
def Ival.pi : Ival := ⟨mkRat 314159265358979323846 (10 ^ 20), mkRat 314159265358979323847 (10 ^ 20)⟩

/-- The twelfth root of two to thirty decimals. -/
def Ival.semitone : Ival := ⟨mkRat 1059463094359295264561825294946 (10 ^ 30), mkRat 1059463094359295264561825294947 (10 ^ 30)⟩

/-- A power of an interval. -/
def Ival.zpow (a : Ival) : Int → Option Ival
  | .ofNat n => some (a.pow n)
  | .negSucc n => (a.pow (n + 1)).inv

/-- `s` plus the imaginary parts of the terms from `m` on, `n` of them, of the series of `e^(c i)`, whose `m`-th term is `u + v i`. -/
def NumR.sinSeries (c : Rat) : Nat → Nat → Rat → Rat → Rat → Rat
  | _, 0, _, _, s => s
  | m, n + 1, u, v, s => NumR.sinSeries c (m + 1) n (-(v * c) / (m + 1)) (u * c / (m + 1)) (s + v)

/-- The sine at a rational, from forty-eight terms of the series. -/
def Ival.sinAt (c : Rat) : Ival :=
  if max c (-c) ≤ 24 then
    ⟨NumR.sinSeries c 0 48 1 0 0 - (max c (-c)) ^ 48 / (Nat.factorial 48 : Rat) * 2,
      NumR.sinSeries c 0 48 1 0 0 + (max c (-c)) ^ 48 / (Nat.factorial 48 : Rat) * 2⟩
  else ⟨-1, 1⟩

/-- The multiple of `2^-80` next below a rational. -/
def NumR.grid (q : Rat) : Rat := mkRat (q * (2 ^ 80 : Nat)).floor (2 ^ 80)

/-- An interval, less the `j` whole turns that bring it next to zero. -/
def Ival.turn (a : Ival) : Ival :=
  a.sub ((Ival.point (2 * (((a.lo + a.hi) / 2 / (2 * Ival.pi.lo) + mkRat 1 2).floor : Rat))).mul Ival.pi)

/-- The sine of an interval: the sine at a rational inside it, give or take the interval's width. -/
def Ival.sin (a : Ival) : Ival :=
  let c := NumR.grid ((a.turn.lo + a.turn.hi) / 2)
  let r := max (a.turn.hi - c) (c - a.turn.lo)
  ⟨(Ival.sinAt c).lo - r, (Ival.sinAt c).hi + r⟩

/-- `2^(n/12)`: whole octaves and semitones, up to 1024 octaves. -/
def Ival.semi (n : Int) : Option Ival :=
  if (n / 12).natAbs ≤ 1024 then ((Ival.point 2).zpow (n / 12)).map (Ival.semitone.pow (n % 12).toNat).mul else none

/-- `e^x` as the sixty-fourth power of `e^(x/64)`, which lies between `1 + x/64` and `1 / (1 - x/64)`; up to 64 either way. -/
def Ival.exp (a : Ival) : Option Ival :=
  if -64 < a.lo ∧ a.hi < 64 then some ((Ival.mk (1 + a.lo / 64) (1 / (1 - a.hi / 64))).pow 64) else none

/-- `ln x`, which lies between `1 - 1/x` and `x - 1`. -/
def Ival.ln (a : Ival) : Option Ival := if 0 < a.lo then some ⟨1 - 1 / a.lo, a.hi - 1⟩ else none

/-- Rationals between which the real that a term stands for lies, where the model works them out. -/
def NumR.enclose : Val → Option Ival
  | .mono q k => (Ival.pi.zpow k).map (Ival.point q).mul
  | .draw _ => some ⟨-1, 1⟩
  | .sumOf a b => (NumR.enclose a).bind fun x => (NumR.enclose b).map x.add
  | .diffOf a b => (NumR.enclose a).bind fun x => (NumR.enclose b).map x.sub
  | .prodOf a b => (NumR.enclose a).bind fun x => (NumR.enclose b).map x.mul
  | .quotOf a b => (NumR.enclose a).bind fun x => ((NumR.enclose b).bind Ival.inv).map x.mul
  | .sineOf a => (NumR.enclose a).map Ival.sin
  | .expOf a => (NumR.enclose a).bind Ival.exp
  | .lnOf a => (NumR.enclose a).bind Ival.ln
  | .semiOf n => Ival.semi n
  | _ => none

/-- The sign of every number of an interval, where they have one. -/
def Ival.sgn (a : Ival) : Option Int :=
  if 0 < a.lo then some 1 else if a.hi < 0 then some (-1) else if a.lo = 0 ∧ a.hi = 0 then some 0 else none

/-- The sign of the real that a term stands for, by its form or else by its enclosure. -/
def NumR.sign (a : Val) : Option Int :=
  match NumR.sgn a with
  | some s => some s
  | none => (NumR.enclose a).bind Ival.sgn

/-- R7: `lt`, the order of the reals: worked out where the sign of the difference is. Log entry 2. -/
def NumR.lt (a b : Val) : Bool :=
  match NumR.sign (NumR.sub a b) with
  | some s => decide (s < 0)
  | none => @decide _ (realLt a b)

/-- R7: `le`. -/
def NumR.le (a b : Val) : Bool := !(NumR.lt b a)

/-- R7: `eq`. -/
def NumR.eq (a b : Val) : Bool := NumR.le a b && NumR.le b a

/-- R7: the reference instance `NUM_R`, with the sine primitive that `WAVE_IMPL` names. -/
def numR (w : WaveImpl) : NumRec :=
  { add := NumR.add, sub := NumR.sub, mul := NumR.mul, div := NumR.div, lt := NumR.lt, le := NumR.le, eq := NumR.eq,
    ofInt := NumR.ofInt, pi := NumR.pi, wave := NumR.wave w, asin := NumR.asin, exp := NumR.exp, fmod := NumR.fmod,
    semi := NumR.semi }

/-- R170: `ofInt(k)` is exact in `NUM` for `k` in `1..65534`: it is the literal `k`. This is `N` held to that law. Log entry 1. -/
def exactInts (N : NumRec) : NumRec :=
  { N with ofInt := fun k => if 1 ≤ k ∧ k ≤ 65534 then NumR.lit k else N.ofInt k }

end Sys2Proof.Machine

/-- R6, R7: the numerics record of a block with the parameters `c`. A record other than `NUM_R` keeps the one law that the spec
asks of every `NUM`: the exact integers of R170. -/
def Sys2Proof.Cfg.ops (c : Sys2Proof.Cfg) : Sys2Proof.NumRec :=
  match c.num with
  | .real => Sys2Proof.Machine.numR c.waveImpl
  | .other k => Sys2Proof.Machine.exactInts (Sys2Proof.Config.num k)
end

