-- ==== Sys2Proof/Machine/Flags.lean ====
section
/-! DEFINITION. The flag word STATUS and the error codes (R23, R191): which bit each code sets, how a flag is set and how a WR to
STATUS clears it. -/

namespace Sys2Proof.Machine

/-- R191: the code that stands on the three bits of the lane `ERR`. -/
def Err.code : Err → BitVec 3
  | .ok => 0#3
  | .illegal => 1#3
  | .badArg => 2#3
  | .poolFull => 3#3
  | .badRef => 4#3
  | .domain => 5#3

/-- R23, R191: the STATUS bit of an error code: bit 0 ILL, 1 ARG, 2 FULL, 3 REF, 4 DOM; OK has none. -/
def Err.statusBit : Err → I32
  | .ok => 0#32
  | .illegal => 1#32
  | .badArg => 2#32
  | .poolFull => 4#32
  | .badRef => 8#32
  | .domain => 16#32

/-- R192, R194: the codes that end a command without any other effect. -/
def Err.ends : Err → Bool
  | .ok => false
  | .illegal => true
  | .badArg => true
  | .poolFull => true
  | .badRef => true
  | .domain => false

/-- R23: a sticky flag is set and stays set. -/
def setFlag (status : I32) (e : Err) : I32 := status ||| e.statusBit

/-- R23, R64, R167: write-1-to-clear: `STATUS <- STATUS and not N[4:0]`; bits 31:5 of `N` are ignored. -/
def clearFlags (status n : I32) : I32 := status &&& ~~~(n &&& 0x1F#32)

end Sys2Proof.Machine
end

