-- ==== Sys2Proof/Machine/Operands.lean ====
section
/-! DEFINITION. The operand forms: waveform kind codes and the fields of TCTL (R28, R83), the bits of SFLAGS (R30), and the
register space: which register an address names, its type, its access right and its address (R25 to R30, R65). -/

namespace Sys2Proof.Machine

/-- R83: the kind of a 3-bit code; codes 6 and 7 are reserved. -/
def kindOfCode (k : Nat) : Option WaveKind :=
  match k with
  | 0 => some .sin
  | 1 => some .tri
  | 2 => some .sqr
  | 3 => some .sawa
  | 4 => some .sawd
  | 5 => some .noise
  | _ => none

/-- R28: `TCTL.EN`, bit 3. -/
def tctlEn (c : I32) : Bool := c.getLsbD 3

/-- R28: `TCTL.KIND`, bits 2:0. -/
def tctlKind (c : I32) : Nat := (c.extractLsb' 0 3).toNat

/-- R30: `SFLAGS.VALID`, bit 0. -/
def SlotRegs.valid (s : SlotRegs) : Bool := s.sflags.getLsbD 0

/-- R30: `SFLAGS.ACTIVE`, bit 1. -/
def SlotRegs.active (s : SlotRegs) : Bool := s.sflags.getLsbD 1

/-- R30: the null (unbound) instrument reference. -/
def nullRef : Nat := 0xFF

/-- R25: the two register types. -/
inductive RegType where
  | v
  | i
  deriving DecidableEq, Repr

/-- R25: the access rights of a register. -/
inductive Access where
  | rw
  | ro
  | w1c
  deriving DecidableEq, Repr

/-- R27: the eight registers of an instrument, in address order. -/
inductive InstrField where
  | vol
  | maxLife
  | gate
  | att
  | dec
  | sus
  | rel
  | start
  deriving DecidableEq, Repr

/-- R28: the six registers of a recipe term, in address order. -/
inductive TermField where
  | tctl
  | weight
  | semi
  | lfoHz
  | lfoAmp
  | sawp
  deriving DecidableEq, Repr

/-- R29: the four registers of a filter unit, in address order. -/
inductive FilterField where
  | alpha
  | prev
  | srate
  | cutoff
  deriving DecidableEq, Repr

/-- R30: the five registers of a note slot, in address order. -/
inductive SlotField where
  | sflags
  | nid
  | ont
  | offt
  | sinstr
  deriving DecidableEq, Repr

/-- R26 to R30: the registers of the register space, by name. -/
inductive RegName where
  | status
  | basef
  | acc
  | cap
  | nvalid
  | instr (i : Nat) (f : InstrField)
  | term (i k : Nat) (f : TermField)
  | filt (f : Nat) (r : FilterField)
  | slot (s : Nat) (r : SlotField)
  deriving DecidableEq, Repr

/-- R27: the register at offset `o` of an instrument. -/
def instrFieldAt (o : Nat) : Option InstrField :=
  match o with
  | 0 => some .vol
  | 1 => some .maxLife
  | 2 => some .gate
  | 3 => some .att
  | 4 => some .dec
  | 5 => some .sus
  | 6 => some .rel
  | 7 => some .start
  | _ => none

/-- R28: the register at offset `o` of a term. -/
def termFieldAt (o : Nat) : Option TermField :=
  match o with
  | 0 => some .tctl
  | 1 => some .weight
  | 2 => some .semi
  | 3 => some .lfoHz
  | 4 => some .lfoAmp
  | 5 => some .sawp
  | _ => none

/-- R29: the register at offset `o` of a filter unit. -/
def filterFieldAt (o : Nat) : Option FilterField :=
  match o with
  | 0 => some .alpha
  | 1 => some .prev
  | 2 => some .srate
  | 3 => some .cutoff
  | _ => none

/-- R30: the register at offset `o` of a slot. -/
def slotFieldAt (o : Nat) : Option SlotField :=
  match o with
  | 0 => some .sflags
  | 1 => some .nid
  | 2 => some .ont
  | 3 => some .offt
  | 4 => some .sinstr
  | _ => none

/-- R26: the global register at an address. -/
def globalAt (a : Nat) : Option RegName :=
  match a with
  | 0 => some .status
  | 1 => some .basef
  | 2 => some .acc
  | 3 => some .cap
  | 4 => some .nvalid
  | _ => none

/-- R27, R28: the register at offset `r` of instrument `i`, whose terms begin at offset `0x10`, eight addresses each. -/
def instrRegAt (c : Cfg) (i r : Nat) : Option RegName :=
  if r < 0x10 then (instrFieldAt r).map (.instr i)
  else if (r - 0x10) / 8 < c.nterm then (termFieldAt ((r - 0x10) % 8)).map (.term i ((r - 0x10) / 8))
  else none

/-- R65: the address map: the register that an address names, `none` where it is unmapped. -/
def regAt (c : Cfg) (a : Nat) : Option RegName :=
  if a < 0x1000 then globalAt a
  else if a < 0x2000 then
    if (a - 0x1000) / 0x40 < c.ninstr then instrRegAt c ((a - 0x1000) / 0x40) ((a - 0x1000) % 0x40) else none
  else if a < 0x3000 then
    if (a - 0x2000) / 4 < c.nfilt then (filterFieldAt ((a - 0x2000) % 4)).map (.filt ((a - 0x2000) / 4)) else none
  else
    if (a - 0x3000) / 8 < c.nslots then (slotFieldAt ((a - 0x3000) % 8)).map (.slot ((a - 0x3000) / 8)) else none

/-- R27: the offset of an instrument register. -/
def InstrField.offset : InstrField → Nat
  | .vol => 0
  | .maxLife => 1
  | .gate => 2
  | .att => 3
  | .dec => 4
  | .sus => 5
  | .rel => 6
  | .start => 7

/-- R28: the offset of a term register. -/
def TermField.offset : TermField → Nat
  | .tctl => 0
  | .weight => 1
  | .semi => 2
  | .lfoHz => 3
  | .lfoAmp => 4
  | .sawp => 5

/-- R29: the offset of a filter register. -/
def FilterField.offset : FilterField → Nat
  | .alpha => 0
  | .prev => 1
  | .srate => 2
  | .cutoff => 3

/-- R30: the offset of a slot register. -/
def SlotField.offset : SlotField → Nat
  | .sflags => 0
  | .nid => 1
  | .ont => 2
  | .offt => 3
  | .sinstr => 4

/-- R26 to R30: the address of a register: `IB(i) = 0x1000 + 0x40 * i`, `TB(i, k) = IB(i) + 0x10 + 8 * k`,
`FB(f) = 0x2000 + 4 * f`, `SB(s) = 0x3000 + 8 * s`. -/
def RegName.addr : RegName → Nat
  | .status => 0x0000
  | .basef => 0x0001
  | .acc => 0x0002
  | .cap => 0x0003
  | .nvalid => 0x0004
  | .instr i f => 0x1000 + 0x40 * i + f.offset
  | .term i k f => 0x1000 + 0x40 * i + 0x10 + 8 * k + f.offset
  | .filt f r => 0x2000 + 4 * f + r.offset
  | .slot s r => 0x3000 + 8 * s + r.offset

/-- R25: a register exists when every index is below the parameter that bounds it. -/
def RegName.exists (c : Cfg) : RegName → Bool
  | .status => true
  | .basef => true
  | .acc => true
  | .cap => true
  | .nvalid => true
  | .instr i _ => decide (i < c.ninstr)
  | .term i k _ => decide (i < c.ninstr) && decide (k < c.nterm)
  | .filt f _ => decide (f < c.nfilt)
  | .slot s _ => decide (s < c.nslots)

/-- R26 to R30: the type of each register. -/
def RegName.type : RegName → RegType
  | .status => .i
  | .basef => .v
  | .acc => .v
  | .cap => .i
  | .nvalid => .i
  | .instr _ f =>
    match f with
    | .vol => .v
    | .maxLife => .v
    | .gate => .i
    | .att => .v
    | .dec => .v
    | .sus => .v
    | .rel => .v
    | .start => .v
  | .term _ _ f =>
    match f with
    | .tctl => .i
    | .weight => .v
    | .semi => .i
    | .lfoHz => .v
    | .lfoAmp => .v
    | .sawp => .i
  | .filt _ _ => .v
  | .slot _ r =>
    match r with
    | .sflags => .i
    | .nid => .i
    | .ont => .v
    | .offt => .v
    | .sinstr => .i

/-- R26 to R30: the access right of each register. -/
def RegName.access : RegName → Access
  | .status => .w1c
  | .basef => .rw
  | .acc => .ro
  | .cap => .ro
  | .nvalid => .ro
  | .instr _ _ => .rw
  | .term _ _ _ => .rw
  | .filt _ _ => .ro
  | .slot _ _ => .ro

/-- R168: the legal values of `GATE`: `0`, `1`. -/
def legalGate (n : I32) : Bool := n == 0#32 || n == 1#32

/-- R168: the legal values of `ATT`, `DEC` and `REL`: non-negative. -/
def legalTime (c : Cfg) (d0 : Val) : Bool := c.ops.le zeroVal d0

/-- R168: the legal values of `TCTL`: `N[31:4] = 0 and N[2:0] <= 5`. -/
def legalTctl (n : I32) : Bool := n.extractLsb' 4 28 == 0#28 && decide (tctlKind n ≤ 5)

/-- R168: the legal values of `SEMI`: `-128` to `127`. -/
def legalSemi (n : I32) : Bool := decide (-128 ≤ sext32 n) && decide (sext32 n ≤ 127)

/-- R168: the legal values of `SAWP`: `0` to `65535`. -/
def legalSawp (n : I32) : Bool := decide (0 ≤ sext32 n) && decide (sext32 n ≤ 65535)

/-- R168: the legal-value test of WR, on the lanes `N` and `D0`. A register that R168 does not list accepts every value. -/
def RegName.legal (r : RegName) (c : Cfg) (n : I32) (d0 : Val) : Bool :=
  match r with
  | .instr _ .gate => legalGate n
  | .instr _ .att => legalTime c d0
  | .instr _ .dec => legalTime c d0
  | .instr _ .rel => legalTime c d0
  | .term _ _ .tctl => legalTctl n
  | .term _ _ .semi => legalSemi n
  | .term _ _ .sawp => legalSawp n
  | _ => true

end Sys2Proof.Machine
end

