-- ==== Sys2Proof/Machine/Ops.lean ====
section
/-! DEFINITION. The operations the commands share: the two ways a command ends (R85, R192, R194), taking a command from the port,
an illegal word and a reset (R12, R80, R86, R210), and reading and writing the register space (R25, R64). -/

namespace Sys2Proof.Machine

/-- The outcome of a step of this machine. -/
abbrev Out := Host.Outcome State Fault Refusal

/-- R194: THE ERROR PATH, in place of taking an exception: `raise <Err>` ends the command; no register changes but the STATUS bit
of the code, and the response is `(Q 0, R 0, FIN 0, ERR code)`. -/
def State.raise (s : State) (e : Err) : State :=
  { s with status := setFlag s.status e, rsp := some { q := zeroVal, r := 0#32, fin := false, err := e } }

/-- R85, R192: the command completes with the response lanes `q`, `r`, `fin`. Where `dom` says that an evaluation met the singular
point of the digital sawtooth, `ERR = DOMAIN` and STATUS.DOM is set, and the other lanes are valid; otherwise `ERR = OK`. -/
def State.reply (s : State) (dom : Bool) (q : Val) (r : I32) (fin : Bool) : State :=
  { s with
    status := if dom then setFlag s.status .domain else s.status
    rsp := some { q := q, r := r, fin := fin, err := if dom then .domain else .ok } }

/-- R10: a lane that a rule does not set is zero: the response of a command that sets none. -/
def State.done (s : State) : State := s.reply false zeroVal 0#32 false

/-- R80: the block accepts a command: its lanes are sampled, and no response is on the pins. -/
def State.accept (s : State) (c : Command) (rest : List HostInput) : State :=
  { s with inbox := rest, lanes := c.lanes, rsp := none }

/-- R200: nothing is on the command port: the block stays ready, and gives no response. -/
def State.idle (s : State) : State := { s with rsp := none }

/-- R210: `rst`: every register takes its reset value. The parameters are no state, the draw stream is not reset, and what the
host puts on the port afterwards is the host's. -/
def State.takeReset (s : State) (rest : List HostInput) : State :=
  { State.resetOf s.cfg with draws := s.draws, inbox := rest }

/-- R86: an illegal word. -/
def State.illegalWord (s : State) : State := s.raise .illegal

/-- R26: CAP, the capacity word. -/
def capWord (c : Cfg) : I32 :=
  BitVec.ofNat 32 (c.nslots + c.ninstr * 2 ^ 8 + c.nfilt * 2 ^ 16 + c.nterm * 2 ^ 24)

/-- R26: NVALID, the number of slots whose VALID bit is 1. -/
def State.nvalid (s : State) : Nat := s.slots.countP SlotRegs.valid

/-- The registers of instrument `i`. Beyond the table (no command gets there, log entry 7) an instrument at reset. -/
def State.instr (s : State) (i : Nat) : InstrRegs := s.instrs.getD i (InstrRegs.reset s.cfg.nterm)

/-- The registers of term `k` of an instrument. -/
def InstrRegs.term (r : InstrRegs) (k : Nat) : TermRegs := r.terms.getD k TermRegs.reset

/-- The registers of filter unit `f`. -/
def State.filt (s : State) (f : Nat) : FilterRegs := s.filters.getD f FilterRegs.reset

/-- The registers of note slot `x`. -/
def State.slot (s : State) (x : Nat) : SlotRegs := s.slots.getD x SlotRegs.free

/-- Write the registers of instrument `i`. -/
def State.setInstr (s : State) (i : Nat) (r : InstrRegs) : State := { s with instrs := s.instrs.set i r }

/-- Write the registers of filter unit `f`. -/
def State.setFilt (s : State) (f : Nat) (r : FilterRegs) : State := { s with filters := s.filters.set f r }

/-- Write the registers of note slot `x`. -/
def State.setSlot (s : State) (x : Nat) (r : SlotRegs) : State := { s with slots := s.slots.set x r }

/-- R25: what a register holds: a `Val` or an `i32`. -/
inductive RegVal where
  | v (x : Val)
  | i (n : I32)
  deriving DecidableEq, Repr

/-- R27: read one register of an instrument. -/
def InstrRegs.read (r : InstrRegs) : InstrField → RegVal
  | .vol => .v r.vol
  | .maxLife => .v r.maxLife
  | .gate => .i r.gate
  | .att => .v r.att
  | .dec => .v r.dec
  | .sus => .v r.sus
  | .rel => .v r.rel
  | .start => .v r.start

/-- R28: read one register of a term. -/
def TermRegs.read (r : TermRegs) : TermField → RegVal
  | .tctl => .i r.tctl
  | .weight => .v r.weight
  | .semi => .i r.semi
  | .lfoHz => .v r.lfoHz
  | .lfoAmp => .v r.lfoAmp
  | .sawp => .i r.sawp

/-- R29: read one register of a filter unit. -/
def FilterRegs.read (r : FilterRegs) : FilterField → RegVal
  | .alpha => .v r.alpha
  | .prev => .v r.prev
  | .srate => .v r.srate
  | .cutoff => .v r.cutoff

/-- R30: read one register of a slot. -/
def SlotRegs.read (r : SlotRegs) : SlotField → RegVal
  | .sflags => .i r.sflags
  | .nid => .i r.nid
  | .ont => .v r.ont
  | .offt => .v r.offt
  | .sinstr => .i r.sinstr

/-- R10: `REG[a]` for the register a name stands for; CAP and NVALID are computed at the time of the read (R166). -/
def State.read (s : State) : RegName → RegVal
  | .status => .i s.status
  | .basef => .v s.basef
  | .acc => .v s.acc
  | .cap => .i (capWord s.cfg)
  | .nvalid => .i (BitVec.ofNat 32 s.nvalid)
  | .instr i f => (s.instr i).read f
  | .term i k f => ((s.instr i).term k).read f
  | .filt f r => (s.filt f).read r
  | .slot x r => (s.slot x).read r

/-- R60, R65: what the register at an address holds, `none` where the address is unmapped. -/
def State.readAddr (s : State) (a : Nat) : Option RegVal := (regAt s.cfg a).map s.read

/-- R27, R167: write one register of an instrument: `D0` into a V-typed one, `N` into an I-typed one. -/
def InstrRegs.write (r : InstrRegs) (f : InstrField) (n : I32) (d0 : Val) : InstrRegs :=
  match f with
  | .vol => { r with vol := d0 }
  | .maxLife => { r with maxLife := d0 }
  | .gate => { r with gate := n }
  | .att => { r with att := d0 }
  | .dec => { r with dec := d0 }
  | .sus => { r with sus := d0 }
  | .rel => { r with rel := d0 }
  | .start => { r with start := d0 }

/-- R28, R167: write one register of a term. -/
def TermRegs.write (r : TermRegs) (f : TermField) (n : I32) (d0 : Val) : TermRegs :=
  match f with
  | .tctl => { r with tctl := n }
  | .weight => { r with weight := d0 }
  | .semi => { r with semi := n }
  | .lfoHz => { r with lfoHz := d0 }
  | .lfoAmp => { r with lfoAmp := d0 }
  | .sawp => { r with sawp := n }

/-- R167: `REG[a] <- v`, and for STATUS write-1-to-clear. A read-only register is never written (R25). -/
def State.write (s : State) (r : RegName) (n : I32) (d0 : Val) : State :=
  match r with
  | .status => { s with status := clearFlags s.status n }
  | .basef => { s with basef := d0 }
  | .acc => s
  | .cap => s
  | .nvalid => s
  | .instr i f => s.setInstr i ((s.instr i).write f n d0)
  | .term i k f =>
    s.setInstr i { s.instr i with terms := (s.instr i).terms.set k (((s.instr i).term k).write f n d0) }
  | .filt _ _ => s
  | .slot _ _ => s

end Sys2Proof.Machine
end

