-- ==== Sys2Proof/Machine/Waveform.lean ====
section
/-! DEFINITION. The waveform generator (R100 to R111): the phase, the six kinds, `Generate`, the pitch helper `Scale`, and the commands
OSC.SIN, OSC.TRI, OSC.SQR, OSC.SAWA, OSC.SAWD, OSC.NOISE and SCALE. -/

namespace Sys2Proof.Machine

/-- What an evaluation of the generator gives: the sample, whether it recorded DOMAIN, and the draw counter after it. -/
structure Sample where
  val : Val
  dom : Bool
  draws : Nat
  deriving DecidableEq, Repr

/-- R100: `Phase(t, hz, lhz, lamp) = 2 * PI * hz * t + lamp * hz * wave(2 * PI * lhz * t)`, in the order of R11. -/
def phase (c : Cfg) (t hz lhz lamp : Val) : Val :=
  c.ops.add (c.ops.mul (c.ops.mul (c.ops.mul (NumR.lit 2) c.ops.pi) hz) t)
    (c.ops.mul (c.ops.mul lamp hz) (c.ops.wave (c.ops.mul (c.ops.mul (c.ops.mul (NumR.lit 2) c.ops.pi) lhz) t)))

/-- R101: `wave(Phase)`. -/
def genSin (c : Cfg) (t hz lhz lamp : Val) : Val := c.ops.wave (phase c t hz lhz lamp)

/-- R102: `asin(wave(Phase)) * 2 / PI`. -/
def genTri (c : Cfg) (t hz lhz lamp : Val) : Val :=
  c.ops.div (c.ops.mul (c.ops.asin (c.ops.wave (phase c t hz lhz lamp))) (NumR.lit 2)) c.ops.pi

/-- R103: `1` if `wave(Phase) > 0`, else `0 - 1`. -/
def genSqr (c : Cfg) (t hz lhz lamp : Val) : Val :=
  if c.ops.lt zeroVal (c.ops.wave (phase c t hz lhz lamp)) then NumR.lit 1 else c.ops.sub (NumR.lit 0) (NumR.lit 1)

/-- R104: the loop `acc = acc + wave(p * ofInt(k)) / ofInt(k)` for `m` values of `k`, from `k` up. -/
def sawLoop (c : Cfg) (p : Val) (m k : Nat) (acc : Val) : Val :=
  match m with
  | 0 => acc
  | m + 1 =>
    sawLoop c p m (k + 1)
      (c.ops.add acc (c.ops.div (c.ops.wave (c.ops.mul p (c.ops.ofInt (k : Int)))) (c.ops.ofInt (k : Int))))

/-- R104, R170: `k` runs from 1 to `sawp - 1`, formed as a signed integer: no term for `sawp = 0` or `1`. -/
def genSawA (c : Cfg) (t hz lhz lamp : Val) (sawp : Int) : Val :=
  c.ops.div (c.ops.mul (sawLoop c (phase c t hz lhz lamp) (sawp - 1).toNat 1 (NumR.lit 0)) (NumR.lit 2)) c.ops.pi

/-- R105: whether a digital sawtooth evaluation is at its singular point: `t = 0 or hz = 0`. -/
def sawdSingular (c : Cfg) (t hz : Val) : Bool := c.ops.eq t (NumR.lit 0) || c.ops.eq hz (NumR.lit 0)

/-- R105: `p * fmod(t, 1 / hz) / PI / t - PI / 2`, and `0` at the singular point. -/
def genSawD (c : Cfg) (t hz lhz lamp : Val) : Val :=
  if sawdSingular c t hz then NumR.lit 0
  else
    c.ops.sub
      (c.ops.div (c.ops.div (c.ops.mul (phase c t hz lhz lamp) (c.ops.fmod t (c.ops.div (NumR.lit 1) hz))) c.ops.pi) t)
      (c.ops.div c.ops.pi (NumR.lit 2))

/-- R10, R106: `draw()`: the next value of the draw stream, an unknown real of `[-1, 1]`. -/
def drawVal (draws : Nat) : Val := .draw (Config.noise draws)

/-- R108: `Generate`. -/
def generate (c : Cfg) (draws : Nat) (t hz : Val) (kind : WaveKind) (lhz lamp : Val) (sawp : Int) : Sample :=
  match kind with
  | .sin => { val := genSin c t hz lhz lamp, dom := false, draws := draws }
  | .tri => { val := genTri c t hz lhz lamp, dom := false, draws := draws }
  | .sqr => { val := genSqr c t hz lhz lamp, dom := false, draws := draws }
  | .sawa => { val := genSawA c t hz lhz lamp sawp, dom := false, draws := draws }
  | .sawd => { val := genSawD c t hz lhz lamp, dom := sawdSingular c t hz, draws := draws }
  | .noise => { val := drawVal draws, dom := false, draws := draws + 1 }

/-- R111: the common part of the six OSC commands: `Q <- Generate(D0, D1, x, D2, D3, y)`, `R = 0`, `FIN = 0`. -/
def State.osc (s : State) (kind : WaveKind) (sawp : Nat) : State :=
  let g := generate s.cfg s.draws s.lanes.d0 s.lanes.d1 kind s.lanes.d2 s.lanes.d3 sawp
  { s with draws := g.draws }.reply g.dom g.val 0#32 false

/-- R101: OSC.SIN. -/
def execOscSin (sawp : Nat) (s : State) : Out := .next (s.osc .sin sawp)

/-- R102: OSC.TRI. -/
def execOscTri (sawp : Nat) (s : State) : Out := .next (s.osc .tri sawp)

/-- R103: OSC.SQR. -/
def execOscSqr (sawp : Nat) (s : State) : Out := .next (s.osc .sqr sawp)

/-- R104: OSC.SAWA. -/
def execOscSawa (sawp : Nat) (s : State) : Out := .next (s.osc .sawa sawp)

/-- R105: OSC.SAWD. -/
def execOscSawd (sawp : Nat) (s : State) : Out := .next (s.osc .sawd sawp)

/-- R106: OSC.NOISE. -/
def execOscNoise (sawp : Nat) (s : State) : Out := .next (s.osc .noise sawp)

/-- R107: `Scale(n) = BASEF * semi(n)`, for any integer `n`. -/
def scale (c : Cfg) (basef : Val) (n : Int) : Val := c.ops.mul basef (c.ops.semi n)

/-- R107: SCALE: `Q <- Scale(sext_32(N))`. -/
def execScale (s : State) : Out := .next (s.reply false (scale s.cfg s.basef (sext32 s.lanes.n)) 0#32 false)

end Sys2Proof.Machine
end

