-- ==== Sys2Proof/Machine/Envelope.lean ====
section
/-! DEFINITION. The envelope (R120 to R124): the attack-decay-sustain shape, the amplitude function and the command ENV. -/

namespace Sys2Proof.Machine

/-- R120: `EnvShape(i, age)`, the unclamped amplitude of a held note. -/
def envShape (c : Cfg) (r : InstrRegs) (age : Val) : Val :=
  if c.ops.le age r.att then
    if c.ops.lt zeroVal r.att then c.ops.mul (c.ops.div age r.att) r.start
    else if c.ops.eq age zeroVal then r.start
    else NumR.lit 0
  else if c.ops.le age (c.ops.add r.att r.dec) then
    c.ops.add (c.ops.mul (c.ops.div (c.ops.sub age r.att) r.dec) (c.ops.sub r.sus r.start)) r.start
  else r.sus

/-- R121: the release line of a note released at `off`, with the two values of `ENV_REL0` where `releaseTime = 0`. -/
def envRelease (c : Cfg) (r : InstrRegs) (tg off base : Val) : Val :=
  if c.ops.lt zeroVal r.rel then
    c.ops.add (c.ops.mul (c.ops.div (c.ops.sub tg off) r.rel) (c.ops.sub (NumR.lit 0) base)) base
  else
    match c.envRel0 with
    | .zero => if c.ops.le off tg then NumR.lit 0 else base
    | .hold => base

/-- R121: the amplitude before the clamp: held while `on > off`, released otherwise. -/
def envRaw (c : Cfg) (r : InstrRegs) (tg on off : Val) : Val :=
  if c.ops.lt off on then envShape c r (c.ops.sub tg on)
  else envRelease c r tg off (envShape c r (c.ops.sub off on))

/-- R121: `EPS_ENV`: a value `<= 0.01` is reported as `0`. -/
def envClamp (c : Cfg) (v : Val) : Val := if c.ops.le v Config.epsEnv then NumR.lit 0 else v

/-- R121: `Env(i, tg, on, off)`. -/
def env (c : Cfg) (r : InstrRegs) (tg on off : Val) : Val := envClamp c (envRaw c r tg on off)

/-- R122: ENV. -/
def execEnv (i : Nat) (s : State) : Out :=
  .next
    (if i < s.cfg.ninstr then s.reply false (env s.cfg (s.instr i) s.lanes.d0 s.lanes.d1 s.lanes.d2) 0#32 false
     else s.raise .badArg)

end Sys2Proof.Machine
end

