-- ==== Sys2Proof/Machine/Filter.lean ====
section
/-! DEFINITION. The filter commands (R130 to R134): FLT.INIT, FLT.SETF, FLT.LP and FLT.HP. -/

namespace Sys2Proof.Machine

/-- R130, R131: `exp(0 - 2 * PI * cutoff / rate)`. -/
def filterAlpha (c : Cfg) (cutoff rate : Val) : Val :=
  c.ops.exp (c.ops.sub (NumR.lit 0) (c.ops.div (c.ops.mul (c.ops.mul (NumR.lit 2) c.ops.pi) cutoff) rate))

/-- R132: `(1 - ALPHA) * sample + ALPHA * PREV`. -/
def lowPass (c : Cfg) (r : FilterRegs) (sample : Val) : Val :=
  c.ops.add (c.ops.mul (c.ops.sub (NumR.lit 1) r.alpha) sample) (c.ops.mul r.alpha r.prev)

/-- R133: `ALPHA * (2 * PREV - sample)`. -/
def highPass (c : Cfg) (r : FilterRegs) (sample : Val) : Val :=
  c.ops.mul r.alpha (c.ops.sub (c.ops.mul (NumR.lit 2) r.prev) sample)

/-- R130: FLT.INIT. -/
def execFltInit (f : Nat) (s : State) : Out :=
  .next
    (if s.cfg.nfilt ≤ f then s.raise .badArg
     else if s.cfg.ops.le s.lanes.d1 zeroVal then s.raise .badArg
     else
       (s.setFilt f
         { alpha := filterAlpha s.cfg s.lanes.d0 s.lanes.d1, prev := NumR.lit 0, srate := s.lanes.d1,
           cutoff := s.lanes.d0 }).done)

/-- R131: FLT.SETF. -/
def execFltSetf (f : Nat) (s : State) : Out :=
  .next
    (if s.cfg.nfilt ≤ f then s.raise .badArg
     else if s.cfg.ops.eq (s.filt f).srate zeroVal then s.raise .badRef
     else
       (s.setFilt f
         { s.filt f with alpha := filterAlpha s.cfg s.lanes.d0 (s.filt f).srate, cutoff := s.lanes.d0 }).done)

/-- R132, R133: the output is stored as the new PREV and returned on `Q`. -/
def State.applyFilter (s : State) (f : Nat) (out : Val) : State :=
  (s.setFilt f { s.filt f with prev := out }).reply false out 0#32 false

/-- R132: FLT.LP. -/
def execFltLp (f : Nat) (s : State) : Out :=
  .next
    (if s.cfg.nfilt ≤ f then s.raise .badArg
     else s.applyFilter f (lowPass s.cfg (s.filt f) s.lanes.d1))

/-- R133: FLT.HP. -/
def execFltHp (f : Nat) (s : State) : Out :=
  .next
    (if s.cfg.nfilt ≤ f then s.raise .badArg
     else s.applyFilter f (highPass s.cfg (s.filt f) s.lanes.d1))

end Sys2Proof.Machine
end

