-- ==== Sys2Proof/Machine/Instrument.lean ====
section
/-! DEFINITION. Instrument rendering (R140 to R145): completion, the recipe, `InstrRender` and the command VOICE. -/

namespace Sys2Proof.Machine

/-- R141: `Finished(i, amp, tg, on)`: amplitude-gated where `GATE = 0`, lifetime-gated otherwise. -/
def finished (c : Cfg) (r : InstrRegs) (amp tg on : Val) : Bool :=
  if r.gate = 0#32 then c.ops.le amp (NumR.lit 0)
  else c.ops.lt (NumR.lit 0) r.maxLife && c.ops.le r.maxLife (c.ops.sub tg on)

/-- R142: one enabled term: `WEIGHT * Generate(t, Scale(id + SEMI), KIND, LFOHZ, LFOAMP, SAWP)`. The reserved kind codes, which TCTL
refuses to store, are not evaluated (log entry 7). -/
def termSample (c : Cfg) (basef t : Val) (id : Int) (r : TermRegs) (draws : Nat) : Sample :=
  match kindOfCode (tctlKind r.tctl) with
  | none => { val := NumR.lit 0, dom := false, draws := draws }
  | some kind =>
    let g := generate c draws t (scale c basef (id + sext32 r.semi)) kind r.lfoHz r.lfoAmp (sext32 r.sawp)
    { val := c.ops.mul r.weight g.val, dom := g.dom, draws := g.draws }

/-- R142: the loop over the terms, in ascending order; a disabled term adds nothing and takes no draw. -/
def recipeLoop (c : Cfg) (basef t : Val) (id : Int) (terms : List TermRegs) (acc : Sample) : Sample :=
  match terms with
  | [] => acc
  | r :: rs =>
    if tctlEn r.tctl then
      let g := termSample c basef t id r acc.draws
      recipeLoop c basef t id rs { val := c.ops.add acc.val g.val, dom := acc.dom || g.dom, draws := g.draws }
    else recipeLoop c basef t id rs acc

/-- R142: `RecipeSum(i, t, id)`. -/
def recipeSum (c : Cfg) (basef t : Val) (id : Int) (terms : List TermRegs) (draws : Nat) : Sample :=
  recipeLoop c basef t id terms { val := NumR.lit 0, dom := false, draws := draws }

/-- What `InstrRender` gives: the sample, `finished`, whether an evaluation recorded DOMAIN, and the draw counter. -/
structure Voice where
  sample : Val
  fin : Bool
  dom : Bool
  draws : Nat
  deriving DecidableEq, Repr

/-- R140: `InstrRender(i, tg, id, on, off)`: `(amp * sum) * VOL`, and the completion of R141. All three steps are carried out
whatever `amp` is. -/
def instrRender (c : Cfg) (basef : Val) (r : InstrRegs) (tg : Val) (id : Int) (on off : Val) (draws : Nat) : Voice :=
  let amp := env c r tg on off
  let sum := recipeSum c basef (c.ops.sub tg on) id r.terms draws
  { sample := c.ops.mul (c.ops.mul amp sum.val) r.vol, fin := finished c r amp tg on, dom := sum.dom, draws := sum.draws }

/-- R143: VOICE. -/
def execVoice (i : Nat) (s : State) : Out :=
  .next
    (if i < s.cfg.ninstr then
       let v := instrRender s.cfg s.basef (s.instr i) s.lanes.d0 (sext32 s.lanes.n) s.lanes.d1 s.lanes.d2 s.draws
       { s with draws := v.draws }.reply v.dom v.sample 0#32 v.fin
     else s.raise .badArg)

end Sys2Proof.Machine
end

