-- ==== Sys2Proof/Machine/NotePool.lean ====
section
/-! DEFINITION. The note pool and sample mixing (R150 to R157): ADDNOTE, NOTEOFF and RENDER. -/

namespace Sys2Proof.Machine

/-- R151: the least slot index with `VALID = 0`. -/
def State.freeSlot (s : State) : Option Nat := s.slots.findIdx? (fun r => !r.valid)

/-- R151: the index of ADDNOTE names an instrument, or is the null reference. -/
def noteRefOk (c : Cfg) (x : Nat) : Bool := decide (x < c.ninstr) || x == nullRef

/-- R151: ADDNOTE. -/
def execAddnote (i : Nat) (s : State) : Out :=
  .next
    (if noteRefOk s.cfg i then
       match s.freeSlot with
       | none => s.raise .poolFull
       | some x =>
         (s.setSlot x
           { sflags := 3#32, nid := s.lanes.n, ont := s.lanes.d1, offt := s.lanes.d2,
             sinstr := BitVec.ofNat 32 i }).reply false zeroVal (BitVec.ofNat 32 x) false
     else s.raise .badArg)

/-- R152: NOTEOFF. -/
def execNoteoff (x : Nat) (s : State) : Out :=
  .next
    (if s.cfg.nslots ≤ x then s.raise .badArg
     else if (s.slot x).valid then (s.setSlot x { s.slot x with offt := s.lanes.d0 }).done
     else s.raise .badRef)

/-- R153: the sum and the side results that the mixing pass carries from slot to slot. -/
structure Mix where
  acc : Val
  dom : Bool
  draws : Nat
  deriving DecidableEq, Repr

/-- R153, R155: the mixing pass renders a slot with `VALID = 1`, `ACTIVE = 1` and a non-null instrument reference. -/
def SlotRegs.sounding (r : SlotRegs) : Bool := r.valid && r.active && !(r.sinstr == BitVec.ofNat 32 nullRef)

/-- R153: `InstrRender` of the note in a slot. -/
def State.slotVoice (s : State) (tg : Val) (r : SlotRegs) (draws : Nat) : Voice :=
  instrRender s.cfg s.basef (s.instr r.sinstr.toNat) tg (sext32 r.nid) r.ont r.offt draws

/-- R153: `SFLAGS.ACTIVE <- 0`. -/
def SlotRegs.deactivate (r : SlotRegs) : SlotRegs := { r with sflags := r.sflags &&& ~~~2#32 }

/-- R153, R154: the mixing pass over the slots, in ascending order: the slots with the finished notes marked inactive, and the sum. -/
def State.mixPass (s : State) (tg : Val) (slots : List SlotRegs) (m : Mix) : List SlotRegs × Mix :=
  match slots with
  | [] => ([], m)
  | r :: rs =>
    if r.sounding then
      let v := s.slotVoice tg r m.draws
      let rest := s.mixPass tg rs { acc := s.cfg.ops.add m.acc v.sample, dom := m.dom || v.dom, draws := v.draws }
      ((if v.fin then r.deactivate else r) :: rest.1, rest.2)
    else
      let rest := s.mixPass tg rs m
      (r :: rest.1, rest.2)

/-- R153: the pruning pass frees and clears a slot with `VALID = 1` and `ACTIVE = 0`. -/
def SlotRegs.prune (r : SlotRegs) : SlotRegs := if r.valid && !r.active then SlotRegs.free else r

/-- R153: RENDER. -/
def execRender (s : State) : Out :=
  let p := s.mixPass s.lanes.d0 s.slots { acc := NumR.lit 0, dom := false, draws := s.draws }
  .next ({ s with slots := p.1.map SlotRegs.prune, acc := p.2.acc, draws := p.2.draws }.reply p.2.dom p.2.acc 0#32 false)

end Sys2Proof.Machine
end

