-- ==== Sys2Proof/Machine/System.lean ====
section
/-! DEFINITION. Register access and housekeeping (R165 to R168): NOP, RD and WR. -/

namespace Sys2Proof.Machine

/-- R165: NOP. -/
def execNop (s : State) : Out := .next s.done

/-- R166: the response of RD: a V-typed register on `Q`, an I-typed one on `R`. -/
def State.replyReg (s : State) (v : RegVal) : State :=
  match v with
  | .v x => s.reply false x 0#32 false
  | .i n => s.reply false zeroVal n false

/-- R166: RD. -/
def execRd (a : Nat) (s : State) : Out :=
  .next
    (match s.readAddr a with
     | none => s.raise .badArg
     | some v => s.replyReg v)

/-- R167: WR: mapping, then access right, then legality (R193). -/
def execWr (a : Nat) (s : State) : Out :=
  .next
    (match regAt s.cfg a with
     | none => s.raise .badArg
     | some r =>
       if r.access = .ro then s.raise .badArg
       else if r.legal s.cfg s.lanes.n s.lanes.d0 then (s.write r s.lanes.n s.lanes.d0).done
       else s.raise .badArg)

end Sys2Proof.Machine
end

