-- ==== Sys2Proof/Machine/Dispatch.lean ====
section
/-! DEFINITION. What each command does: one arm per constructor of `Instr`, each one call of its meaning. -/

namespace Sys2Proof.Machine

def exec (i : Instr) (s : State) : Host.Outcome State Fault Refusal :=
  match i with
  | .nop => Sys2Proof.Machine.execNop s
  | .oscSin y => Sys2Proof.Machine.execOscSin y s
  | .oscTri y => Sys2Proof.Machine.execOscTri y s
  | .oscSqr y => Sys2Proof.Machine.execOscSqr y s
  | .oscSawa y => Sys2Proof.Machine.execOscSawa y s
  | .oscSawd y => Sys2Proof.Machine.execOscSawd y s
  | .oscNoise y => Sys2Proof.Machine.execOscNoise y s
  | .scale => Sys2Proof.Machine.execScale s
  | .env x => Sys2Proof.Machine.execEnv x s
  | .fltInit f => Sys2Proof.Machine.execFltInit f s
  | .fltSetf f => Sys2Proof.Machine.execFltSetf f s
  | .fltLp f => Sys2Proof.Machine.execFltLp f s
  | .fltHp f => Sys2Proof.Machine.execFltHp f s
  | .voice x => Sys2Proof.Machine.execVoice x s
  | .addnote x => Sys2Proof.Machine.execAddnote x s
  | .noteoff x => Sys2Proof.Machine.execNoteoff x s
  | .render => Sys2Proof.Machine.execRender s
  | .rd a => Sys2Proof.Machine.execRd a s
  | .wr a => Sys2Proof.Machine.execWr a s

end Sys2Proof.Machine
end

