-- ==== Sys2Proof/Machine/Step.lean ====
section
/-! DEFINITION. One step of the block (R12, R67, R68): it takes the oldest host input and executes it whole. -/

namespace Sys2Proof.Machine

/-- R12, R67, R68: the block takes the oldest command not yet executed, decodes it and executes it as one atomic step; an illegal
word is an error of that command (R86); `rst` resets (R210); with nothing on the port it stays ready (R200). -/
def step (s : State) : Host.Outcome State Fault Refusal :=
  match s.inbox with
  | [] => .next s.idle
  | .rst :: rest => .next (s.takeReset rest)
  | .command c :: rest =>
    match decode c.word with
    | .ok i => exec i (s.accept c rest)
    | .illegal _ => .next (s.accept c rest).illegalWord

/-- R6: the step with the parameter record as its argument: one step of a block with the parameters `c`. Log entry 3. -/
def stepWith (c : Cfg) (s : State) : Host.Outcome State Fault Refusal := step { s with cfg := c }

/-- The state in which the next input on the command port is the word `w` of `nbits` bits, with the operand lanes as they stand. -/
def State.withFetchWord (s : State) (nbits w : Nat) : State :=
  { s with inbox := .command { word := BitVec.ofNat 32 (w % 2 ^ nbits), lanes := s.lanes } :: s.inbox }

end Sys2Proof.Machine
end

