-- ==== Sys2Proof/Machine/Assembler.lean ====
section
/-! DEFINITION. The host's assembler (R89, R90): the command lines of the spec, the word and the lanes each stands for, the default
operands of OSC and the four pseudo-commands. The block itself has no defaults and does not use this file. Log entry 9. -/

namespace Sys2Proof.Machine

/-- R83: the code of a waveform kind. -/
def kindCode : WaveKind → Nat
  | .sin => 0
  | .tri => 1
  | .sqr => 2
  | .sawa => 3
  | .sawd => 4
  | .noise => 5

/-- R89: a register operand: a name of the state, or an address. -/
inductive AsmReg where
  | name (r : RegName)
  | address (a : Nat)
  deriving DecidableEq, Repr

/-- R89: the address of a register operand. -/
def AsmReg.addr : AsmReg → Nat
  | .name r => r.addr
  | .address a => a

/-- R89, R90: a command line. An operand in brackets in R89 is an `Option`; `NULL` is the index `0xFF`. -/
inductive AsmLine where
  | nop
  | osc (k : WaveKind) (time hertz : Val) (lfoHertz lfoAmplitude : Option Val) (sawPeriod : Option Nat)
  | scale (noteId : I32)
  | env (i : Nat) (timeGlobal timeOn timeOff : Val)
  | fltInit (f : Nat) (cutoffHertz sampleRateHertz : Val)
  | fltSetf (f : Nat) (newCutoff : Val)
  | fltLp (f : Nat) (timeGlobal sample : Val)
  | fltHp (f : Nat) (timeGlobal sample : Val)
  | voice (i : Nat) (noteId : I32) (timeGlobal onTime offTime : Val)
  | addnote (i : Option Nat) (noteId : I32) (onTime offTime : Val)
  | noteoff (s : Nat) (time : Val)
  | render (timeGlobal : Val)
  | rd (r : AsmReg)
  | wr (r : AsmReg) (value : RegVal)
  | rdstat
  | clrstat
  | term (i k : Nat) (kind : WaveKind)
  | termoff (i k : Nat)
  deriving DecidableEq, Repr

/-- R90: a pseudo-command stands for one real command. -/
def AsmLine.expand : AsmLine → AsmLine
  | .rdstat => .rd (.name .status)
  | .clrstat => .wr (.name .status) (.i 0x1F#32)
  | .term i k kind => .wr (.name (.term i k .tctl)) (.i (BitVec.ofNat 32 (8 + kindCode kind)))
  | .termoff i k => .wr (.name (.term i k .tctl)) (.i 0#32)
  | l => l

/-- R89: the index of an ADDNOTE line. -/
def asmIndex (i : Option Nat) : Nat := i.getD nullRef

/-- R90: the assembler's default `sawPeriod`. -/
def asmSawp (p : Option Nat) : Nat := p.getD Config.sawpDefault.toNat

/-- R89: the word of a line, as a number, for a line that is no pseudo-command. -/
def AsmLine.realWord : AsmLine → Nat
  | .nop => 0x00000000
  | .osc k _ _ _ _ p => 0x10000000 + kindCode k * 2 ^ 16 + asmSawp p
  | .scale _ => 0x11000000
  | .env i _ _ _ => 0x20000000 + i * 2 ^ 16
  | .fltInit f _ _ => 0x30000000 + f * 2 ^ 16
  | .fltSetf f _ => 0x31000000 + f * 2 ^ 16
  | .fltLp f _ _ => 0x32000000 + f * 2 ^ 16
  | .fltHp f _ _ => 0x33000000 + f * 2 ^ 16
  | .voice i _ _ _ _ => 0x40000000 + i * 2 ^ 16
  | .addnote i _ _ _ => 0x50000000 + asmIndex i * 2 ^ 16
  | .noteoff s _ => 0x51000000 + s * 2 ^ 16
  | .render _ => 0x52000000
  | .rd r => 0x60000000 + r.addr
  | .wr r _ => 0x61000000 + r.addr
  | .rdstat => 0x60000000
  | .clrstat => 0x61000000
  | .term i k _ => 0x61000000 + (AsmReg.name (.term i k .tctl)).addr
  | .termoff i k => 0x61000000 + (AsmReg.name (.term i k .tctl)).addr

/-- R89: the lanes of a line that is no pseudo-command. A lane the line does not name is zero. -/
def AsmLine.realLanes : AsmLine → Lanes
  | .osc _ t h lh la _ => { Lanes.zero with d0 := t, d1 := h, d2 := lh.getD zeroVal, d3 := la.getD zeroVal }
  | .scale n => { Lanes.zero with n := n }
  | .env _ tg on off => { Lanes.zero with d0 := tg, d1 := on, d2 := off }
  | .fltInit _ c r => { Lanes.zero with d0 := c, d1 := r }
  | .fltSetf _ c => { Lanes.zero with d0 := c }
  | .fltLp _ tg x => { Lanes.zero with d0 := tg, d1 := x }
  | .fltHp _ tg x => { Lanes.zero with d0 := tg, d1 := x }
  | .voice _ n tg on off => { Lanes.zero with n := n, d0 := tg, d1 := on, d2 := off }
  | .addnote _ n on off => { Lanes.zero with n := n, d1 := on, d2 := off }
  | .noteoff _ t => { Lanes.zero with d0 := t }
  | .render tg => { Lanes.zero with d0 := tg }
  | .wr _ (.v x) => { Lanes.zero with d0 := x }
  | .wr _ (.i n) => { Lanes.zero with n := n }
  | _ => Lanes.zero

/-- R89, R90: the command that a line assembles to. -/
def AsmLine.assemble (l : AsmLine) : Command :=
  { word := BitVec.ofNat 32 l.expand.realWord, lanes := l.expand.realLanes }

/-- R89: the OSC command of a kind. -/
def oscOfKind (k : WaveKind) (y : Nat) : Instr :=
  match k with
  | .sin => .oscSin y
  | .tri => .oscTri y
  | .sqr => .oscSqr y
  | .sawa => .oscSawa y
  | .sawd => .oscSawd y
  | .noise => .oscNoise y

/-- R82, R89: the command that a line names. -/
def AsmLine.instr : AsmLine → Instr
  | .nop => .nop
  | .osc k _ _ _ _ p => oscOfKind k (asmSawp p)
  | .scale _ => .scale
  | .env i _ _ _ => .env i
  | .fltInit f _ _ => .fltInit f
  | .fltSetf f _ => .fltSetf f
  | .fltLp f _ _ => .fltLp f
  | .fltHp f _ _ => .fltHp f
  | .voice i _ _ _ _ => .voice i
  | .addnote i _ _ _ => .addnote (asmIndex i)
  | .noteoff s _ => .noteoff s
  | .render _ => .render
  | .rd r => .rd r.addr
  | .wr r _ => .wr r.addr
  | .rdstat => .rd 0
  | .clrstat => .wr 0
  | .term i k _ => .wr (0x1000 + 0x40 * i + 0x10 + 8 * k)
  | .termoff i k => .wr (0x1000 + 0x40 * i + 0x10 + 8 * k)

end Sys2Proof.Machine
end

