-- ==== Sys2Proof/Machine/Sequencer.lean ====
section
/-! DEFINITION. The Sequencer, the reference host agent (R175 to R180). It is outside the block: it binds no command, and reaches the
block only through the ADDNOTE commands that its caller puts on the command port. `N` is the numerics record its times are
computed in (R7). Log entry 8. -/

namespace Sys2Proof.Machine

/-- R175: a channel: an instrument reference (an index, or the null reference) and a pattern. A number that is neither is held, and is
turned away when a note of the channel is submitted (`SeqNote.submit`). -/
structure SeqChannel where
  instrument : Nat
  pattern : List Char
  deriving DecidableEq, Repr

/-- R6, R175: a Sequencer: the host parameters `beats`, `subBeats`, `tempo`, `TRIG` and `REFSTEP`, the running clock, the current step
and the channels. -/
structure Sequencer where
  beats : Nat
  subBeats : Nat
  tempo : Val
  trig : Char
  refStep : I32
  clock : Val
  currentStep : Nat
  channels : List SeqChannel
  deriving DecidableEq, Repr

/-- R177: a note the Sequencer makes. Its times are the caller's (N13), and so is a pitch other than the default
(`SeqNote.withPitch`). -/
structure SeqNote where
  id : I32
  active : Bool
  instrument : Nat
  deriving DecidableEq, Repr

/-- R175: a Sequencer at its creation: no channel, step 0, clock 0. -/
def Sequencer.create (beats subBeats : Nat) (tempo : Val) (trig : Char) (refStep : I32) : Sequencer :=
  { beats := beats, subBeats := subBeats, tempo := tempo, trig := trig, refStep := refStep, clock := NumR.lit 0,
    currentStep := 0, channels := [] }

/-- R176: `beats * subBeats`. -/
def Sequencer.totalSteps (q : Sequencer) : Nat := q.beats * q.subBeats

/-- R176: `(60 / tempo) / subBeats`. -/
def Sequencer.stepDuration (N : NumRec) (q : Sequencer) : Val :=
  N.div (N.div (NumR.lit 60) q.tempo) (N.ofInt (q.subBeats : Int))

/-- R179: a channel is refused at its registration when its pattern is shorter than `totalSteps`. -/
def Sequencer.register (q : Sequencer) (c : SeqChannel) : Option Sequencer :=
  if q.totalSteps ≤ c.pattern.length then some { q with channels := q.channels ++ [c] } else none

/-- R175, R176, R179: what the rules ask of a Sequencer: a positive meter and tempo, a step of the cycle, patterns long enough. -/
def Sequencer.ok (N : NumRec) (q : Sequencer) : Bool :=
  decide (0 < q.beats) && decide (0 < q.subBeats) && N.lt (NumR.lit 0) q.tempo && decide (q.currentStep < q.totalSteps) &&
  q.channels.all (fun c => decide (q.totalSteps ≤ c.pattern.length))

/-- R177: the notes of a step: one for each channel whose pattern has the marker there, in channel order, each at the default pitch
`REFSTEP`. -/
def Sequencer.notesAt (q : Sequencer) (step : Nat) : List SeqNote :=
  (q.channels.filter (fun c => c.pattern[step]? == some q.trig)).map
    (fun c => { id := q.refStep, active := true, instrument := c.instrument })

/-- R177: `clock = clock + deltaTime`. -/
def Sequencer.tick (N : NumRec) (q : Sequencer) (deltaTime : Val) : Sequencer := { q with clock := N.add q.clock deltaTime }

/-- R177: the body of the loop, without its test. -/
def Sequencer.cross (N : NumRec) (q : Sequencer) : Sequencer :=
  { q with clock := N.sub q.clock (q.stepDuration N), currentStep := (q.currentStep + 1) % q.totalSteps }

/-- What a call of `advance` comes to. -/
inductive Advance where
  /-- The call returns: the Sequencer afterwards, and the notes it triggered. -/
  | done (q : Sequencer) (notes : List SeqNote)
  /-- The loop has not ended within the rounds allowed to it. -/
  | unfinished
  /-- The call is refused (U23). -/
  | refused
  deriving DecidableEq, Repr

/-- R177: the notes of an earlier step come before those of the later ones. -/
def Advance.after (notes : List SeqNote) : Advance → Advance
  | .done q ns => .done q (notes ++ ns)
  | .unfinished => .unfinished
  | .refused => .refused

/-- R177: the loop `while clock >= stepDuration`, at most `n` times round. -/
def Sequencer.loop (N : NumRec) : Nat → Sequencer → Advance
  | 0, q => if N.le (q.stepDuration N) q.clock then .unfinished else .done q []
  | n + 1, q =>
    if N.le (q.stepDuration N) q.clock then
      (Sequencer.loop N n (q.cross N)).after ((q.cross N).notesAt (q.cross N).currentStep)
    else .done q []

/-- R177: `advance(deltaTime)`, its loop at most `n` times round. U23: a negative `deltaTime` and a Sequencer whose tempo or meter is
not positive are refused; so is a pattern that is too short (U6, R179). -/
def Sequencer.advance (N : NumRec) (n : Nat) (q : Sequencer) (deltaTime : Val) : Advance :=
  if q.ok N && !N.lt deltaTime (NumR.lit 0) then Sequencer.loop N n (q.tick N deltaTime) else .refused

/-- R177: `triggeredCount`, of a call that returns. -/
def Advance.triggeredCount : Advance → Option Nat
  | .done _ notes => some notes.length
  | .unfinished => none
  | .refused => none

/-- R177: a note whose default pitch the caller overrides. DESIGN CHOICE (log entry 8): R177 lets the caller override the pitch and
gives `advance` no operand for it; in the model the override comes after `advance`, note by note, before the note is submitted. -/
def SeqNote.withPitch (n : SeqNote) (id : I32) : SeqNote := { n with id := id }

/-- R178: the ADDNOTE line by which a caller hands a note to the block, with the times the caller chooses. -/
def SeqNote.line (n : SeqNote) (onTime offTime : Val) : AsmLine := .addnote (some n.instrument) n.id onTime offTime

/-- R178: the command of that line. DESIGN CHOICE (log entry 8): the spec does not say what a host does with an instrument number that
is no reference (above `0xFF`, R151); the model submits no command for such a note, as the assembler takes no such line. -/
def SeqNote.submit (n : SeqNote) (onTime offTime : Val) : Option Command :=
  if (n.line onTime offTime).instr.wellFormed then some (n.line onTime offTime).assemble else none

end Sys2Proof.Machine
end

