-- ==== Sys2Proof/Safety.lean ====
section
/-! DEFINITION. What the claims speak of: the invariant of the machine, the registers and lanes a command may touch, and the formulas
of the spec on real numbers. -/

namespace Sys2Proof.Machine

/-! ## The invariant -/

/-- R28, R168: a recipe term holds legal values. -/
def TermRegs.wf (r : TermRegs) : Bool := legalTctl r.tctl && legalSemi r.semi && legalSawp r.sawp

/-- R27, R28, R168: an instrument holds legal values and has `NTERM` terms. -/
def InstrRegs.wf (c : Cfg) (r : InstrRegs) : Bool :=
  legalGate r.gate && legalTime c r.att && legalTime c r.dec && legalTime c r.rel &&
  r.terms.length == c.nterm && r.terms.all TermRegs.wf

/-- R131: `SRATE[f]` is either `0` or positive (not `<= 0`, as R130 tests it). -/
def FilterRegs.wf (c : Cfg) (r : FilterRegs) : Bool := c.ops.eq r.srate zeroVal || !c.ops.le r.srate zeroVal

/-- R7: in the numerics record of the block zero equals itself, and so the reset values are legal. `NUM_R` has it by arithmetic; of
another record it is assumed by this name. -/
def zeroIsZero (c : Cfg) : Bool := c.ops.le zeroVal zeroVal && c.ops.eq zeroVal zeroVal

/-- R30, R31: a slot is free, with all its fields zero, or it holds an active note whose instrument reference is null or names an
instrument. -/
def SlotRegs.wf (ninstr : Nat) (r : SlotRegs) : Bool :=
  r == SlotRegs.free || (r.sflags == 3#32 && (decide (r.sinstr.toNat < ninstr) || r.sinstr.toNat == nullRef))

/-- The invariant of the machine: the parameters are legal (R6, R7), the tables have the sizes of R20, every register holds a legal
value (R25, R168), and STATUS has bits 31:5 zero (R23). -/
def State.wf (s : State) : Bool :=
  s.cfg.legal && zeroIsZero s.cfg && decide (s.status.toNat < 32) &&
  s.instrs.length == s.cfg.ninstr && s.instrs.all (InstrRegs.wf s.cfg) &&
  s.filters.length == s.cfg.nfilt && s.filters.all (FilterRegs.wf s.cfg) &&
  s.slots.length == s.cfg.nslots && s.slots.all (SlotRegs.wf s.cfg.ninstr)

/-- R31: `VALID = 0 and ACTIVE = 0`, or `VALID = 1 and ACTIVE = 1`. -/
def SlotRegs.settled (r : SlotRegs) : Bool := r.valid == r.active

/-! ## What a command may touch -/

/-- The registers that a command may change beside STATUS (R26 to R30, R130 to R133, R151 to R153, R167). -/
def mayWrite (s : State) (i : Instr) (r : RegName) : Bool :=
  match i with
  | .fltInit f => match r with
    | .filt g _ => f == g
    | _ => false
  | .fltSetf f => match r with
    | .filt g .alpha => f == g
    | .filt g .cutoff => f == g
    | _ => false
  | .fltLp f => match r with
    | .filt g .prev => f == g
    | _ => false
  | .fltHp f => match r with
    | .filt g .prev => f == g
    | _ => false
  | .addnote _ => match r with
    | .nvalid => true
    | .slot x _ => s.freeSlot == some x
    | _ => false
  | .noteoff x => match r with
    | .slot y .offt => x == y
    | _ => false
  | .render => match r with
    | .acc => true
    | .nvalid => true
    | .slot x _ => (s.slot x).valid
    | _ => false
  | .wr a => regAt s.cfg a == some r
  | _ => false

/-- The input lanes that a command reads: the filled cells of the input side of R84. `r` is the type of the register WR names. -/
structure LaneUse where
  n : Bool
  d0 : Bool
  d1 : Bool
  d2 : Bool
  d3 : Bool
  deriving DecidableEq, Repr

/-- R84: the input lanes each command reads. -/
def laneUse (c : Cfg) (i : Instr) : LaneUse :=
  match i with
  | .nop => ⟨false, false, false, false, false⟩
  | .oscSin _ => ⟨false, true, true, true, true⟩
  | .oscTri _ => ⟨false, true, true, true, true⟩
  | .oscSqr _ => ⟨false, true, true, true, true⟩
  | .oscSawa _ => ⟨false, true, true, true, true⟩
  | .oscSawd _ => ⟨false, true, true, true, true⟩
  | .oscNoise _ => ⟨false, false, false, false, false⟩
  | .scale => ⟨true, false, false, false, false⟩
  | .env _ => ⟨false, true, true, true, false⟩
  | .fltInit _ => ⟨false, true, true, false, false⟩
  | .fltSetf _ => ⟨false, true, false, false, false⟩
  | .fltLp _ => ⟨false, false, true, false, false⟩
  | .fltHp _ => ⟨false, false, true, false, false⟩
  | .voice _ => ⟨true, true, true, true, false⟩
  | .addnote _ => ⟨true, false, true, true, false⟩
  | .noteoff _ => ⟨false, true, false, false, false⟩
  | .render => ⟨false, true, false, false, false⟩
  | .rd _ => ⟨false, false, false, false, false⟩
  | .wr a =>
    match (regAt c a).map RegName.type with
    | some .v => ⟨false, true, false, false, false⟩
    | some .i => ⟨true, false, false, false, false⟩
    | none => ⟨false, false, false, false, false⟩

/-- Two sets of lanes agree on every lane that is used. -/
def LaneUse.agree (u : LaneUse) (l m : Lanes) : Prop :=
  (u.n = true → l.n = m.n) ∧ (u.d0 = true → l.d0 = m.d0) ∧ (u.d1 = true → l.d1 = m.d1) ∧
  (u.d2 = true → l.d2 = m.d2) ∧ (u.d3 = true → l.d3 = m.d3)

/-- An outcome, with the sampled lanes replaced (they stay on the wires of the model's state after the command). -/
def withLanes (o : Out) (l : Lanes) : Out :=
  match o with
  | .next t => .next { t with lanes := l }
  | .fault f => .fault f
  | .refused r => .refused r

/-- An outcome, with the filter registers replaced. -/
def withFilters (o : Out) (fs : List FilterRegs) : Out :=
  match o with
  | .next t => .next { t with filters := fs }
  | .fault f => .fault f
  | .refused r => .refused r

/-! ## The spec's formulas on real numbers -/

/-- R100: the phase, on reals. -/
noncomputable def phaseReal (ρ : Valuation) (c : Cfg) (t hz lhz lamp : ℝ) : ℝ :=
  2 * Real.pi * hz * t + lamp * hz * waveReal ρ c (2 * Real.pi * lhz * t)

/-- R104: the additive sawtooth, on reals: the sum of `wave(p * k) / k` for `k` from 1 to `sawp - 1`, times `2 / PI`. -/
noncomputable def sawAReal (ρ : Valuation) (c : Cfg) (p : ℝ) (sawp : Nat) : ℝ :=
  (∑ k ∈ Finset.Ico 1 sawp, waveReal ρ c (p * (k : ℝ)) / (k : ℝ)) * 2 / Real.pi

/-- R105: the closed-form sawtooth, on reals. -/
noncomputable def sawDReal (p t hz : ℝ) : ℝ := p * fmodReal t (1 / hz) / Real.pi / t - Real.pi / 2

/-! ## The envelope on real numbers -/

/-- R27: the numbers that the five envelope registers of an instrument hold. -/
structure EnvRegs where
  att : ℝ
  dec : ℝ
  sus : ℝ
  rel : ℝ
  start : ℝ

/-- R27: the numbers that the envelope registers of this instrument hold. -/
noncomputable def InstrRegs.envRegs (r : InstrRegs) : EnvRegs :=
  { att := r.att.real, dec := r.dec.real, sus := r.sus.real, rel := r.rel.real, start := r.start.real }

/-- R120: `EnvShape`, on reals. -/
noncomputable def envShapeReal (e : EnvRegs) (age : ℝ) : ℝ :=
  if age ≤ e.att then
    if 0 < e.att then age / e.att * e.start else if age = 0 then e.start else 0
  else if age ≤ e.att + e.dec then (age - e.att) / e.dec * (e.sus - e.start) + e.start
  else e.sus

/-- R121: the amplitude before the clamp, on reals. -/
noncomputable def envRawReal (rel0 : EnvRel0) (e : EnvRegs) (tg on off : ℝ) : ℝ :=
  if on > off then envShapeReal e (tg - on)
  else if e.rel > 0 then (tg - off) / e.rel * (0 - envShapeReal e (off - on)) + envShapeReal e (off - on)
  else if rel0 = .zero then (if tg ≥ off then 0 else envShapeReal e (off - on))
  else envShapeReal e (off - on)

/-- R121: `Env`, on reals. -/
noncomputable def envReal (rel0 : EnvRel0) (e : EnvRegs) (tg on off : ℝ) : ℝ :=
  if envRawReal rel0 e tg on off ≤ 1 / 100 then 0 else envRawReal rel0 e tg on off

/-! ## The phases of an envelope -/

/-- R123: the phases of the envelope, a view: no register holds a phase. -/
inductive EnvPhase where
  | pre
  | attack
  | decay
  | sustain
  | release
  deriving DecidableEq, Repr

/-- R123: the phase at a global time, computed afresh from the operands. -/
def envPhase (c : Cfg) (r : InstrRegs) (tg on off : Val) : EnvPhase :=
  if c.ops.lt off on then
    if c.ops.lt (c.ops.sub tg on) zeroVal then .pre
    else if c.ops.le (c.ops.sub tg on) r.att then .attack
    else if c.ops.le (c.ops.sub tg on) (c.ops.add r.att r.dec) then .decay
    else .sustain
  else .release

/-! ## The built-in instruments, as far as the spec fixes them

The tests on values are those of the block's own `NUM` (R7), as in `finished` (R141). -/

/-- R142: the enabled terms of an instrument. -/
def InstrRegs.enabled (r : InstrRegs) : List TermRegs := r.terms.filter (fun m => tctlEn m.tctl)

/-- R144: a term of this kind. -/
def TermRegs.hasKind (r : TermRegs) (k : WaveKind) : Bool := kindOfCode (tctlKind r.tctl) == some k

/-- R144: the term has an LFO: a nonzero rate and a nonzero depth. -/
def TermRegs.hasLfo (r : TermRegs) (c : Cfg) : Bool := !c.ops.eq r.lfoHz zeroVal && !c.ops.eq r.lfoAmp zeroVal

/-- R144: amplitude-gated. -/
def InstrRegs.amplitudeGated (r : InstrRegs) : Bool := r.gate == 0#32

/-- R144: lifetime-gated, with a positive lifetime. -/
def InstrRegs.lifetimeGated (r : InstrRegs) (c : Cfg) : Bool := r.gate == 1#32 && c.ops.lt zeroVal r.maxLife

/-- R144: what the spec fixes of the Bell; words such as `large` and `small` fix no number and are left out (R4). DESIGN CHOICE (log
entry 11): the three partials stand in the terms in the table's order; R144 does not say in which terms they stand. -/
def InstrRegs.isBell (r : InstrRegs) (c : Cfg) : Bool :=
  r.amplitudeGated && c.ops.eq r.sus zeroVal &&
  match r.enabled with
  | [k, l, m] =>
    k.hasKind .sin && l.hasKind .sin && m.hasKind .sin &&
    k.semi == 12#32 && l.semi == 24#32 && m.semi == 36#32 &&
    c.ops.lt l.weight k.weight && c.ops.lt m.weight l.weight &&
    k.hasLfo c && !l.hasLfo c && !m.hasLfo c
  | _ => false

/-- R144: what the spec fixes of the Harmonica: a sawtooth of either kind, two squares some octaves apart, a noise. -/
def InstrRegs.isHarmonica (r : InstrRegs) (c : Cfg) : Bool :=
  let squares := r.enabled.filter (fun m => m.hasKind .sqr)
  r.amplitudeGated && c.ops.eq r.att zeroVal && r.enabled.length == 4 &&
  r.enabled.countP (fun m => m.hasKind .sawa || m.hasKind .sawd) == 1 &&
  r.enabled.countP (fun m => m.hasKind .noise) == 1 &&
  match squares with
  | [a, b] => decide ((a.semi.toInt - b.semi.toInt) % 12 = 0) && a.semi != b.semi
  | _ => false

/-- R144: two enabled terms, one of each of these kinds, in either order; the pair found. -/
def InstrRegs.twoTerms (r : InstrRegs) (k l : WaveKind) : Option (TermRegs × TermRegs) :=
  match r.enabled with
  | [a, b] =>
    if a.hasKind k && b.hasKind l then some (a, b)
    else if b.hasKind k && a.hasKind l then some (b, a)
    else none
  | _ => none

/-- R144: what the spec fixes of the Kick: a low sine with an LFO, and a noise. -/
def InstrRegs.isKick (r : InstrRegs) (c : Cfg) : Bool :=
  r.lifetimeGated c && c.ops.eq r.sus zeroVal && c.ops.eq r.rel zeroVal &&
  match r.twoTerms .sin .noise with
  | some (a, _) => decide (a.semi.toInt < 0) && a.hasLfo c
  | none => false

/-- R144: what the spec fixes of the Snare: a low sine and a noise of equal weight. -/
def InstrRegs.isSnare (r : InstrRegs) (c : Cfg) : Bool :=
  r.lifetimeGated c && c.ops.eq r.att zeroVal &&
  match r.twoTerms .sin .noise with
  | some (a, b) => decide (a.semi.toInt < 0) && c.ops.eq a.weight b.weight
  | none => false

/-- R144: what the spec fixes of the HiHat: mostly noise, and a fainter, higher square. DESIGN CHOICE (log entry 11): the square's `a
higher SEMI` is taken as `SEMI > 0`; R144 does not say what it is higher than. -/
def InstrRegs.isHiHat (r : InstrRegs) (c : Cfg) : Bool :=
  r.lifetimeGated c &&
  match r.twoTerms .noise .sqr with
  | some (a, b) => c.ops.lt b.weight a.weight && decide (0 < b.semi.toInt)
  | none => false

/-! ## The render pass -/

/-- R157: an enabled term of kind NOISE. -/
def TermRegs.isNoise (r : TermRegs) : Bool := tctlEn r.tctl && kindOfCode (tctlKind r.tctl) == some .noise

/-- R157: no enabled term of any rendered note has kind NOISE. -/
def State.noiseFree (s : State) : Prop :=
  ∀ r ∈ s.slots, r.sounding = true → ∀ m ∈ (s.instr r.sinstr.toNat).terms, m.isNoise = false

end Sys2Proof.Machine
end

