-- ==== Sys2Proof/Certificates/Slice0/Obligations.lean ====
section
/-! DEFINITION. The statements for the provers: what the numbered rules of spec/ say the machine does. A statement that a command
completes holds for every numerics record `NUM` (R6, R7); what a value is in numbers is said for `NUM_R`, by the real number that
the value on the lane stands for, under every valuation of what the spec leaves free, or under the block's own (log entries 1, 2, 4). -/

open Sys2Proof Sys2Proof.Machine

/-! ## Encoding -/

/-- R81, R82: no bit of an encoding is dropped: every well-formed command is read back from its word. -/
def Obligations.DecodeOfEncodeIsTheCommand : Prop :=
  ∀ i : Instr, i.wellFormed = true → decode (encode i) = .ok i

/-- R81, R82: each word has one meaning: a word that decodes is the encoding of what it decodes to, which is well formed. -/
def Obligations.EncodeOfDecodedCommandIsTheWord : Prop :=
  ∀ (w : CmdWord) (i : Instr), decode w = .ok i → i.wellFormed = true ∧ encode i = w

/-- R82: the rows that a word selects are the row of the command it decodes to, and none where it is illegal. -/
def Obligations.DecoderFollowsTheOpcodeMap : Prop :=
  ∀ w : CmdWord, (opcodeMap.filter (fun r => r.selects w)).map OpRow.mnemonic =
    match decode w with
    | .ok i => [i.mnemonic]
    | .illegal _ => []

/-- R86: the illegal words. -/
def Obligations.IllegalWordsAreThoseOfR86 : Prop :=
  ∀ w : CmdWord, (decode w).isOk = false ↔
    (opField w ∉ [0x00, 0x10, 0x11, 0x20, 0x30, 0x31, 0x32, 0x33, 0x40, 0x50, 0x51, 0x52, 0x60, 0x61]) ∨
    (opField w = 0x10 ∧ 5 < xField w) ∨
    (opField w ∈ [0x00, 0x11, 0x52] ∧ (xField w ≠ 0 ∨ yField w ≠ 0)) ∨
    (opField w ∈ [0x20, 0x30, 0x31, 0x32, 0x33, 0x40, 0x50, 0x51] ∧ yField w ≠ 0) ∨
    (opField w ∈ [0x60, 0x61] ∧ xField w ≠ 0)

/-- R82: words written out from the opcode map, one of each family. -/
def Obligations.SampleWordsDecode : Prop :=
  decode 0x00000000#32 = .ok .nop ∧ decode 0x10030032#32 = .ok (.oscSawa 50) ∧ decode 0x11000000#32 = .ok .scale ∧
  decode 0x20010000#32 = .ok (.env 1) ∧ decode 0x33010000#32 = .ok (.fltHp 1) ∧
  decode 0x40000000#32 = .ok (.voice 0) ∧ decode 0x50FF0000#32 = .ok (.addnote 0xFF) ∧
  decode 0x51030000#32 = .ok (.noteoff 3) ∧ decode 0x52000000#32 = .ok .render ∧
  decode 0x600011ED#32 = .ok (.rd 0x11ED) ∧ decode 0x61001010#32 = .ok (.wr 0x1010) ∧
  decode 0x10060000#32 = .illegal .reservedKind ∧ decode 0x70000000#32 = .illegal .unknownOpcode ∧
  decode 0x60010000#32 = .illegal .mustBeZero

/-- R89, R90: a command line whose operands fit their fields assembles to a word that decodes to the command the line names, and to
the lanes that R89 gives it, zero on a lane it does not name. (A WR line's value carries its type and goes to the lane of that type:
the model's choice, log entry 9; it is R89's lane where the value has its register's type.) An OSC line that leaves out its optional
operands has `lfoHertz = 0`, `lfoAmplitude = 0` and `sawPeriod = 50`. -/
def Obligations.AssembledLinesDecode : Prop :=
  (∀ l : AsmLine, l.instr.wellFormed = true → decode l.assemble.word = .ok l.instr) ∧
  (∀ (k : WaveKind) (t h : Val) (lh la : Option Val),
    decode (AsmLine.osc k t h lh la none).assemble.word = .ok (oscOfKind k 50)) ∧
  (∀ l : AsmLine, l.assemble.lanes =
    let z := NumR.lit 0
    match l with
    | .nop => ⟨0#32, z, z, z, z⟩
    | .osc _ time hertz lfoHertz lfoAmplitude _ => ⟨0#32, time, hertz, lfoHertz.getD z, lfoAmplitude.getD z⟩
    | .scale noteId => ⟨noteId, z, z, z, z⟩
    | .env _ timeGlobal timeOn timeOff => ⟨0#32, timeGlobal, timeOn, timeOff, z⟩
    | .fltInit _ cutoffHertz sampleRateHertz => ⟨0#32, cutoffHertz, sampleRateHertz, z, z⟩
    | .fltSetf _ newCutoff => ⟨0#32, newCutoff, z, z, z⟩
    | .fltLp _ timeGlobal sample => ⟨0#32, timeGlobal, sample, z, z⟩
    | .fltHp _ timeGlobal sample => ⟨0#32, timeGlobal, sample, z, z⟩
    | .voice _ noteId timeGlobal onTime offTime => ⟨noteId, timeGlobal, onTime, offTime, z⟩
    | .addnote _ noteId onTime offTime => ⟨noteId, z, onTime, offTime, z⟩
    | .noteoff _ time => ⟨0#32, time, z, z, z⟩
    | .render timeGlobal => ⟨0#32, timeGlobal, z, z, z⟩
    | .rd _ => ⟨0#32, z, z, z, z⟩
    | .wr _ (.v value) => ⟨0#32, value, z, z, z⟩
    | .wr _ (.i value) => ⟨value, z, z, z, z⟩
    | .rdstat => ⟨0#32, z, z, z, z⟩
    | .clrstat => ⟨31#32, z, z, z, z⟩
    | .term _ _ kind => ⟨BitVec.ofNat 32 (8 + kindCode kind), z, z, z, z⟩
    | .termoff _ _ => ⟨0#32, z, z, z, z⟩)

/-! ## A step -/

/-- R12, R67, R68: the block takes the oldest command and executes the command its word decodes to, on the command's own lanes. -/
def Obligations.StepRunsTheDecodedCommand : Prop :=
  ∀ (s : State) (c : Command) (rest : List HostInput) (i : Instr),
    s.inbox = .command c :: rest → decode c.word = .ok i →
    step s = exec i { s with inbox := rest, lanes := c.lanes, rsp := none }

/-- R86: an illegal word sets STATUS.ILL, changes nothing else, and answers with zero lanes and `ERR = ILLEGAL`. The port moves on to
the next input, and the command's lanes have been sampled (R80). -/
def Obligations.IllegalWordSetsOnlyIll : Prop :=
  ∀ (s : State) (c : Command) (rest : List HostInput) (why : IllegalWord),
    s.inbox = .command c :: rest → decode c.word = .illegal why →
    step s = .next { s with
      inbox := rest, lanes := c.lanes, status := s.status ||| 1#32,
      rsp := some ⟨zeroVal, 0#32, false, .illegal⟩ }

/-- R34, R210: after `rst` every V-typed register holds 0 and every I-typed register 0, but for BASEF (8), every SAWP (50) and the
constant CAP; no response is on the pins. The parameters, the draw stream and the host's later inputs are not reset. -/
def Obligations.ResetGivesTheResetValues : Prop :=
  ∀ (s : State) (rest : List HostInput), s.cfg.legal = true → s.inbox = .rst :: rest →
    ∃ t, step s = .next t ∧
      (∀ r : RegName, r.exists s.cfg = true →
        t.read r =
          match r with
          | .basef => .v (NumR.lit 8)
          | .cap => .i (BitVec.ofNat 32
              (s.cfg.nslots + s.cfg.ninstr * 2 ^ 8 + s.cfg.nfilt * 2 ^ 16 + s.cfg.nterm * 2 ^ 24))
          | .term _ _ .sawp => .i 50#32
          | r => match r.type with
            | .v => .v (NumR.lit 0)
            | .i => .i 0#32) ∧
      t.rsp = none ∧ t.cfg = s.cfg ∧ t.draws = s.draws ∧ t.inbox = rest

/-- R200 (log entry 5): with nothing on its ports the block stays as it is, and gives no response. -/
def Obligations.IdleBlockStaysAsItIs : Prop :=
  ∀ s : State, s.inbox = [] → step s = .next { s with rsp := none }

/-- R13, R68, R85: the block never halts: every step answers a next state, and every command gives exactly one response. -/
def Obligations.EveryCommandGivesOneResponse : Prop :=
  ∀ s : State, ∃ t, step s = .next t ∧
    ∀ (c : Command) (rest : List HostInput), s.inbox = .command c :: rest →
      t.inbox = rest ∧ ∃ r : Response, t.rsp = some r

/-! ## Whole-machine rules -/

/-- The state right after reset is a block with the default parameters of R6 and the reset values of R34, and meets the invariant of
the machine. -/
def Obligations.ResetStateMeetsTheInvariant : Prop :=
  State.reset.wf = true ∧
  State.reset.cfg =
    { num := .real, nslots := 16, ninstr := 8, nfilt := 2, nterm := 4, envRel0 := .zero, waveImpl := .exact } ∧
  State.reset.status = 0#32 ∧ State.reset.basef = NumR.lit 8 ∧ State.reset.acc = NumR.lit 0 ∧ State.reset.nvalid = 0 ∧
  State.reset.read .cap = .i 0x04020810#32

/-- R23, R25, R31, R131, R168: every step keeps the invariant of the machine: sizes, legal values, the pool, the reserved bits. It holds
for every `NUM` in which zero equals itself, which is a part of the invariant. -/
def Obligations.StepKeepsTheInvariant : Prop :=
  ∀ s t : State, s.wf = true → step s = .next t → t.wf = true

/-- R6: no step changes a parameter, and a step given the record as its argument is one of a block with that record. -/
def Obligations.NoStepChangesAParameter : Prop :=
  (∀ s t : State, step s = .next t → t.cfg = s.cfg) ∧
  (∀ (c : Cfg) (s t : State), stepWith c s = .next t → t.cfg = c)

/-- R31: after reset and after every command, no slot shows `VALID = 1, ACTIVE = 0` or `VALID = 0, ACTIVE = 1`. -/
def Obligations.SlotsStaySettled : Prop :=
  ∀ s t : State, (∀ r ∈ s.slots, r.settled = true) ∨ (∃ rest, s.inbox = .rst :: rest) → step s = .next t →
    ∀ r ∈ t.slots, r.settled = true

/-- R194: a command that ends with ILLEGAL, BADARG, POOLFULL or BADREF has no effect on any register but its STATUS bit, and its
other response lanes are zero; the block has taken it from the port and is ready for the next. -/
def Obligations.AnEndingErrorChangesOnlyItsFlag : Prop :=
  ∀ (s t : State) (c : Command) (rest : List HostInput) (r : Response),
    s.inbox = .command c :: rest → step s = .next t → t.rsp = some r → r.err.ends = true →
    t = { s with
      inbox := rest
      lanes := c.lanes
      status := s.status ||| r.err.statusBit
      rsp := some ⟨zeroVal, 0#32, false, r.err⟩ }

/-- R23, R191: a command other than a WR to STATUS sets the STATUS bit of the code it answers with, bit `k - 1` for code `k`, and
changes no other bit. -/
def Obligations.StatusFollowsTheErrorCode : Prop :=
  ∀ (i : Instr) (s t : State) (r : Response), exec i s = .next t → t.rsp = some r → i ≠ .wr 0x0000 →
    ∀ b < 32, t.status.getLsbD b = (s.status.getLsbD b || decide (r.err.code.toNat = b + 1))

/-- R192: which command can answer with which code. -/
def Obligations.EachCommandHasItsErrorCodes : Prop :=
  ∀ (i : Instr) (s t : State) (r : Response), exec i s = .next t → t.rsp = some r →
    r.err ∈
      match i with
      | .nop => [Err.ok]
      | .oscSin _ => [Err.ok]
      | .oscTri _ => [Err.ok]
      | .oscSqr _ => [Err.ok]
      | .oscSawa _ => [Err.ok]
      | .oscSawd _ => [Err.ok, Err.domain]
      | .oscNoise _ => [Err.ok]
      | .scale => [Err.ok]
      | .env _ => [Err.ok, Err.badArg]
      | .fltInit _ => [Err.ok, Err.badArg]
      | .fltSetf _ => [Err.ok, Err.badArg, Err.badRef]
      | .fltLp _ => [Err.ok, Err.badArg]
      | .fltHp _ => [Err.ok, Err.badArg]
      | .voice _ => [Err.ok, Err.badArg, Err.domain]
      | .addnote _ => [Err.ok, Err.badArg, Err.poolFull]
      | .noteoff _ => [Err.ok, Err.badArg, Err.badRef]
      | .render => [Err.ok, Err.domain]
      | .rd _ => [Err.ok, Err.badArg]
      | .wr _ => [Err.ok, Err.badArg]

/-- The frame of every command, by address: a register that the command may not change, beside STATUS, reads as before. -/
def Obligations.OtherRegistersReadAsBefore : Prop :=
  ∀ (i : Instr) (s t : State) (a : Nat) (r : RegName), exec i s = .next t → regAt s.cfg a = some r →
    r ≠ .status → mayWrite s i r = false → t.readAddr a = s.readAddr a

/-- R153 (6): RENDER is the only command that frees a slot. -/
def Obligations.OnlyRenderFreesASlot : Prop :=
  ∀ (i : Instr) (s t : State) (x : Nat), exec i s = .next t → x < s.slots.length →
    (s.slot x).valid = true → (t.slot x).valid = false → i = .render

/-- R91: a lane that a command does not use has no effect on state or response; nor has field `y` of an OSC command other than
OSC.SAWA. -/
def Obligations.UnusedOperandsHaveNoEffect : Prop :=
  (∀ (i : Instr) (s : State) (l : Lanes), (laneUse s.cfg i).agree s.lanes l →
    exec i { s with lanes := l } = withLanes (exec i s) l) ∧
  (∀ (y z : Nat) (s : State),
    exec (.oscSin y) s = exec (.oscSin z) s ∧ exec (.oscTri y) s = exec (.oscTri z) s ∧
    exec (.oscSqr y) s = exec (.oscSqr z) s ∧ exec (.oscSawd y) s = exec (.oscSawd z) s ∧
    exec (.oscNoise y) s = exec (.oscNoise z) s)

/-- R134 (2): RENDER and VOICE never read or write a filter register. -/
def Obligations.RenderAndVoiceIgnoreTheFilters : Prop :=
  ∀ (i : Instr) (s : State) (fs : List FilterRegs), i = .render ∨ (∃ x, i = .voice x) →
    exec i { s with filters := fs } = withFilters (exec i s) fs

/-- R65: the address map: every register that exists is at its address and at no other. -/
def Obligations.TheAddressMapIsExact : Prop :=
  ∀ (c : Cfg) (a : Nat) (r : RegName), c.legal = true →
    (regAt c a = some r ↔ r.exists c = true ∧ r.addr = a)

/-! ## The reference numerics -/

/-- R7: every field of the record `NUM_R` is the exact operation of the reals, and its three tests are the order and the equality of
the reals, for all operands. (`div` and `fmod` are used with a divisor that is not zero, `asin` is defined on `[-1, 1]`; the sine
primitive is the sine where `WAVE_IMPL = exact`.) -/
def Obligations.TheReferenceRecordIsExact : Prop :=
  ∀ (w : WaveImpl) (ρ : Valuation) (a b : Val) (n : Int) (d : Rat),
    ((numR w).add a b).toReal ρ = a.toReal ρ + b.toReal ρ ∧
    ((numR w).sub a b).toReal ρ = a.toReal ρ - b.toReal ρ ∧
    ((numR w).mul a b).toReal ρ = a.toReal ρ * b.toReal ρ ∧
    (b.toReal ρ ≠ 0 → ((numR w).div a b).toReal ρ = a.toReal ρ / b.toReal ρ) ∧
    ((numR w).lt a b = true ↔ a.real < b.real) ∧
    ((numR w).le a b = true ↔ a.real ≤ b.real) ∧
    ((numR w).eq a b = true ↔ a.real = b.real) ∧
    ((numR w).ofInt n).toReal ρ = n ∧
    (NumR.lit d).toReal ρ = d ∧
    (numR w).pi.toReal ρ = Real.pi ∧
    (w = .exact → ((numR w).wave a).toReal ρ = Real.sin (a.toReal ρ)) ∧
    (-1 ≤ a.toReal ρ → a.toReal ρ ≤ 1 → Real.sin (((numR w).asin a).toReal ρ) = a.toReal ρ ∧
      -(Real.pi / 2) ≤ ((numR w).asin a).toReal ρ ∧ ((numR w).asin a).toReal ρ ≤ Real.pi / 2) ∧
    ((numR w).exp a).toReal ρ = Real.exp (a.toReal ρ) ∧
    (b.toReal ρ ≠ 0 → ((numR w).fmod a b).toReal ρ = fmodReal (a.toReal ρ) (b.toReal ρ)) ∧
    ((numR w).semi n).toReal ρ = (2 : ℝ) ^ ((n : ℝ) / 12)

/-! ## NOP and the waveform generator -/

/-- R165: NOP changes nothing and answers with zero lanes. -/
def Obligations.NopHasNoEffect : Prop :=
  ∀ s : State, exec .nop s =
    .next { s with rsp := some ⟨NumR.lit 0, 0#32, false, .ok⟩ }

/-- R101: OSC.SIN. -/
def Obligations.OscSinGivesWaveOfPhase : Prop :=
  ∀ (y : Nat) (s : State), ∃ v : Val,
    exec (.oscSin y) s = .next { s with rsp := some ⟨v, 0#32, false, .ok⟩ } ∧
    (s.cfg.num = .real → ∀ ρ : Valuation, v.toReal ρ =
      waveReal ρ s.cfg (phaseReal ρ s.cfg (s.lanes.d0.toReal ρ) (s.lanes.d1.toReal ρ) (s.lanes.d2.toReal ρ)
        (s.lanes.d3.toReal ρ)))

/-- R102: OSC.TRI; with the exact sine its output is in `[-1, 1]`. -/
def Obligations.OscTriGivesTheTriangle : Prop :=
  ∀ (y : Nat) (s : State), ∃ v : Val,
    exec (.oscTri y) s = .next { s with rsp := some ⟨v, 0#32, false, .ok⟩ } ∧
    (s.cfg.num = .real → ∀ ρ : Valuation, v.toReal ρ =
      asinReal ρ (waveReal ρ s.cfg (phaseReal ρ s.cfg (s.lanes.d0.toReal ρ) (s.lanes.d1.toReal ρ) (s.lanes.d2.toReal ρ)
        (s.lanes.d3.toReal ρ))) * 2 / Real.pi) ∧
    (s.cfg.num = .real → s.cfg.waveImpl = .exact → ∀ ρ : Valuation, -1 ≤ v.toReal ρ ∧ v.toReal ρ ≤ 1)

/-- R103: OSC.SQR: `1` where `wave(phase) > 0`, else `-1`. -/
def Obligations.OscSqrGivesTheSignOfTheWave : Prop :=
  ∀ (y : Nat) (s : State), ∃ v : Val,
    exec (.oscSqr y) s = .next { s with rsp := some ⟨v, 0#32, false, .ok⟩ } ∧
    (s.cfg.num = .real →
      v = if 0 < waveReal Config.world s.cfg
            (phaseReal Config.world s.cfg s.lanes.d0.real s.lanes.d1.real s.lanes.d2.real s.lanes.d3.real)
          then NumR.lit 1 else NumR.lit (-1))

/-- R103: with no LFO depth and the exact sine OSC.SQR is `1` in the open first half of each period and `-1` elsewhere. -/
def Obligations.PlainSquareIsTheSignOfTheSine : Prop :=
  ∀ (y : Nat) (s : State), s.cfg.num = .real → s.cfg.waveImpl = .exact → s.lanes.d3.real = 0 → ∃ v : Val,
    exec (.oscSqr y) s = .next { s with rsp := some ⟨v, 0#32, false, .ok⟩ } ∧
    v.real = if 0 < Int.fract (s.lanes.d1.real * s.lanes.d0.real) ∧ Int.fract (s.lanes.d1.real * s.lanes.d0.real) < 1 / 2
      then 1 else -1

/-- R104: OSC.SAWA. -/
def Obligations.OscSawaGivesTheAdditiveSum : Prop :=
  ∀ (y : Nat) (s : State), ∃ v : Val,
    exec (.oscSawa y) s = .next { s with rsp := some ⟨v, 0#32, false, .ok⟩ } ∧
    (s.cfg.num = .real → ∀ ρ : Valuation, v.toReal ρ =
      sawAReal ρ s.cfg (phaseReal ρ s.cfg (s.lanes.d0.toReal ρ) (s.lanes.d1.toReal ρ) (s.lanes.d2.toReal ρ)
        (s.lanes.d3.toReal ρ)) y)

/-- R105: OSC.SAWD: the closed form away from its singular point, `time = 0 or hertz = 0`; there the value `0`, `ERR = DOMAIN`,
STATUS.DOM set, and the command completes. -/
def Obligations.OscSawdGivesTheClosedForm : Prop :=
  ∀ (y : Nat) (s : State),
    (s.cfg.ops.eq s.lanes.d0 (NumR.lit 0) = false → s.cfg.ops.eq s.lanes.d1 (NumR.lit 0) = false → ∃ v : Val,
      exec (.oscSawd y) s = .next { s with rsp := some ⟨v, 0#32, false, .ok⟩ } ∧
      (s.cfg.num = .real → ∀ ρ : Valuation, v.toReal ρ =
        sawDReal (phaseReal ρ s.cfg (s.lanes.d0.toReal ρ) (s.lanes.d1.toReal ρ) (s.lanes.d2.toReal ρ)
          (s.lanes.d3.toReal ρ)) (s.lanes.d0.toReal ρ) (s.lanes.d1.toReal ρ))) ∧
    (s.cfg.ops.eq s.lanes.d0 (NumR.lit 0) = true ∨ s.cfg.ops.eq s.lanes.d1 (NumR.lit 0) = true →
      exec (.oscSawd y) s = .next { s with
        status := s.status ||| 16#32, rsp := some ⟨NumR.lit 0, 0#32, false, .domain⟩ }) ∧
    (s.cfg.num = .real →
      (s.cfg.ops.eq s.lanes.d0 (NumR.lit 0) = true ↔ s.lanes.d0.real = 0) ∧
      (s.cfg.ops.eq s.lanes.d1 (NumR.lit 0) = true ↔ s.lanes.d1.real = 0))

/-- R106: OSC.NOISE takes one draw and returns it: a value of `[-1, 1]`. -/
def Obligations.OscNoiseReturnsOneDraw : Prop :=
  ∀ (y : Nat) (s : State), ∃ v : Val,
    exec (.oscNoise y) s = .next { s with
      draws := s.draws + 1, rsp := some ⟨v, 0#32, false, .ok⟩ } ∧
    v = drawVal s.draws ∧ ∀ ρ : Valuation, -1 ≤ v.toReal ρ ∧ v.toReal ρ ≤ 1

/-- R107: SCALE: `BASEF * 2^(N/12)`, for every `i32`, negative ones too. -/
def Obligations.ScaleGivesEqualTemperament : Prop :=
  ∀ s : State, ∃ v : Val,
    exec .scale s = .next { s with rsp := some ⟨v, 0#32, false, .ok⟩ } ∧
    (s.cfg.num = .real → ∀ ρ : Valuation, v.toReal ρ = s.basef.toReal ρ * (2 : ℝ) ^ (((s.lanes.n).toInt : ℝ) / 12))

/-! ## The envelope -/

/-- R120, R121, R122: ENV completes on every operand and gives the number that the formulas give, whatever reals the registers and
the times are. -/
def Obligations.EnvGivesTheAmplitude : Prop :=
  ∀ (i : Nat) (s : State), i < s.cfg.ninstr → ∃ v : Val,
    exec (.env i) s = .next { s with rsp := some ⟨v, 0#32, false, .ok⟩ } ∧
    (s.cfg.num = .real →
      v.real = envReal s.cfg.envRel0 (s.instr i).envRegs s.lanes.d0.real s.lanes.d1.real s.lanes.d2.real)

/-- R121 (a): ENV completes on every operand, and its output is exactly `0` or is not `<= 0.01`, for every `NUM`; for `NUM_R` it is
never negative. -/
def Obligations.EnvOutputIsZeroOrAudible : Prop :=
  ∀ (i : Nat) (s : State), i < s.cfg.ninstr → ∃ v : Val,
    exec (.env i) s = .next { s with rsp := some ⟨v, 0#32, false, .ok⟩ } ∧
    (v = NumR.lit 0 ∨ s.cfg.ops.le v (NumR.lit (1 / 100)) = false) ∧
    (s.cfg.num = .real → v.real = 0 ∨ 1 / 100 < v.real)

/-- R124 (1): while the note is held and its age is in `[0, attackTime]` the amplitude before the clamp is linear in the age (where
that interval is more than one point), and it is exactly `startAmplitude` at the age `attackTime`. -/
def Obligations.AttackIsLinearAndReachesStart : Prop :=
  ∀ (c : Cfg) (r : InstrRegs) (tg on off : Val), c.num = .real → on.real > off.real → 0 ≤ tg.real - on.real →
    tg.real - on.real ≤ r.att.real →
    (0 < r.att.real → (envRaw c r tg on off).real = (tg.real - on.real) / r.att.real * r.start.real) ∧
    (tg.real - on.real = r.att.real → (envRaw c r tg on off).real = r.start.real)

/-- R124 (2): past `attackTime + decayTime`, while held, the amplitude is exactly `sustainAmplitude` where that is above `0.01`, and
`0` where it is not. -/
def Obligations.SustainIsExact : Prop :=
  ∀ (c : Cfg) (r : InstrRegs) (tg on off : Val), c.num = .real → on.real > off.real → 0 ≤ r.dec.real →
    r.att.real + r.dec.real < tg.real - on.real →
    (env c r tg on off).real = if 1 / 100 < r.sus.real then r.sus.real else 0

/-- R124 (3): a released note sampled at `offTime + releaseTime` has the amplitude 0. -/
def Obligations.ReleaseEndsInSilence : Prop :=
  ∀ (c : Cfg) (r : InstrRegs) (tg on off : Val), c.num = .real → on.real ≤ off.real →
    0 < r.rel.real ∨ (r.rel.real = 0 ∧ c.envRel0 = .zero) → tg.real = off.real + r.rel.real →
    env c r tg on off = NumR.lit 0

/-! ## The filters -/

/-- R130: FLT.INIT. -/
def Obligations.FltInitConstructsTheUnit : Prop :=
  ∀ (f : Nat) (s : State), f < s.cfg.nfilt → s.cfg.ops.le s.lanes.d1 (NumR.lit 0) = false → ∃ alpha : Val,
    exec (.fltInit f) s = .next { s with
      filters := s.filters.set f
        { alpha := alpha, prev := NumR.lit 0, srate := s.lanes.d1, cutoff := s.lanes.d0 }
      rsp := some ⟨NumR.lit 0, 0#32, false, .ok⟩ } ∧
    (s.cfg.num = .real → ∀ ρ : Valuation,
      alpha.toReal ρ = Real.exp (0 - 2 * Real.pi * s.lanes.d0.toReal ρ / s.lanes.d1.toReal ρ))

/-- R131: FLT.SETF recomputes ALPHA and CUTOFF and keeps PREV and SRATE. -/
def Obligations.FltSetfKeepsPrev : Prop :=
  ∀ (f : Nat) (s : State), f < s.cfg.nfilt → s.cfg.ops.eq (s.filt f).srate (NumR.lit 0) = false → ∃ alpha : Val,
    exec (.fltSetf f) s = .next { s with
      filters := s.filters.set f
        { alpha := alpha, prev := (s.filt f).prev, srate := (s.filt f).srate, cutoff := s.lanes.d0 }
      rsp := some ⟨NumR.lit 0, 0#32, false, .ok⟩ } ∧
    (s.cfg.num = .real → ∀ ρ : Valuation, alpha.toReal ρ =
      Real.exp (0 - 2 * Real.pi * s.lanes.d0.toReal ρ / (s.filt f).srate.toReal ρ))

/-- R132: FLT.LP: the output is `(1 - ALPHA) * sample + ALPHA * PREV`; it goes to `Q` and to PREV, and no other register changes. -/
def Obligations.FltLpAppliesItsFormula : Prop :=
  ∀ (f : Nat) (s : State), f < s.cfg.nfilt → ∃ out : Val,
    exec (.fltLp f) s = .next { s with
      filters := s.filters.set f { s.filt f with prev := out }
      rsp := some ⟨out, 0#32, false, .ok⟩ } ∧
    (s.cfg.num = .real → ∀ ρ : Valuation, out.toReal ρ =
      (1 - (s.filt f).alpha.toReal ρ) * s.lanes.d1.toReal ρ + (s.filt f).alpha.toReal ρ * (s.filt f).prev.toReal ρ)

/-- R133: FLT.HP: the output is `ALPHA * (2 * PREV - sample)`; it goes to `Q` and to PREV, and no other register changes. -/
def Obligations.FltHpAppliesItsFormula : Prop :=
  ∀ (f : Nat) (s : State), f < s.cfg.nfilt → ∃ out : Val,
    exec (.fltHp f) s = .next { s with
      filters := s.filters.set f { s.filt f with prev := out }
      rsp := some ⟨out, 0#32, false, .ok⟩ } ∧
    (s.cfg.num = .real → ∀ ρ : Valuation, out.toReal ρ =
      (s.filt f).alpha.toReal ρ * (2 * (s.filt f).prev.toReal ρ - s.lanes.d1.toReal ρ))

/-- R132: for a constant input 1 from `PREV = 0`, the `n`-th output of FLT.LP is `1 - ALPHA^n`. `run k` is the state before the
`k`-th FLT.LP, counted from 0, and the host puts the sample 1 on the port each time. -/
def Obligations.LowPassStepResponse : Prop :=
  ∀ (f : Nat) (run : Nat → State) (alpha : Val), (run 0).cfg.num = .real → f < (run 0).cfg.nfilt → f < (run 0).filters.length →
    ((run 0).filt f).alpha = alpha → ((run 0).filt f).prev = NumR.lit 0 →
    (run 0).lanes.d1 = NumR.lit 1 → (∀ k, exec (.fltLp f) (run k) = .next (run (k + 1))) →
    ∀ (n : Nat) (ρ : Valuation), ((run n).filt f).prev.toReal ρ = 1 - alpha.toReal ρ ^ n

/-- R192: the operand errors of ENV, VOICE and the filter commands: an index at or beyond the capacity (the null reference `0xFF`
included), a rate `<= 0`, a unit never initialised. -/
def Obligations.UnitOperandErrors : Prop :=
  ∀ (x : Nat) (s : State),
    (s.cfg.ninstr ≤ x →
      exec (.env x) s = .next (s.raise .badArg) ∧ exec (.voice x) s = .next (s.raise .badArg)) ∧
    (s.cfg.nfilt ≤ x →
      exec (.fltInit x) s = .next (s.raise .badArg) ∧ exec (.fltSetf x) s = .next (s.raise .badArg) ∧
      exec (.fltLp x) s = .next (s.raise .badArg) ∧ exec (.fltHp x) s = .next (s.raise .badArg)) ∧
    (x < s.cfg.nfilt → s.cfg.ops.le s.lanes.d1 (NumR.lit 0) = true → exec (.fltInit x) s = .next (s.raise .badArg)) ∧
    (x < s.cfg.nfilt → s.cfg.ops.eq (s.filt x).srate (NumR.lit 0) = true →
      exec (.fltSetf x) s = .next (s.raise .badRef))

/-! ## Instruments -/

/-- R140, R141, R143: VOICE: `amp * sum * VOL`, the completion policy on FIN, and no register changed but STATUS.DOM where a SAWD
term met its singular point. `amp` is the envelope of R121 and `sum` the recipe of R142 at the note age. -/
def Obligations.VoiceRendersOneNote : Prop :=
  ∀ (i : Nat) (s : State), i < s.cfg.ninstr → ∃ v : Val,
    let r := s.instr i
    let age := s.cfg.ops.sub s.lanes.d0 s.lanes.d1
    let amp := env s.cfg r s.lanes.d0 s.lanes.d1 s.lanes.d2
    let sum := recipeSum s.cfg s.basef age (s.lanes.n).toInt r.terms s.draws
    exec (.voice i) s = .next { s with
      draws := sum.draws
      status := if sum.dom then s.status ||| 16#32 else s.status
      rsp := some
        ⟨v, 0#32,
          if r.gate = 0#32 then s.cfg.ops.le amp (NumR.lit 0)
          else s.cfg.ops.lt (NumR.lit 0) r.maxLife && s.cfg.ops.le r.maxLife age,
          if sum.dom then .domain else .ok⟩ } ∧
    (s.cfg.num = .real → ∀ ρ : Valuation, v.toReal ρ = amp.toReal ρ * sum.val.toReal ρ * r.vol.toReal ρ)

/-- R142: a recipe is the weighted sum of its enabled terms, each at the pitch `Scale(id + SEMI)`; a NOISE term takes one draw and no
other term takes one; DOMAIN is recorded exactly where an enabled SAWD term is at its singular point (R105). (Kind codes 6 and 7,
which TCTL refuses to store, are excluded by the premise: log entry 7.) -/
def Obligations.RecipeIsTheWeightedSum : Prop :=
  ∀ (c : Cfg) (basef t : Val) (id : Int) (terms : List TermRegs) (draws : Nat),
    (∀ m ∈ terms, tctlKind m.tctl ≤ 5) →
    let pitch := fun m : TermRegs => scale c basef (id + m.semi.toInt)
    ∃ at_ : Nat → Nat,
      at_ 0 = draws ∧
      (∀ k < terms.length, at_ (k + 1) = at_ k + (if ((terms.getD k TermRegs.reset).isNoise) then 1 else 0)) ∧
      (recipeSum c basef t id terms draws).draws = at_ terms.length ∧
      ((recipeSum c basef t id terms draws).dom = true ↔
        ∃ m ∈ terms, tctlEn m.tctl = true ∧ kindOfCode (tctlKind m.tctl) = some .sawd ∧ sawdSingular c t (pitch m) = true) ∧
      (c.num = .real → ∀ m ∈ terms, (sawdSingular c t (pitch m) = true ↔
        t.real = 0 ∨ basef.real * (2 : ℝ) ^ (((id + m.semi.toInt : Int) : ℝ) / 12) = 0)) ∧
      (c.num = .real → ∀ ρ : Valuation, (recipeSum c basef t id terms draws).val.toReal ρ =
        ∑ k ∈ Finset.range terms.length,
          (let m := terms.getD k TermRegs.reset
           if tctlEn m.tctl then
             match kindOfCode (tctlKind m.tctl) with
             | some kind => m.weight.toReal ρ *
                 (generate c (at_ k) t (pitch m) kind m.lfoHz m.lfoAmp m.sawp.toInt).val.toReal ρ
             | none => 0
           else 0))

/-! ## The note pool -/

/-- R151: ADDNOTE fills the least free slot, answers with its index, and changes no other register but NVALID's count. -/
def Obligations.AddnoteTakesTheLeastFreeSlot : Prop :=
  ∀ (i x : Nat) (s : State), i < s.cfg.ninstr ∨ i = 0xFF → x < s.slots.length → (s.slot x).valid = false →
    (∀ y < x, (s.slot y).valid = true) → ∃ t,
    exec (.addnote i) s = .next t ∧
    t = { s with
      slots := s.slots.set x
        { sflags := 3#32, nid := s.lanes.n, ont := s.lanes.d1, offt := s.lanes.d2, sinstr := BitVec.ofNat 32 i }
      rsp := some ⟨NumR.lit 0, BitVec.ofNat 32 x, false, .ok⟩ } ∧
    t.nvalid = s.nvalid + 1

/-- R152: NOTEOFF on a valid slot writes OFFT of that slot and nothing else. -/
def Obligations.NoteoffMovesTheReleasePoint : Prop :=
  ∀ (x : Nat) (s : State), x < s.cfg.nslots → (s.slot x).valid = true →
    exec (.noteoff x) s = .next { s with
      slots := s.slots.set x { s.slot x with offt := s.lanes.d0 }
      rsp := some ⟨NumR.lit 0, 0#32, false, .ok⟩ }

/-- R151, R152, R193: ADDNOTE on a full pool is POOLFULL, and on a bad index BADARG, full pool or not; NOTEOFF beyond the pool is
BADARG, and on a free slot BADREF. -/
def Obligations.PoolErrors : Prop :=
  ∀ (x : Nat) (s : State),
    (s.cfg.ninstr ≤ x → x ≠ 0xFF → exec (.addnote x) s = .next (s.raise .badArg)) ∧
    (x < s.cfg.ninstr ∨ x = 0xFF → (∀ r ∈ s.slots, r.valid = true) →
      exec (.addnote x) s = .next (s.raise .poolFull)) ∧
    (s.cfg.nslots ≤ x → exec (.noteoff x) s = .next (s.raise .badArg)) ∧
    (x < s.cfg.nslots → (s.slot x).valid = false → exec (.noteoff x) s = .next (s.raise .badRef))

/-- R140, R141, R153, R154, R155: RENDER: the sum over the sounding slots, in ascending order, of what their instruments return goes to
ACC and `Q`; a slot whose note is finished is freed and cleared, and every other slot is as before. A slot sounds where it is valid
and active and its instrument reference is not null. `at_ x` is the draw count when slot `x` is met; `amp`, `sum` and `fin` are the
envelope, the recipe and the completion of the note in slot `x`. (The slots are settled, R31; a slot that is not is pruned by R153
although nothing marked it in this pass.) -/
def Obligations.RenderMixesAndPrunes : Prop :=
  ∀ s : State, (∀ r ∈ s.slots, r.settled = true) → ∃ (at_ : Nat → Nat) (q : Val) (t : State),
    let on := fun x => (s.slot x).valid && (s.slot x).active && (s.slot x).sinstr != 0xFF#32
    let i := fun x => s.instr (s.slot x).sinstr.toNat
    let age := fun x => s.cfg.ops.sub s.lanes.d0 (s.slot x).ont
    let amp := fun x => env s.cfg (i x) s.lanes.d0 (s.slot x).ont (s.slot x).offt
    let sum := fun x => recipeSum s.cfg s.basef (age x) (s.slot x).nid.toInt (i x).terms (at_ x)
    let fin := fun x =>
      if (i x).gate = 0#32 then s.cfg.ops.le (amp x) (NumR.lit 0)
      else s.cfg.ops.lt (NumR.lit 0) (i x).maxLife && s.cfg.ops.le (i x).maxLife (age x)
    at_ 0 = s.draws ∧
    (∀ x < s.slots.length, at_ (x + 1) = if on x then (sum x).draws else at_ x) ∧
    exec .render s = .next t ∧
    t = { s with
      slots := t.slots
      acc := q
      draws := at_ s.slots.length
      status := if ∃ x < s.slots.length, on x = true ∧ (sum x).dom = true then s.status ||| 16#32 else s.status
      rsp := some
        ⟨q, 0#32, false, if ∃ x < s.slots.length, on x = true ∧ (sum x).dom = true then .domain else .ok⟩ } ∧
    t.slots.length = s.slots.length ∧
    (∀ x < s.slots.length, t.slot x = if on x = true ∧ fin x = true then SlotRegs.free else s.slot x) ∧
    (s.cfg.num = .real → ∀ ρ : Valuation, q.toReal ρ =
      ∑ x ∈ Finset.range s.slots.length,
        (if on x then (amp x).toReal ρ * (sum x).val.toReal ρ * (i x).vol.toReal ρ else 0))

/-- R153 (3): RENDER of an empty pool gives `Q = 0`, and changes no register but ACC. -/
def Obligations.RenderOfAnEmptyPoolIsZero : Prop :=
  ∀ s : State, (∀ r ∈ s.slots, r = SlotRegs.free) →
    exec .render s = .next { s with
      acc := NumR.lit 0, rsp := some ⟨NumR.lit 0, 0#32, false, .ok⟩ }

/-- R157: if the first RENDER frees no slot and no enabled term of a rendered note has kind NOISE, a second RENDER at the same time
directly after returns the same `Q` and leaves the same state. -/
def Obligations.RenderIsIdempotent : Prop :=
  ∀ s t : State, exec .render s = .next t → t.slots = s.slots → s.noiseFree → exec .render t = .next t

/-- R155: a note with the null instrument reference is never removed: no command frees its slot. -/
def Obligations.NullNotesAreNeverRemoved : Prop :=
  ∀ (i : Instr) (s t : State) (x : Nat), exec i s = .next t → x < s.slots.length →
    (s.slot x).sflags = 3#32 → (s.slot x).sinstr = 0xFF#32 →
    (t.slot x).sflags = 3#32 ∧ (t.slot x).sinstr = 0xFF#32

/-! ## Register access -/

/-- R166: RD of a mapped address: a V-typed register on `Q`, an I-typed one on `R`; no register changes. -/
def Obligations.RdReadsOneRegister : Prop :=
  ∀ (a : Nat) (s : State) (r : RegName), regAt s.cfg a = some r →
    exec (.rd a) s = .next { s with
      rsp := some (match s.read r with
        | .v x => ⟨x, 0#32, false, .ok⟩
        | .i n => ⟨NumR.lit 0, n, false, .ok⟩) }

/-- R25 to R30, R166, R167: an unmapped address is BADARG for RD and WR; so is a WR of a read-only register (ACC, CAP, NVALID, every
filter register, every slot register) or of an illegal value. -/
def Obligations.RegisterAccessErrors : Prop :=
  ∀ (a : Nat) (s : State),
    (regAt s.cfg a = none → exec (.rd a) s = .next (s.raise .badArg) ∧ exec (.wr a) s = .next (s.raise .badArg)) ∧
    (∀ r, regAt s.cfg a = some r →
      r = .acc ∨ r = .cap ∨ r = .nvalid ∨ (∃ f k, r = .filt f k) ∨ (∃ x k, r = .slot x k) ∨
        r.legal s.cfg s.lanes.n s.lanes.d0 = false →
      exec (.wr a) s = .next (s.raise .badArg))

/-- R25 to R28, R167: WR of a legal value to a read-write register (BASEF, every instrument register, every term register): it then
reads as the operand lane of its type, and every other register reads as before. -/
def Obligations.WrWritesOneRegister : Prop :=
  ∀ (a : Nat) (s : State) (r : RegName), s.wf = true → regAt s.cfg a = some r →
    r = .basef ∨ (∃ i f, r = .instr i f) ∨ (∃ i k f, r = .term i k f) → r.legal s.cfg s.lanes.n s.lanes.d0 = true → ∃ t,
    exec (.wr a) s = .next t ∧
    t.rsp = some ⟨NumR.lit 0, 0#32, false, .ok⟩ ∧
    t.readAddr a = some (match r.type with
      | .v => .v s.lanes.d0
      | .i => .i s.lanes.n) ∧
    (∀ b, b ≠ a → t.readAddr b = s.readAddr b) ∧
    t.lanes = s.lanes ∧ t.inbox = s.inbox ∧ t.draws = s.draws

/-- R23, R167: WR to STATUS clears the flags whose bits are 1 in `N`, ignores bits 31:5 of `N`, never errs, and changes nothing
else. -/
def Obligations.WrStatusClearsFlags : Prop :=
  ∀ s : State, exec (.wr 0x0000) s = .next { s with
    status := s.status &&& ~~~(s.lanes.n &&& 0x1F#32)
    rsp := some ⟨NumR.lit 0, 0#32, false, .ok⟩ }

/-- R168: the legal values that WR checks. -/
def Obligations.LegalValuesAreThoseOfR168 : Prop :=
  ∀ (i k : Nat) (c : Cfg) (n : I32) (v : Val),
    ((RegName.instr i .gate).legal c n v = true ↔ n = 0#32 ∨ n = 1#32) ∧
    ((RegName.instr i .att).legal c n v = c.ops.le (NumR.lit 0) v) ∧
    ((RegName.instr i .dec).legal c n v = c.ops.le (NumR.lit 0) v) ∧
    ((RegName.instr i .rel).legal c n v = c.ops.le (NumR.lit 0) v) ∧
    (c.num = .real → (c.ops.le (NumR.lit 0) v = true ↔ 0 ≤ v.real)) ∧
    ((RegName.term i k .tctl).legal c n v = true ↔ n.toNat / 16 = 0 ∧ n.toNat % 8 ≤ 5) ∧
    ((RegName.term i k .semi).legal c n v = true ↔ -128 ≤ n.toInt ∧ n.toInt ≤ 127) ∧
    ((RegName.term i k .sawp).legal c n v = true ↔ 0 ≤ n.toInt ∧ n.toInt ≤ 65535) ∧
    (∀ r : RegName, r ∉ [.instr i .gate, .instr i .att, .instr i .dec, .instr i .rel,
        .term i k .tctl, .term i k .semi, .term i k .sawp] →
      r = .basef ∨ r = .instr i .vol ∨ r = .instr i .maxLife ∨ r = .instr i .sus ∨ r = .instr i .start ∨
        r = .term i k .weight ∨ r = .term i k .lfoHz ∨ r = .term i k .lfoAmp →
      r.legal c n v = true)

/-! ## The reference host agent -/

/-- R176, R177: for `NUM_R` and a time that is not negative, `advance` goes round once for each step duration in the clock: the clock
keeps the rest, the step index moves on with wraparound, and the notes are those of the steps crossed, in order, each read at the
step's new index. A loop allowed fewer rounds has not ended. U23, R179: for a negative time, and for a Sequencer whose meter or
tempo is not positive or one of whose patterns is too short, the call is refused. -/
def Obligations.AdvanceCrossesEachStepOnce : Prop :=
  ∀ (w : WaveImpl) (q : Sequencer) (deltaTime : Val),
    (q.ok (numR w) = true → 0 ≤ q.clock.real → 0 ≤ deltaTime.real → ∃ (m : Nat) (t : Sequencer),
      let stepDuration := 60 / q.tempo.real / (q.subBeats : ℝ)
      (m : ℝ) * stepDuration ≤ q.clock.real + deltaTime.real ∧
      q.clock.real + deltaTime.real < ((m : ℝ) + 1) * stepDuration ∧
      (∀ n ≥ m, q.advance (numR w) n deltaTime =
        .done t ((List.range m).map (fun j => q.notesAt ((q.currentStep + 1 + j) % q.totalSteps))).flatten) ∧
      (∀ n < m, q.advance (numR w) n deltaTime = .unfinished) ∧
      t.clock.real = q.clock.real + deltaTime.real - m * stepDuration ∧
      t = { q with clock := t.clock, currentStep := (q.currentStep + m) % q.totalSteps }) ∧
    (∀ n : Nat, deltaTime.real < 0 ∨ q.tempo.real ≤ 0 ∨ q.subBeats = 0 ∨ q.beats = 0 ∨
        (∃ c ∈ q.channels, c.pattern.length < q.totalSteps) →
      q.advance (numR w) n deltaTime = .refused)

/-- R180: for `NUM_R`, `totalSteps` calls of `advance(stepDuration)` bring the Sequencer back to the step and the clock it started from;
and with triggers at the steps 0, 4, 8, 12 of 16 at tempo 120, from step 0 and clock 0, exactly every fourth call of
`advance(0.125)` triggers, once. `run k` is the Sequencer after `k` calls. -/
def Obligations.TheSequencerCycleCloses : Prop :=
  (∀ (w : WaveImpl) (q : Sequencer), q.ok (numR w) = true → 0 ≤ q.clock.real →
    q.clock.real < 60 / q.tempo.real / (q.subBeats : ℝ) → ∃ run : Nat → Sequencer,
    run 0 = q ∧
    (∀ k, ∃ m notes, ∀ n ≥ m, (run k).advance (numR w) n (q.stepDuration (numR w)) = .done (run (k + 1)) notes) ∧
    (run q.totalSteps).clock.real = q.clock.real ∧
    run q.totalSteps = { q with clock := (run q.totalSteps).clock }) ∧
  (∀ (w : WaveImpl) (q : Sequencer) (c : SeqChannel), q.ok (numR w) = true → q.beats = 4 → q.subBeats = 4 →
    q.tempo.real = 120 → q.clock.real = 0 → q.currentStep = 0 → q.channels = [c] →
    (∀ i < 16, c.pattern[i]? = some q.trig ↔ i ∈ [0, 4, 8, 12]) →
    ∀ deltaTime : Val, deltaTime.real = 1 / 8 → ∃ run : Nat → Sequencer,
    run 0 = q ∧
    ∀ k, ∃ m notes, (∀ n ≥ m, (run k).advance (numR w) n deltaTime = .done (run (k + 1)) notes) ∧
      notes.length = if (k + 1) % 4 = 0 then 1 else 0)
end

