-- ==== Sys2Proof/Laws/AddressMap.lean ====
section
/-! SUPPORT. The fields of the address map (R65): an offset names a field exactly where the field has that offset. -/

namespace Sys2Proof.Machine

theorem instrFieldAt_iff (o : Nat) (f : InstrField) : instrFieldAt o = some f ↔ f.offset = o := by
  constructor
  · intro h
    unfold instrFieldAt at h
    split at h <;> simp at h <;> subst h <;> rfl
  · rintro rfl; cases f <;> rfl

theorem termFieldAt_iff (o : Nat) (f : TermField) : termFieldAt o = some f ↔ f.offset = o := by
  constructor
  · intro h
    unfold termFieldAt at h
    split at h <;> simp at h <;> subst h <;> rfl
  · rintro rfl; cases f <;> rfl

theorem filterFieldAt_iff (o : Nat) (f : FilterField) : filterFieldAt o = some f ↔ f.offset = o := by
  constructor
  · intro h
    unfold filterFieldAt at h
    split at h <;> simp at h <;> subst h <;> rfl
  · rintro rfl; cases f <;> rfl

theorem slotFieldAt_iff (o : Nat) (f : SlotField) : slotFieldAt o = some f ↔ f.offset = o := by
  constructor
  · intro h
    unfold slotFieldAt at h
    split at h <;> simp at h <;> subst h <;> rfl
  · rintro rfl; cases f <;> rfl

theorem InstrField.offset_lt (f : InstrField) : f.offset < 8 := by cases f <;> simp [InstrField.offset]

theorem TermField.offset_lt (f : TermField) : f.offset < 6 := by cases f <;> simp [TermField.offset]

theorem FilterField.offset_lt (f : FilterField) : f.offset < 4 := by cases f <;> simp [FilterField.offset]

theorem SlotField.offset_lt (f : SlotField) : f.offset < 5 := by cases f <;> simp [SlotField.offset]

theorem globalAt_addr {a : Nat} {r : RegName} (h : globalAt a = some r) : r.addr = a := by
  unfold globalAt at h
  split at h <;> simp at h <;> subst h <;> rfl

theorem regAt_status {c : Cfg} {a : Nat} (h : regAt c a = some .status) : a = 0 := by
  unfold regAt at h
  split at h
  · unfold globalAt at h
    split at h <;> simp_all
  split at h
  · split at h
    · simp [instrRegAt] at h
      split at h
      · simp at h
      · simp at h
    · simp at h
  split at h
  · split at h <;> simp at h
  · split at h <;> simp at h

end Sys2Proof.Machine
end

