-- ==== Sys2Proof/Laws/Assembler.lean ====
section
/-! SUPPORT. The word of a command line (R89, R90) is the word of the command it names,
and a note the caller submits is an ADDNOTE (R178). -/

namespace Sys2Proof.Machine

/-- The number that a line stands for has the three fields of its command. -/
theorem expand_realWord (l : AsmLine) :
    l.expand.realWord = l.instr.opcode * 2 ^ 24 + l.instr.xOf * 2 ^ 16 + l.instr.yOf := by
  cases l with
  | osc k _ _ _ _ p =>
    cases k <;> (simp only [AsmLine.expand, AsmLine.realWord, AsmLine.instr, oscOfKind, Instr.opcode, Instr.xOf, Instr.yOf, kindCode]; omega)
  | rd r => simp only [AsmLine.expand, AsmLine.realWord, AsmLine.instr, Instr.opcode, Instr.xOf, Instr.yOf]; omega
  | _ =>
    simp only [AsmLine.expand, AsmLine.realWord, AsmLine.instr, Instr.opcode, Instr.xOf, Instr.yOf, AsmReg.addr, RegName.addr,
      TermField.offset]; omega

/-- A line assembles to the encoding of its command. -/
theorem assemble_word (l : AsmLine) : l.assemble.word = encode l.instr := by
  rw [AsmLine.assemble, expand_realWord]; rfl

/-- All that submitting a note can do: a reference gives the ADDNOTE of the note, at its pitch and the caller's times; another number
gives no command (log entry 8). -/
theorem submit_eq_some_iff (n : SeqNote) (onTime offTime : Val) (k : Command) :
    n.submit onTime offTime = some k ↔ n.instrument ≤ 0xFF ∧
      k = ⟨encode (.addnote n.instrument), { Lanes.zero with n := n.id, d1 := onTime, d2 := offTime }⟩ := by
  have hw : (n.line onTime offTime).assemble =
      ⟨encode (.addnote n.instrument), { Lanes.zero with n := n.id, d1 := onTime, d2 := offTime }⟩ :=
    congrArg (Command.mk · _) (assemble_word _)
  rw [SeqNote.submit, hw]
  simp only [SeqNote.line, AsmLine.instr, asmIndex, Option.getD_some, Instr.wellFormed, fitsX, decide_eq_true_eq,
    Option.ite_none_right_eq_some, Option.some.injEq]
  constructor <;> rintro ⟨h, rfl⟩ <;> exact ⟨by omega, rfl⟩

end Sys2Proof.Machine
end

