-- ==== Sys2Proof/Laws/Decode.lean ====
section
/-! SUPPORT. The fields of a command word (R81), and the word put together from them. -/

namespace Sys2Proof

theorem opField_lt (w : CmdWord) : opField w < 256 := (w.extractLsb' 24 8).isLt
theorem xField_lt (w : CmdWord) : xField w < 256 := (w.extractLsb' 16 8).isLt
theorem yField_lt (w : CmdWord) : yField w < 65536 := (w.extractLsb' 0 16).isLt

theorem opField_eq (w : CmdWord) : opField w = w.toNat / 2 ^ 24 % 256 := by
  simp [opField, BitVec.extractLsb'_toNat, Nat.shiftRight_eq_div_pow]
theorem xField_eq (w : CmdWord) : xField w = w.toNat / 2 ^ 16 % 256 := by
  simp [xField, BitVec.extractLsb'_toNat, Nat.shiftRight_eq_div_pow]
theorem yField_eq (w : CmdWord) : yField w = w.toNat % 65536 := by
  simp [yField, BitVec.extractLsb'_toNat]

theorem packWord_toNat {op x y : Nat} (ho : op < 256) (hx : x < 256) (hy : y < 65536) :
    (packWord op x y).toNat = op * 2 ^ 24 + x * 2 ^ 16 + y := by
  rw [packWord, BitVec.toNat_ofNat, Nat.mod_eq_of_lt (by omega)]

theorem opField_packWord {op x y : Nat} (ho : op < 256) (hx : x < 256) (hy : y < 65536) :
    opField (packWord op x y) = op := by
  rw [opField_eq, packWord_toNat ho hx hy]; omega

theorem xField_packWord {op x y : Nat} (ho : op < 256) (hx : x < 256) (hy : y < 65536) :
    xField (packWord op x y) = x := by
  rw [xField_eq, packWord_toNat ho hx hy]; omega

theorem yField_packWord {op x y : Nat} (ho : op < 256) (hx : x < 256) (hy : y < 65536) :
    yField (packWord op x y) = y := by
  rw [yField_eq, packWord_toNat ho hx hy]; omega

/-- R81: a word is its three fields. -/
theorem packWord_fields (w : CmdWord) : packWord (opField w) (xField w) (yField w) = w := by
  apply BitVec.eq_of_toNat_eq
  rw [packWord_toNat (opField_lt w) (xField_lt w) (yField_lt w), opField_eq, xField_eq, yField_eq]
  omega

/-- A mask that keeps whole fields keeps the fields. -/
theorem fields_and_mask (w : CmdWord) (mo mx : BitVec 8) (my : BitVec 16) (mask : CmdWord)
    (hm : mask = (mo ++ mx) ++ my) :
    opField (w &&& mask) = opField w &&& mo.toNat ∧ xField (w &&& mask) = xField w &&& mx.toNat ∧
    yField (w &&& mask) = yField w &&& my.toNat := by
  subst hm
  simp only [opField, xField, yField, ← BitVec.toNat_and, BitVec.toNat_inj]
  refine ⟨?_, ?_, ?_⟩ <;> (apply BitVec.eq_of_getLsbD_eq; intro i hi; simp; grind)

/-- R81: a word is its three fields. -/
theorem eq_iff_fields (v w : CmdWord) : v = w ↔ opField v = opField w ∧ xField v = xField w ∧ yField v = yField w := by
  constructor
  · rintro rfl; exact ⟨rfl, rfl, rfl⟩
  · rintro ⟨h1, h2, h3⟩; rw [← packWord_fields v, h1, h2, h3, packWord_fields]

/-- R82: a row of format Z tests all three fields. -/
theorem selectsZ (w m : CmdWord) :
    (w &&& 0xFFFFFFFF#32 == m) = decide (opField w = opField m ∧ xField w = xField m ∧ yField w = yField m) := by
  rw [show (0xFFFFFFFF#32) = BitVec.allOnes 32 from rfl, BitVec.and_allOnes, Bool.eq_iff_iff, beq_iff_eq,
    decide_eq_true_eq, eq_iff_fields]

/-- R82: a row of format O or A tests `op` and `x`. -/
theorem selectsOA (w m : CmdWord) (hm : yField m = 0) :
    (w &&& 0xFFFF0000#32 == m) = decide (opField w = opField m ∧ xField w = xField m) := by
  obtain ⟨h1, h2, h3⟩ := fields_and_mask w 0xFF#8 0xFF#8 0#16 0xFFFF0000#32 rfl
  rw [Bool.eq_iff_iff, beq_iff_eq, decide_eq_true_eq, eq_iff_fields, h1, h2, h3, hm]
  have := Nat.and_two_pow_sub_one_eq_mod (opField w) 8
  have := Nat.and_two_pow_sub_one_eq_mod (xField w) 8
  have := opField_lt w
  have := xField_lt w
  simp_all [Nat.mod_eq_of_lt]

/-- R82: a row of format U tests `op` and `y`. -/
theorem selectsU (w m : CmdWord) (hm : xField m = 0) :
    (w &&& 0xFF00FFFF#32 == m) = decide (opField w = opField m ∧ yField w = yField m) := by
  obtain ⟨h1, h2, h3⟩ := fields_and_mask w 0xFF#8 0#8 0xFFFF#16 0xFF00FFFF#32 rfl
  rw [Bool.eq_iff_iff, beq_iff_eq, decide_eq_true_eq, eq_iff_fields, h1, h2, h3, hm]
  have := Nat.and_two_pow_sub_one_eq_mod (opField w) 8
  have := Nat.and_two_pow_sub_one_eq_mod (yField w) 16
  have := opField_lt w
  have := yField_lt w
  simp_all [Nat.mod_eq_of_lt]

theorem opcode_lt (i : Instr) : i.opcode < 256 := by cases i <;> simp [Instr.opcode]

end Sys2Proof
end

