-- ==== Sys2Proof/Laws/Enclose.lean ====
section
/-! SUPPORT. The enclosures of Machine/Numerics.lean hold the reals they are for. -/

namespace Sys2Proof.Machine

/-- The real `x` lies in the interval. -/
def Ival.Has (a : Ival) (x : ℝ) : Prop := (a.lo : ℝ) ≤ x ∧ x ≤ (a.hi : ℝ)

theorem Ival.has_point (q : Rat) : (Ival.point q).Has (q : ℝ) := ⟨le_refl _, le_refl _⟩

theorem Ival.Has.add {a b : Ival} {x y : ℝ} (h : a.Has x) (k : b.Has y) : (a.add b).Has (x + y) := by
  obtain ⟨h1, h2⟩ := h; obtain ⟨k1, k2⟩ := k
  constructor <;> simp only [Ival.add] <;> push_cast <;> linarith

theorem Ival.Has.sub {a b : Ival} {x y : ℝ} (h : a.Has x) (k : b.Has y) : (a.sub b).Has (x - y) := by
  obtain ⟨h1, h2⟩ := h; obtain ⟨k1, k2⟩ := k
  constructor <;> simp only [Ival.sub] <;> push_cast <;> linarith

theorem mul_mem_ends {a b x : ℝ} (y : ℝ) (h1 : a ≤ x) (h2 : x ≤ b) :
    min (a * y) (b * y) ≤ x * y ∧ x * y ≤ max (a * y) (b * y) := by
  rcases le_total 0 y with hy | hy
  · exact ⟨min_le_of_left_le (mul_le_mul_of_nonneg_right h1 hy), le_max_of_le_right (mul_le_mul_of_nonneg_right h2 hy)⟩
  · exact ⟨min_le_of_right_le (mul_le_mul_of_nonpos_right h2 hy), le_max_of_le_left (mul_le_mul_of_nonpos_right h1 hy)⟩

theorem Ival.Has.mul {a b : Ival} {x y : ℝ} (h : a.Has x) (k : b.Has y) : (a.mul b).Has (x * y) := by
  obtain ⟨h1, h2⟩ := h; obtain ⟨k1, k2⟩ := k
  obtain ⟨e1, e2⟩ := mul_mem_ends y h1 h2
  have hl := mul_mem_ends (a.lo : ℝ) k1 k2
  have hh := mul_mem_ends (a.hi : ℝ) k1 k2
  simp only [mul_comm _ (a.lo : ℝ), mul_comm _ (a.hi : ℝ)] at hl hh
  constructor <;> simp only [Ival.mul] <;> push_cast
  · refine le_trans ?_ e1
    refine le_min ?_ ?_
    · exact le_trans (min_le_min (min_le_left _ _) (min_le_left _ _)) hl.1
    · exact le_trans (min_le_min (min_le_right _ _) (min_le_right _ _)) hh.1
  · refine le_trans e2 ?_
    refine max_le ?_ ?_
    · exact le_trans hl.2 (max_le_max (le_max_left _ _) (le_max_left _ _))
    · exact le_trans hh.2 (max_le_max (le_max_right _ _) (le_max_right _ _))

theorem Ival.Has.inv {a b : Ival} {x : ℝ} (h : a.Has x) (hb : a.inv = some b) : b.Has x⁻¹ := by
  unfold Ival.inv at hb
  split at hb
  · rename_i hc
    cases hb
    obtain ⟨h1, h2⟩ := h
    rcases hc with hc | hc
    · have hc : (0 : ℝ) < a.lo := by exact_mod_cast hc
      constructor <;> push_cast <;> rw [one_div]
      · exact inv_anti₀ (by linarith) h2
      · exact inv_anti₀ hc h1
    · have hc : (a.hi : ℝ) < 0 := by exact_mod_cast hc
      constructor <;> push_cast <;> rw [one_div]
      · exact (inv_le_inv_of_neg hc (by linarith)).2 h2
      · exact (inv_le_inv_of_neg (by linarith) (by linarith)).2 h1
  · cases hb

theorem Ival.Has.pow {a : Ival} {x : ℝ} (h : a.Has x) (n : Nat) : (a.pow n).Has (x ^ n) := by
  induction n with
  | zero => simpa [Ival.pow] using Ival.has_point 1
  | succ n ih => rw [pow_succ]; exact ih.mul h

theorem Ival.has_pi : Ival.pi.Has Real.pi := by
  have h1 := Real.pi_gt_d20
  have h2 := Real.pi_lt_d20
  constructor <;> simp only [Ival.pi, Rat.mkRat_eq_div] <;> push_cast <;> linarith

theorem Ival.Has.zpow {a b : Ival} {x : ℝ} (h : a.Has x) {k : Int} (hb : a.zpow k = some b) : b.Has (x ^ k) := by
  cases k with
  | ofNat n => cases hb; simpa using h.pow n
  | negSucc n => rw [zpow_negSucc]; exact (h.pow (n + 1)).inv hb

/-- The terms of the series of `e^(c i)`. -/
theorem sinSeries_eq (c : Rat) (n m : Nat) (u v s : Rat)
    (h : (u : ℂ) + v * Complex.I = (c * Complex.I) ^ m / (m.factorial : ℂ)) :
    (NumR.sinSeries c m n u v s : ℝ) =
      s + (∑ j ∈ Finset.range n, ((c : ℂ) * Complex.I) ^ (m + j) / ((m + j).factorial : ℂ)).im := by
  induction n generalizing m u v s with
  | zero => simp [NumR.sinSeries]
  | succ n ih =>
    have hm : ((m : ℂ) + 1) ≠ 0 := by exact_mod_cast Nat.succ_ne_zero m
    have h' : ((-(v * c) / (m + 1) : Rat) : ℂ) + ((u * c / (m + 1) : Rat) : ℂ) * Complex.I =
        (c * Complex.I) ^ (m + 1) / ((m + 1).factorial : ℂ) := by
      rw [pow_succ, Nat.factorial_succ]
      push_cast
      rw [mul_comm ((m : ℂ) + 1), mul_div_mul_comm, ← h]
      field_simp
      linear_combination (- (v : ℂ) * c) * Complex.I_sq
    rw [NumR.sinSeries, ih (m + 1) _ _ _ h', Finset.sum_range_succ']
    have : ((u : ℂ) + v * Complex.I).im = v := by simp
    rw [Complex.add_im, add_zero, ← h, this]
    push_cast
    simp only [Nat.add_assoc, Nat.add_comm 1]
    ring

theorem Ival.has_sinAt (c : Rat) : (Ival.sinAt c).Has (Real.sin c) := by
  unfold Ival.sinAt
  split
  · rename_i hc
    have hcr : ((max c (-c) : Rat) : ℝ) = |(c : ℝ)| := by push_cast; rfl
    have hle : |(c : ℝ)| ≤ 24 := by rw [← hcr]; exact_mod_cast hc
    have hnorm : ‖(c : ℂ) * Complex.I‖ = |(c : ℝ)| := by
      rw [norm_mul, Complex.norm_I, mul_one, show (c : ℂ) = ((c : ℝ) : ℂ) by push_cast; rfl, Complex.norm_real]; rfl
    have hb := Complex.exp_bound' (x := (c : ℂ) * Complex.I) (n := 48) (by rw [hnorm]; norm_num; linarith)
    have hs := sinSeries_eq c 48 0 1 0 0 (by simp)
    simp only [Rat.cast_zero, zero_add] at hs
    have him := (Complex.abs_im_le_norm _).trans hb
    rw [Complex.sub_im, ← hs, Complex.exp_mul_I, hnorm] at him
    have hsin : (Complex.cos (c : ℂ) + Complex.sin (c : ℂ) * Complex.I).im = Real.sin c := by
      rw [show (c : ℂ) = ((c : ℝ) : ℂ) by push_cast; rfl, ← Complex.ofReal_cos, ← Complex.ofReal_sin, Complex.add_im,
        Complex.im_ofReal_mul, Complex.ofReal_im]
      simp
    rw [hsin, abs_le] at him
    constructor <;> simp only <;> push_cast <;> push_cast at hcr <;> rw [hcr] <;> linarith [him.1, him.2]
  · exact ⟨by simpa using Real.neg_one_le_sin _, by simpa using Real.sin_le_one _⟩

theorem Ival.Has.sin {a : Ival} {x : ℝ} (h : a.Has x) : a.sin.Has (Real.sin x) := by
  unfold Ival.sin
  generalize hj : ((a.lo + a.hi) / 2 / (2 * Ival.pi.lo) + mkRat 1 2).floor = j
  have hy : a.turn.Has (x - (2 * j : ℝ) * Real.pi) := by
    have := h.sub ((Ival.has_point (2 * (j : Rat))).mul Ival.has_pi)
    unfold Ival.turn
    rw [hj]
    simpa using this
  have hx : Real.sin x = Real.sin (x - (2 * j : ℝ) * Real.pi) := by
    rw [show x - (2 * j : ℝ) * Real.pi = x - j * (2 * Real.pi) by ring, Real.sin_sub_int_mul_two_pi]
  rw [hx]
  generalize x - (2 * j : ℝ) * Real.pi = y at *
  generalize NumR.grid ((a.turn.lo + a.turn.hi) / 2) = c
  have hs := Real.abs_sin_sub_sin_le y c
  have hc := Ival.has_sinAt c
  obtain ⟨h1, h2⟩ := hy
  have hr : |y - c| ≤ ((max (a.turn.hi - c) (c - a.turn.lo) : Rat) : ℝ) := by
    rw [abs_le]
    push_cast
    constructor
    · have := le_max_right ((a.turn.hi : ℝ) - c) (c - a.turn.lo); linarith
    · have := le_max_left ((a.turn.hi : ℝ) - c) (c - a.turn.lo); linarith
  have := abs_le.1 (hs.trans hr)
  obtain ⟨c1, c2⟩ := hc
  constructor
  · simp only [Rat.cast_sub]; linarith [this.1]
  · simp only [Rat.cast_add]; linarith [this.2]

theorem Ival.has_semitone : Ival.semitone.Has ((2 : ℝ) ^ ((1 : ℝ) / 12)) := by
  have hp : (0 : ℝ) ≤ (2 : ℝ) ^ ((1 : ℝ) / 12) := by positivity
  have hs : ((2 : ℝ) ^ ((1 : ℝ) / 12)) ^ 12 = 2 := by
    rw [← Real.rpow_natCast, ← Real.rpow_mul (by norm_num)]; norm_num
  constructor
  · refine le_of_pow_le_pow_left₀ (n := 12) (by norm_num) hp ?_
    rw [hs, Ival.semitone, Rat.mkRat_eq_div]; push_cast; norm_num
  · refine le_of_pow_le_pow_left₀ (n := 12) (by norm_num) ?_ ?_
    · rw [Ival.semitone, Rat.mkRat_eq_div]; push_cast; positivity
    · rw [hs, Ival.semitone, Rat.mkRat_eq_div]; push_cast; norm_num

theorem semiReal_split (n : Int) :
    semiReal n = ((2 : ℝ) ^ ((1 : ℝ) / 12)) ^ (n % 12).toNat * (2 : ℝ) ^ (n / 12) := by
  have h : ((n % 12).toNat : ℝ) = ((n % 12 : Int) : ℝ) := by
    exact_mod_cast congrArg (Int.cast (R := ℝ)) (Int.toNat_of_nonneg (Int.emod_nonneg n (by norm_num)))
  rw [semiReal, ← Real.rpow_natCast, ← Real.rpow_mul (by norm_num), ← Real.rpow_intCast, ← Real.rpow_add two_pos, h]
  congr 1
  have : ((n % 12 : Int) : ℝ) + 12 * ((n / 12 : Int) : ℝ) = (n : ℝ) := by exact_mod_cast Int.emod_add_mul_ediv n 12
  linarith

theorem Ival.has_semi {n : Int} {a : Ival} (h : Ival.semi n = some a) : a.Has (semiReal n) := by
  unfold Ival.semi at h
  split at h
  · obtain ⟨b, hb, rfl⟩ := Option.map_eq_some_iff.mp h
    rw [semiReal_split]
    refine (Ival.has_semitone.pow _).mul (Ival.Has.zpow ?_ hb)
    simpa using Ival.has_point 2
  · cases h

theorem Ival.Has.exp {a b : Ival} {x : ℝ} (h : a.Has x) (hb : a.exp = some b) : b.Has (Real.exp x) := by
  unfold Ival.exp at hb
  split_ifs at hb with hc
  cases hb
  obtain ⟨h1, h2⟩ := h
  have hu : (a.hi : ℝ) < 64 := by exact_mod_cast hc.2
  rw [show Real.exp x = Real.exp (x / 64) ^ 64 by rw [← Real.exp_nat_mul]; congr 1; push_cast; ring]
  refine Ival.Has.pow ⟨?_, ?_⟩ 64
  · push_cast; linarith [Real.add_one_le_exp (x / 64)]
  · have hp : 0 < 1 - (a.hi : ℝ) / 64 := by linarith
    have he := Real.add_one_le_exp (-(x / 64))
    push_cast
    have hm : Real.exp (x / 64) * Real.exp (-(x / 64)) = 1 := by rw [← Real.exp_add]; simp
    rw [le_div_iff₀ hp]
    nlinarith [Real.exp_pos (x / 64)]

theorem Ival.Has.ln {a b : Ival} {x : ℝ} (h : a.Has x) (hb : a.ln = some b) : b.Has (Real.log x) := by
  unfold Ival.ln at hb
  split_ifs at hb with hc
  cases hb
  obtain ⟨h1, h2⟩ := h
  have hl : (0 : ℝ) < a.lo := by exact_mod_cast hc
  have hx : 0 < x := lt_of_lt_of_le hl h1
  constructor <;> push_cast
  · rw [one_div]; linarith [Real.one_sub_inv_le_log_of_pos hx, inv_anti₀ hl h1]
  · linarith [Real.log_le_sub_one_of_pos hx]

/-- R106: a draw lies in `[-1, 1]`. -/
theorem draw_mem (ρ : Valuation) (n : Nat) : -1 ≤ ρ.draw n ∧ ρ.draw n ≤ 1 :=
  ⟨le_max_left _ _, max_le (by norm_num) (min_le_left _ _)⟩

/-- The enclosure of a term holds the real it stands for. -/
theorem has_enclose (ρ : Valuation) (a : Val) {x : Ival} (h : NumR.enclose a = some x) : x.Has (a.toReal ρ) := by
  induction a generalizing x with
  | mono q k =>
    obtain ⟨y, hy, rfl⟩ := Option.map_eq_some_iff.mp h
    exact (Ival.has_point q).mul (Ival.has_pi.zpow hy)
  | draw n => cases h; simpa [Ival.Has, Val.toReal] using draw_mem ρ n
  | sumOf a b iha ihb =>
    obtain ⟨y, hy, h⟩ := Option.bind_eq_some_iff.mp h
    obtain ⟨z, hz, rfl⟩ := Option.map_eq_some_iff.mp h
    exact (iha hy).add (ihb hz)
  | diffOf a b iha ihb =>
    obtain ⟨y, hy, h⟩ := Option.bind_eq_some_iff.mp h
    obtain ⟨z, hz, rfl⟩ := Option.map_eq_some_iff.mp h
    exact (iha hy).sub (ihb hz)
  | prodOf a b iha ihb =>
    obtain ⟨y, hy, h⟩ := Option.bind_eq_some_iff.mp h
    obtain ⟨z, hz, rfl⟩ := Option.map_eq_some_iff.mp h
    exact (iha hy).mul (ihb hz)
  | quotOf a b iha ihb =>
    obtain ⟨y, hy, h⟩ := Option.bind_eq_some_iff.mp h
    obtain ⟨z, hz, rfl⟩ := Option.map_eq_some_iff.mp h
    obtain ⟨w, hw, hz⟩ := Option.bind_eq_some_iff.mp hz
    exact (iha hy).mul ((ihb hw).inv hz)
  | sineOf a ih =>
    obtain ⟨y, hy, rfl⟩ := Option.map_eq_some_iff.mp h
    exact (ih hy).sin
  | expOf a ih =>
    obtain ⟨y, hy, h⟩ := Option.bind_eq_some_iff.mp h
    exact (ih hy).exp h
  | lnOf a ih =>
    obtain ⟨y, hy, h⟩ := Option.bind_eq_some_iff.mp h
    exact (ih hy).ln h
  | semiOf n => exact Ival.has_semi h
  | _ => cases h

end Sys2Proof.Machine
end

