-- ==== Sys2Proof/Laws/State.lean ====
section
/-! SUPPORT. Each update of the state, field by field. -/

namespace Sys2Proof.Machine

variable (s : State)

@[simp] theorem State.raise_cfg (e : Err) : (s.raise e).cfg = s.cfg := rfl
@[simp] theorem State.raise_status (e : Err) : (s.raise e).status = setFlag s.status e := rfl
@[simp] theorem State.raise_basef (e : Err) : (s.raise e).basef = s.basef := rfl
@[simp] theorem State.raise_acc (e : Err) : (s.raise e).acc = s.acc := rfl
@[simp] theorem State.raise_instrs (e : Err) : (s.raise e).instrs = s.instrs := rfl
@[simp] theorem State.raise_filters (e : Err) : (s.raise e).filters = s.filters := rfl
@[simp] theorem State.raise_slots (e : Err) : (s.raise e).slots = s.slots := rfl
@[simp] theorem State.raise_draws (e : Err) : (s.raise e).draws = s.draws := rfl
@[simp] theorem State.raise_inbox (e : Err) : (s.raise e).inbox = s.inbox := rfl
@[simp] theorem State.raise_lanes (e : Err) : (s.raise e).lanes = s.lanes := rfl
@[simp] theorem State.raise_rsp (e : Err) : (s.raise e).rsp = some ⟨zeroVal, 0#32, false, e⟩ := rfl

@[simp] theorem State.reply_cfg (dom : Bool) (q : Val) (r : I32) (fin : Bool) : (s.reply dom q r fin).cfg = s.cfg := rfl
@[simp] theorem State.reply_status (dom : Bool) (q : Val) (r : I32) (fin : Bool) :
    (s.reply dom q r fin).status = if dom then setFlag s.status .domain else s.status := rfl
@[simp] theorem State.reply_basef (dom : Bool) (q : Val) (r : I32) (fin : Bool) :
    (s.reply dom q r fin).basef = s.basef := rfl
@[simp] theorem State.reply_acc (dom : Bool) (q : Val) (r : I32) (fin : Bool) : (s.reply dom q r fin).acc = s.acc := rfl
@[simp] theorem State.reply_instrs (dom : Bool) (q : Val) (r : I32) (fin : Bool) :
    (s.reply dom q r fin).instrs = s.instrs := rfl
@[simp] theorem State.reply_filters (dom : Bool) (q : Val) (r : I32) (fin : Bool) :
    (s.reply dom q r fin).filters = s.filters := rfl
@[simp] theorem State.reply_slots (dom : Bool) (q : Val) (r : I32) (fin : Bool) :
    (s.reply dom q r fin).slots = s.slots := rfl
@[simp] theorem State.reply_draws (dom : Bool) (q : Val) (r : I32) (fin : Bool) :
    (s.reply dom q r fin).draws = s.draws := rfl
@[simp] theorem State.reply_inbox (dom : Bool) (q : Val) (r : I32) (fin : Bool) :
    (s.reply dom q r fin).inbox = s.inbox := rfl
@[simp] theorem State.reply_lanes (dom : Bool) (q : Val) (r : I32) (fin : Bool) :
    (s.reply dom q r fin).lanes = s.lanes := rfl
@[simp] theorem State.reply_rsp (dom : Bool) (q : Val) (r : I32) (fin : Bool) :
    (s.reply dom q r fin).rsp = some ⟨q, r, fin, if dom then .domain else .ok⟩ := rfl

@[simp] theorem State.done_cfg : (s.done).cfg = s.cfg := rfl
@[simp] theorem State.done_status : (s.done).status = s.status := rfl
@[simp] theorem State.done_basef : (s.done).basef = s.basef := rfl
@[simp] theorem State.done_acc : (s.done).acc = s.acc := rfl
@[simp] theorem State.done_instrs : (s.done).instrs = s.instrs := rfl
@[simp] theorem State.done_filters : (s.done).filters = s.filters := rfl
@[simp] theorem State.done_slots : (s.done).slots = s.slots := rfl
@[simp] theorem State.done_draws : (s.done).draws = s.draws := rfl
@[simp] theorem State.done_inbox : (s.done).inbox = s.inbox := rfl
@[simp] theorem State.done_lanes : (s.done).lanes = s.lanes := rfl
@[simp] theorem State.done_rsp : (s.done).rsp = some ⟨zeroVal, 0#32, false, .ok⟩ := rfl

@[simp] theorem State.accept_cfg (c : Command) (rest : List HostInput) : (s.accept c rest).cfg = s.cfg := rfl
@[simp] theorem State.accept_status (c : Command) (rest : List HostInput) : (s.accept c rest).status = s.status := rfl
@[simp] theorem State.accept_basef (c : Command) (rest : List HostInput) : (s.accept c rest).basef = s.basef := rfl
@[simp] theorem State.accept_acc (c : Command) (rest : List HostInput) : (s.accept c rest).acc = s.acc := rfl
@[simp] theorem State.accept_instrs (c : Command) (rest : List HostInput) : (s.accept c rest).instrs = s.instrs := rfl
@[simp] theorem State.accept_filters (c : Command) (rest : List HostInput) : (s.accept c rest).filters = s.filters := rfl
@[simp] theorem State.accept_slots (c : Command) (rest : List HostInput) : (s.accept c rest).slots = s.slots := rfl
@[simp] theorem State.accept_draws (c : Command) (rest : List HostInput) : (s.accept c rest).draws = s.draws := rfl
@[simp] theorem State.accept_inbox (c : Command) (rest : List HostInput) : (s.accept c rest).inbox = rest := rfl
@[simp] theorem State.accept_lanes (c : Command) (rest : List HostInput) : (s.accept c rest).lanes = c.lanes := rfl
@[simp] theorem State.accept_rsp (c : Command) (rest : List HostInput) : (s.accept c rest).rsp = none := rfl

@[simp] theorem State.idle_cfg : (s.idle).cfg = s.cfg := rfl
@[simp] theorem State.idle_status : (s.idle).status = s.status := rfl
@[simp] theorem State.idle_basef : (s.idle).basef = s.basef := rfl
@[simp] theorem State.idle_acc : (s.idle).acc = s.acc := rfl
@[simp] theorem State.idle_instrs : (s.idle).instrs = s.instrs := rfl
@[simp] theorem State.idle_filters : (s.idle).filters = s.filters := rfl
@[simp] theorem State.idle_slots : (s.idle).slots = s.slots := rfl
@[simp] theorem State.idle_draws : (s.idle).draws = s.draws := rfl
@[simp] theorem State.idle_inbox : (s.idle).inbox = s.inbox := rfl
@[simp] theorem State.idle_lanes : (s.idle).lanes = s.lanes := rfl
@[simp] theorem State.idle_rsp : (s.idle).rsp = none := rfl

@[simp] theorem State.illegalWord_cfg : (s.illegalWord).cfg = s.cfg := rfl
@[simp] theorem State.illegalWord_status : (s.illegalWord).status = setFlag s.status .illegal := rfl
@[simp] theorem State.illegalWord_basef : (s.illegalWord).basef = s.basef := rfl
@[simp] theorem State.illegalWord_acc : (s.illegalWord).acc = s.acc := rfl
@[simp] theorem State.illegalWord_instrs : (s.illegalWord).instrs = s.instrs := rfl
@[simp] theorem State.illegalWord_filters : (s.illegalWord).filters = s.filters := rfl
@[simp] theorem State.illegalWord_slots : (s.illegalWord).slots = s.slots := rfl
@[simp] theorem State.illegalWord_draws : (s.illegalWord).draws = s.draws := rfl
@[simp] theorem State.illegalWord_inbox : (s.illegalWord).inbox = s.inbox := rfl
@[simp] theorem State.illegalWord_lanes : (s.illegalWord).lanes = s.lanes := rfl
@[simp] theorem State.illegalWord_rsp : (s.illegalWord).rsp = some ⟨zeroVal, 0#32, false, .illegal⟩ := rfl

@[simp] theorem State.setInstr_cfg (i : Nat) (r : InstrRegs) : (s.setInstr i r).cfg = s.cfg := rfl
@[simp] theorem State.setInstr_status (i : Nat) (r : InstrRegs) : (s.setInstr i r).status = s.status := rfl
@[simp] theorem State.setInstr_basef (i : Nat) (r : InstrRegs) : (s.setInstr i r).basef = s.basef := rfl
@[simp] theorem State.setInstr_acc (i : Nat) (r : InstrRegs) : (s.setInstr i r).acc = s.acc := rfl
@[simp] theorem State.setInstr_instrs (i : Nat) (r : InstrRegs) : (s.setInstr i r).instrs = s.instrs.set i r := rfl
@[simp] theorem State.setInstr_filters (i : Nat) (r : InstrRegs) : (s.setInstr i r).filters = s.filters := rfl
@[simp] theorem State.setInstr_slots (i : Nat) (r : InstrRegs) : (s.setInstr i r).slots = s.slots := rfl
@[simp] theorem State.setInstr_draws (i : Nat) (r : InstrRegs) : (s.setInstr i r).draws = s.draws := rfl
@[simp] theorem State.setInstr_inbox (i : Nat) (r : InstrRegs) : (s.setInstr i r).inbox = s.inbox := rfl
@[simp] theorem State.setInstr_lanes (i : Nat) (r : InstrRegs) : (s.setInstr i r).lanes = s.lanes := rfl
@[simp] theorem State.setInstr_rsp (i : Nat) (r : InstrRegs) : (s.setInstr i r).rsp = s.rsp := rfl

@[simp] theorem State.setFilt_cfg (f : Nat) (r : FilterRegs) : (s.setFilt f r).cfg = s.cfg := rfl
@[simp] theorem State.setFilt_status (f : Nat) (r : FilterRegs) : (s.setFilt f r).status = s.status := rfl
@[simp] theorem State.setFilt_basef (f : Nat) (r : FilterRegs) : (s.setFilt f r).basef = s.basef := rfl
@[simp] theorem State.setFilt_acc (f : Nat) (r : FilterRegs) : (s.setFilt f r).acc = s.acc := rfl
@[simp] theorem State.setFilt_instrs (f : Nat) (r : FilterRegs) : (s.setFilt f r).instrs = s.instrs := rfl
@[simp] theorem State.setFilt_filters (f : Nat) (r : FilterRegs) : (s.setFilt f r).filters = s.filters.set f r := rfl
@[simp] theorem State.setFilt_slots (f : Nat) (r : FilterRegs) : (s.setFilt f r).slots = s.slots := rfl
@[simp] theorem State.setFilt_draws (f : Nat) (r : FilterRegs) : (s.setFilt f r).draws = s.draws := rfl
@[simp] theorem State.setFilt_inbox (f : Nat) (r : FilterRegs) : (s.setFilt f r).inbox = s.inbox := rfl
@[simp] theorem State.setFilt_lanes (f : Nat) (r : FilterRegs) : (s.setFilt f r).lanes = s.lanes := rfl
@[simp] theorem State.setFilt_rsp (f : Nat) (r : FilterRegs) : (s.setFilt f r).rsp = s.rsp := rfl

@[simp] theorem State.setSlot_cfg (x : Nat) (r : SlotRegs) : (s.setSlot x r).cfg = s.cfg := rfl
@[simp] theorem State.setSlot_status (x : Nat) (r : SlotRegs) : (s.setSlot x r).status = s.status := rfl
@[simp] theorem State.setSlot_basef (x : Nat) (r : SlotRegs) : (s.setSlot x r).basef = s.basef := rfl
@[simp] theorem State.setSlot_acc (x : Nat) (r : SlotRegs) : (s.setSlot x r).acc = s.acc := rfl
@[simp] theorem State.setSlot_instrs (x : Nat) (r : SlotRegs) : (s.setSlot x r).instrs = s.instrs := rfl
@[simp] theorem State.setSlot_filters (x : Nat) (r : SlotRegs) : (s.setSlot x r).filters = s.filters := rfl
@[simp] theorem State.setSlot_slots (x : Nat) (r : SlotRegs) : (s.setSlot x r).slots = s.slots.set x r := rfl
@[simp] theorem State.setSlot_draws (x : Nat) (r : SlotRegs) : (s.setSlot x r).draws = s.draws := rfl
@[simp] theorem State.setSlot_inbox (x : Nat) (r : SlotRegs) : (s.setSlot x r).inbox = s.inbox := rfl
@[simp] theorem State.setSlot_lanes (x : Nat) (r : SlotRegs) : (s.setSlot x r).lanes = s.lanes := rfl
@[simp] theorem State.setSlot_rsp (x : Nat) (r : SlotRegs) : (s.setSlot x r).rsp = s.rsp := rfl

@[simp] theorem State.applyFilter_cfg (f : Nat) (out : Val) : (s.applyFilter f out).cfg = s.cfg := rfl
@[simp] theorem State.applyFilter_status (f : Nat) (out : Val) : (s.applyFilter f out).status = s.status := rfl
@[simp] theorem State.applyFilter_basef (f : Nat) (out : Val) : (s.applyFilter f out).basef = s.basef := rfl
@[simp] theorem State.applyFilter_acc (f : Nat) (out : Val) : (s.applyFilter f out).acc = s.acc := rfl
@[simp] theorem State.applyFilter_instrs (f : Nat) (out : Val) : (s.applyFilter f out).instrs = s.instrs := rfl
@[simp] theorem State.applyFilter_filters (f : Nat) (out : Val) :
    (s.applyFilter f out).filters = s.filters.set f { s.filt f with prev := out } := rfl
@[simp] theorem State.applyFilter_slots (f : Nat) (out : Val) : (s.applyFilter f out).slots = s.slots := rfl
@[simp] theorem State.applyFilter_draws (f : Nat) (out : Val) : (s.applyFilter f out).draws = s.draws := rfl
@[simp] theorem State.applyFilter_inbox (f : Nat) (out : Val) : (s.applyFilter f out).inbox = s.inbox := rfl
@[simp] theorem State.applyFilter_lanes (f : Nat) (out : Val) : (s.applyFilter f out).lanes = s.lanes := rfl
@[simp] theorem State.applyFilter_rsp (f : Nat) (out : Val) : (s.applyFilter f out).rsp = some ⟨out, 0#32, false, .ok⟩ := rfl

@[simp] theorem State.takeReset_cfg (rest : List HostInput) : (s.takeReset rest).cfg = s.cfg := rfl
@[simp] theorem State.takeReset_status (rest : List HostInput) : (s.takeReset rest).status = 0#32 := rfl
@[simp] theorem State.takeReset_basef (rest : List HostInput) : (s.takeReset rest).basef = Config.basefReset := rfl
@[simp] theorem State.takeReset_acc (rest : List HostInput) : (s.takeReset rest).acc = zeroVal := rfl
@[simp] theorem State.takeReset_instrs (rest : List HostInput) :
    (s.takeReset rest).instrs = List.replicate s.cfg.ninstr (InstrRegs.reset s.cfg.nterm) := rfl
@[simp] theorem State.takeReset_filters (rest : List HostInput) :
    (s.takeReset rest).filters = List.replicate s.cfg.nfilt FilterRegs.reset := rfl
@[simp] theorem State.takeReset_slots (rest : List HostInput) :
    (s.takeReset rest).slots = List.replicate s.cfg.nslots SlotRegs.free := rfl
@[simp] theorem State.takeReset_draws (rest : List HostInput) : (s.takeReset rest).draws = s.draws := rfl
@[simp] theorem State.takeReset_inbox (rest : List HostInput) : (s.takeReset rest).inbox = rest := rfl
@[simp] theorem State.takeReset_lanes (rest : List HostInput) : (s.takeReset rest).lanes = Lanes.zero := rfl
@[simp] theorem State.takeReset_rsp (rest : List HostInput) : (s.takeReset rest).rsp = none := rfl

@[simp] theorem State.withFetchWord_cfg (nbits w : Nat) : (s.withFetchWord nbits w).cfg = s.cfg := rfl
@[simp] theorem State.withFetchWord_status (nbits w : Nat) : (s.withFetchWord nbits w).status = s.status := rfl
@[simp] theorem State.withFetchWord_basef (nbits w : Nat) : (s.withFetchWord nbits w).basef = s.basef := rfl
@[simp] theorem State.withFetchWord_acc (nbits w : Nat) : (s.withFetchWord nbits w).acc = s.acc := rfl
@[simp] theorem State.withFetchWord_instrs (nbits w : Nat) : (s.withFetchWord nbits w).instrs = s.instrs := rfl
@[simp] theorem State.withFetchWord_filters (nbits w : Nat) : (s.withFetchWord nbits w).filters = s.filters := rfl
@[simp] theorem State.withFetchWord_slots (nbits w : Nat) : (s.withFetchWord nbits w).slots = s.slots := rfl
@[simp] theorem State.withFetchWord_draws (nbits w : Nat) : (s.withFetchWord nbits w).draws = s.draws := rfl
@[simp] theorem State.withFetchWord_inbox (nbits w : Nat) :
    (s.withFetchWord nbits w).inbox = .command ⟨BitVec.ofNat 32 (w % 2 ^ nbits), s.lanes⟩ :: s.inbox := rfl
@[simp] theorem State.withFetchWord_lanes (nbits w : Nat) : (s.withFetchWord nbits w).lanes = s.lanes := rfl
@[simp] theorem State.withFetchWord_rsp (nbits w : Nat) : (s.withFetchWord nbits w).rsp = s.rsp := rfl

end Sys2Proof.Machine
end

