-- ==== Sys2Proof/Laws/Tables.lean ====
section
/-! SUPPORT. Reading and writing the tables that the state holds as lists. -/

namespace Sys2Proof.Machine

/-! ## Lists as tables -/

theorem getD_set {α} (l : List α) (i j : Nat) (a d : α) :
    (l.set i a).getD j d = if i = j ∧ i < l.length then a else l.getD j d := by
  simp only [List.getD, List.getElem?_set]
  by_cases h : i = j
  · subst h; by_cases h' : i < l.length <;> simp [h']
  · simp [h]

theorem getD_replicate {α} (n i : Nat) (a : α) : (List.replicate n a).getD i a = a := by
  simp [List.getD, List.getElem?_replicate]; split <;> rfl

theorem forall_set {α} {P : α → Prop} {l : List α} (h : ∀ a ∈ l, P a) (x : Nat) (b : α) (hb : x < l.length → P b) :
    ∀ a ∈ l.set x b, P a := by
  intro a ha
  by_cases hx : x < l.length
  · rcases List.mem_or_eq_of_mem_set ha with ha | rfl
    exact h a ha; exact hb hx
  · rw [List.set_eq_of_length_le (by omega)] at ha; exact h a ha

theorem getD_mem {α} {P : α → Prop} {l : List α} {x : Nat} {d : α} (h : ∀ a ∈ l, P a) (hx : x < l.length) : P (l.getD x d) := by
  simp [List.getD, hx]; exact h _ (List.getElem_mem hx)

theorem mem_slot_iff (s : State) (P : SlotRegs → Prop) : (∀ r ∈ s.slots, P r) ↔ ∀ x < s.slots.length, P (s.slot x) := by
  simp only [State.slot, List.getD, List.forall_mem_iff_forall_getElem]
  constructor
  · intro h x hx; simpa [hx] using h x hx
  · intro h x hx; simpa [hx] using h x hx

end Sys2Proof.Machine
end

