-- ==== Sys2Proof/Laws/Exec.lean ====
section
/-! SUPPORT. What each command can do, said once. -/

namespace Sys2Proof.Machine

/-- Every command answers a next state. -/
theorem exec_next (i : Instr) (s : State) : ∃ t, exec i s = .next t := by
  cases i <;> exact ⟨_, rfl⟩

theorem next_inj {a b : State} (h : (Host.Outcome.next a : Out) = .next b) : a = b := by
  cases h; rfl

/-! ## Writing a register -/

theorem write_ports (s : State) (r : RegName) (n : I32) (d : Val) :
    (s.write r n d).rsp = s.rsp ∧ (s.write r n d).cfg = s.cfg ∧ (s.write r n d).inbox = s.inbox ∧
    (s.write r n d).lanes = s.lanes ∧ (s.write r n d).draws = s.draws := by
  cases r <;> simp [State.write]

theorem write_status (s : State) (r : RegName) (n : I32) (d : Val) (h : r ≠ .status) :
    (s.write r n d).status = s.status := by
  cases r <;> simp_all [State.write]

/-- a write leaves every register but the one it names -/
theorem write_read (s : State) (r q : RegName) (n d) (h : q ≠ r) (hn : q ≠ .nvalid) : (s.write r n d).read q = s.read q := by
  cases r with
  | instr i f =>
    cases q with
    | instr j g =>
      simp only [State.write, State.read, State.instr, State.setInstr_instrs, State.setInstr_cfg, getD_set]
      split
      · rename_i hc; obtain ⟨rfl, -⟩ := hc
        cases f <;> cases g <;> first | (exact absurd rfl h) | rfl
      · rfl
    | term j k g =>
      simp only [State.write, State.read, State.instr, State.setInstr_instrs, State.setInstr_cfg, getD_set]
      split
      · rename_i hc; obtain ⟨rfl, -⟩ := hc
        cases f <;> rfl
      · rfl
    | _ => rfl
  | term i l f =>
    cases q with
    | instr j g =>
      simp only [State.write, State.read, State.instr, State.setInstr_instrs, State.setInstr_cfg, getD_set]
      split
      · rename_i hc; obtain ⟨rfl, -⟩ := hc
        cases g <;> rfl
      · rfl
    | term j k g =>
      simp only [State.write, State.read, State.instr, State.setInstr_instrs, State.setInstr_cfg, getD_set]
      split
      · rename_i hc; obtain ⟨rfl, -⟩ := hc
        simp only [InstrRegs.term, getD_set]
        split
        · rename_i hc; obtain ⟨rfl, -⟩ := hc
          cases f <;> cases g <;> first | (exact absurd rfl h) | rfl
        · rfl
      · rfl
    | _ => rfl
  | _ => cases q <;> first | rfl | (exact absurd rfl h)

theorem write_nvalid (s : State) (r : RegName) (n d) : (s.write r n d).read .nvalid = s.read .nvalid := by
  cases r <;> rfl

theorem setFilt_read (s : State) (f : Nat) (r : FilterRegs) (q : RegName) (h :
    ∀ k, q = .filt f k → r.read k = (s.filt f).read k) :
    (s.setFilt f r).read q = s.read q := by
  cases q with
  | filt g k =>
    simp only [State.read, State.filt, State.setFilt_filters, getD_set]
    split
    · rename_i hc; obtain ⟨rfl, -⟩ := hc; exact h k rfl
    · rfl
  | _ => rfl

theorem setSlot_nvalid (s : State) (x : Nat) (r : SlotRegs) (h : r.valid = (s.slot x).valid) :
    (s.setSlot x r).nvalid = s.nvalid := by
  simp only [State.nvalid, State.setSlot_slots]
  by_cases hx : x < s.slots.length
  · rw [List.countP_set hx]
    simp [State.slot, List.getD, hx] at h
    rw [h]
    split
    · have : 0 < List.countP SlotRegs.valid s.slots := List.countP_pos_iff.2 ⟨_, List.getElem_mem hx, ‹_›⟩
      omega
    · omega
  · rw [List.set_eq_of_length_le (by omega)]

theorem setSlot_read (s : State) (f : Nat) (r : SlotRegs) (q : RegName) (h : ∀ k, q = .slot f k → r.read k = (s.slot f).read k)
   (hv : q = .nvalid → r.valid = (s.slot f).valid) :
    (s.setSlot f r).read q = s.read q := by
  cases q with
  | slot g k =>
    simp only [State.read, State.slot, State.setSlot_slots, getD_set]
    split
    · rename_i hc; obtain ⟨rfl, -⟩ := hc; exact h k rfl
    · rfl
  | nvalid => simp only [State.read, setSlot_nvalid s f r (hv rfl)]
  | _ => rfl

theorem reply_read (s : State) (d q r f) (n : RegName) (h : n ≠ .status) : (s.reply d q r f).read n = s.read n := by
  cases n <;> first | rfl | exact absurd rfl h

theorem raise_read (s : State) (e) (n : RegName) (h : n ≠ .status) : (s.raise e).read n = s.read n := by
  cases n <;> first | rfl | exact absurd rfl h

/-! ## What a command can do -/

/-- Every command either ends with an error, and then does nothing else, or goes through. -/
theorem exec_shape (i : Instr) (s t : State) (h : exec i s = .next t) :
    (∃ e : Err, e.ends = true ∧ t = s.raise e) ∨
    ∃ (u : State) (dom : Bool) (q : Val) (r : I32) (fin : Bool), t = u.reply dom q r fin ∧
      u.cfg = s.cfg ∧ u.inbox = s.inbox ∧ u.lanes = s.lanes ∧ ((∃ a, i = .wr a ∧
        regAt s.cfg a = some .status) ∨ u.status = s.status) := by
  cases i <;> simp only [exec] at h <;> have h := (next_inj h).symm
  case env | voice =>
    split at h
    · exact .inr ⟨_, _, _, _, _, h, rfl, rfl, rfl, .inr rfl⟩
    · exact .inl ⟨_, rfl, h⟩
  case fltInit | fltSetf | fltLp | fltHp | noteoff =>
    split at h
    · exact .inl ⟨_, rfl, h⟩
    try split at h
    all_goals first
      | exact .inl ⟨_, rfl, h⟩
      | exact .inr ⟨_, _, _, _, _, h, rfl, rfl, rfl, .inr rfl⟩
  case addnote =>
    split at h
    · split at h
      · exact .inl ⟨_, rfl, h⟩
      · exact .inr ⟨_, _, _, _, _, h, rfl, rfl, rfl, .inr rfl⟩
    · exact .inl ⟨_, rfl, h⟩
  case rd =>
    split at h
    · exact .inl ⟨_, rfl, h⟩
    · unfold State.replyReg at h
      split at h <;> exact .inr ⟨_, _, _, _, _, h, rfl, rfl, rfl, .inr rfl⟩
  case wr a _ =>
    split at h
    · exact .inl ⟨_, rfl, h⟩
    · rename_i r hr
      split at h
      · exact .inl ⟨_, rfl, h⟩
      split at h
      · have hw := write_ports s r s.lanes.n s.lanes.d0
        refine .inr ⟨_, _, _, _, _, h, hw.2.1, hw.2.2.1, hw.2.2.2.1, ?_⟩
        by_cases hs : r = .status
        · exact .inl ⟨a, rfl, hs ▸ hr⟩
        · exact .inr (write_status _ _ _ _ hs)
      · exact .inl ⟨_, rfl, h⟩
  all_goals exact .inr ⟨_, _, _, _, _, h, rfl, rfl, rfl, .inr rfl⟩

/-- The slots after each command. -/
theorem exec_slots (i : Instr) (s t : State) (h : exec i s = .next t) :
    t.slots = s.slots ∨
    (∃ x a, i = .addnote a ∧ s.freeSlot = some x ∧ noteRefOk s.cfg a = true ∧
      t.slots = s.slots.set x { sflags := 3#32, nid := s.lanes.n, ont := s.lanes.d1, offt := s.lanes.d2, sinstr := BitVec.ofNat 32 a }) ∨
    (∃ x, i = .noteoff x ∧ (s.slot x).valid = true ∧ t.slots = s.slots.set x { s.slot x with offt := s.lanes.d0 }) ∨
    (i = .render ∧ ∃ m, t.slots = (s.mixPass s.lanes.d0 s.slots m).1.map SlotRegs.prune) := by
  cases i <;> simp only [exec, execNop, execOscSin, execOscTri, execOscSqr, execOscSawa, execOscSawd, execOscNoise,
    execScale, execEnv,
    execFltInit, execFltSetf, execFltLp, execFltHp, execVoice, execAddnote, execNoteoff, execRender, execRd,
      execWr] at h <;> have h := next_inj h <;> subst h
  case addnote a =>
    split
    · split
      · exact .inl rfl
      · rename_i h1 _ x h2
        exact .inr (.inl ⟨x, a, rfl, h2, h1, rfl⟩)
    · exact .inl rfl
  case noteoff x =>
    split
    · exact .inl rfl
    split
    · rename_i h1 h2
      exact .inr (.inr (.inl ⟨x, rfl, h2, rfl⟩))
    · exact .inl rfl
  case render => exact .inr (.inr (.inr ⟨rfl, _, rfl⟩))
  case wr =>
    left
    split
    · rfl
    split
    · rfl
    split
    · rename_i r _ _ _; cases r <;> rfl
    · rfl
  case rd =>
    left
    split
    · rfl
    · unfold State.replyReg; split <;> rfl
  case fltInit | fltSetf => left; split; rfl; split <;> rfl
  case fltLp | fltHp | env | voice => left; split <;> rfl
  all_goals exact .inl rfl

/-! ## Conditionals under an outcome -/

theorem withLanes_ite (p : Prop) [Decidable p] (a b : State) (l : Lanes) :
    withLanes (.next (if p then a else b)) l = if p then withLanes (.next a) l else withLanes (.next b) l := by split <;> rfl

theorem ite_next_congr {p q : Prop} [Decidable p] [Decidable q] {a b : State} {c d : Out} (hp : p ↔ q) (ha :
    p → .next a = c) (hb : ¬p → .next b = d) :
  (Host.Outcome.next (if p then a else b) : Out) = if q then c else d := by
  by_cases h : p
  · rw [if_pos h, if_pos (hp.1 h)]; exact ha h
  · rw [if_neg h, if_neg (mt hp.2 h)]; exact hb h

end Sys2Proof.Machine
end

