-- ==== Sys2Proof/Laws/Numerics.lean ====
section
/-! SUPPORT. Every operation of Machine/Numerics.lean is the exact operation of `NUM_R` (R7) on the reals its operands stand for,
and the order it works out is the order of the reals. -/

namespace Sys2Proof.Machine

variable (ρ : Valuation)

@[simp] theorem toReal_monomial (q : Rat) (k : Int) : (Val.mono q k).toReal ρ = (q : ℝ) * Real.pi ^ k := rfl
@[simp] theorem toReal_host (n : Nat) : (Val.host n).toReal ρ = ρ.host n := rfl
@[simp] theorem toReal_draw (n : Nat) : (Val.draw n).toReal ρ = ρ.draw n := rfl
@[simp] theorem toReal_sumOf (a b : Val) : (Val.sumOf a b).toReal ρ = a.toReal ρ + b.toReal ρ := rfl
@[simp] theorem toReal_diffOf (a b : Val) : (Val.diffOf a b).toReal ρ = a.toReal ρ - b.toReal ρ := rfl
@[simp] theorem toReal_prodOf (a b : Val) : (Val.prodOf a b).toReal ρ = a.toReal ρ * b.toReal ρ := rfl
@[simp] theorem toReal_quotOf (a b : Val) : (Val.quotOf a b).toReal ρ = a.toReal ρ / b.toReal ρ := rfl
@[simp] theorem toReal_remOf (a b : Val) : (Val.remOf a b).toReal ρ = fmodReal (a.toReal ρ) (b.toReal ρ) := rfl
@[simp] theorem toReal_sineOf (a : Val) : (Val.sineOf a).toReal ρ = Real.sin (a.toReal ρ) := rfl
@[simp] theorem toReal_approxOf (a : Val) : (Val.approxOf a).toReal ρ = ρ.approxWave (a.toReal ρ) := rfl
@[simp] theorem toReal_asinOf (a : Val) : (Val.asinOf a).toReal ρ = asinReal ρ (a.toReal ρ) := rfl
@[simp] theorem toReal_expOf (a : Val) : (Val.expOf a).toReal ρ = Real.exp (a.toReal ρ) := rfl
@[simp] theorem toReal_lnOf (a : Val) : (Val.lnOf a).toReal ρ = Real.log (a.toReal ρ) := rfl
@[simp] theorem toReal_semiOf (n : Int) : (Val.semiOf n).toReal ρ = semiReal n := rfl

theorem pi_zpow_pos (k : Int) : 0 < Real.pi ^ k := zpow_pos Real.pi_pos k

@[simp] theorem toReal_zeroVal : zeroVal.toReal ρ = 0 := by simp [zeroVal]
@[simp] theorem toReal_lit (q : Rat) : (NumR.lit q).toReal ρ = q := by simp [NumR.lit]
@[simp] theorem toReal_ofInt (n : Int) : (NumR.ofInt n).toReal ρ = n := by simp [NumR.ofInt]
@[simp] theorem toReal_pi : NumR.pi.toReal ρ = Real.pi := by simp [NumR.pi]
@[simp] theorem toReal_epsEnv : Config.epsEnv.toReal ρ = 0.01 := by
  simp [Config.epsEnv, Rat.mkRat_eq_div]; norm_num

@[simp] theorem toReal_mono (q : Rat) (k : Int) : (NumR.mono q k).toReal ρ = (q : ℝ) * Real.pi ^ k := by
  unfold NumR.mono; split <;> simp_all

/-- A term written as zero stands for zero. -/
theorem toReal_of_isZeroLit {a : Val} (h : NumR.isZeroLit a = true) : a.toReal ρ = 0 := by
  unfold NumR.isZeroLit at h; split at h <;> simp_all

/-- A term written as one stands for one. -/
theorem toReal_of_isOneLit {a : Val} (h : NumR.isOneLit a = true) : a.toReal ρ = 1 := by
  unfold NumR.isOneLit at h; split at h <;> simp_all

theorem toReal_addMono (q r : Rat) (k l : Int) :
    (NumR.addMono q r k l).toReal ρ = q * Real.pi ^ k + r * Real.pi ^ l := by
  unfold NumR.addMono
  split_ifs with h1 h2 h3 <;> simp_all [add_mul]

/-- R7: `add` is exact. -/
@[simp] theorem toReal_add (a b : Val) : (NumR.add a b).toReal ρ = a.toReal ρ + b.toReal ρ := by
  unfold NumR.add
  split
  · exact toReal_addMono ρ ..
  · split_ifs with h1 h2
    · simp [toReal_of_isZeroLit ρ h1]
    · simp [toReal_of_isZeroLit ρ h2]
    · rfl

/-- R7: `sub` is exact. -/
@[simp] theorem toReal_sub (a b : Val) : (NumR.sub a b).toReal ρ = a.toReal ρ - b.toReal ρ := by
  unfold NumR.sub
  split
  · split_ifs with h1 h2 h3 <;> simp_all [sub_mul]
  · split_ifs with h1
    · simp [toReal_of_isZeroLit ρ h1]
    · rfl

/-- R7: `mul` is exact. -/
@[simp] theorem toReal_mul (a b : Val) : (NumR.mul a b).toReal ρ = a.toReal ρ * b.toReal ρ := by
  unfold NumR.mul
  split
  · simp only [toReal_mono, toReal_monomial, zpow_add₀ Real.pi_ne_zero]; push_cast; ring
  · split_ifs with h1 h2 h3
    · rcases Bool.or_eq_true _ _ ▸ h1 with h | h <;> simp [toReal_of_isZeroLit ρ h]
    · simp [toReal_of_isOneLit ρ h2]
    · simp [toReal_of_isOneLit ρ h3]
    · rfl

/-- R7: `div` is exact (with the real `x / 0 = 0`, which no rule uses). -/
@[simp] theorem toReal_div (a b : Val) : (NumR.div a b).toReal ρ = a.toReal ρ / b.toReal ρ := by
  unfold NumR.div
  split
  · simp only [toReal_mono, toReal_monomial, zpow_sub₀ Real.pi_ne_zero]; push_cast
    rw [mul_div_mul_comm]
  · split_ifs with h1 h2
    · simp [toReal_of_isZeroLit ρ h1]
    · simp [toReal_of_isOneLit ρ h2]
    · rfl

theorem truncReal_cast (q : Rat) : truncReal (q : ℝ) = NumR.truncRat q := by
  unfold truncReal NumR.truncRat
  have h : (0 : ℝ) ≤ (q : ℝ) ↔ 0 ≤ q := by exact_mod_cast Iff.rfl
  simp only [h]
  split_ifs
  · exact Rat.floor_cast q
  · rw [← Rat.cast_neg]; exact congrArg (- ·) (Rat.floor_cast (-q))

theorem truncReal_zero : truncReal 0 = 0 := by simp [truncReal]

/-- R7: `fmod` is exact. -/
@[simp] theorem toReal_fmod (a b : Val) : (NumR.fmod a b).toReal ρ = fmodReal (a.toReal ρ) (b.toReal ρ) := by
  unfold NumR.fmod
  split
  · rename_i q k r l
    split_ifs with h1 h2
    · simp [fmodReal, h1, truncReal_zero]
    · subst h2
      have hk := (pi_zpow_pos k).ne'
      have h : (q : ℝ) * Real.pi ^ k / ((r : ℝ) * Real.pi ^ k) = ((q / r : Rat) : ℝ) := by
        rw [mul_div_mul_right _ _ hk]; push_cast; rfl
      simp only [toReal_mono, toReal_monomial, fmodReal, h, truncReal_cast]
      push_cast; ring
    · rfl
  · split_ifs with h1
    · simp [fmodReal, toReal_of_isZeroLit ρ h1, truncReal_zero]
    · rfl

theorem sin_turn (q : Rat) : Real.sin (q * Real.pi) = Real.sin ((NumR.turn q : Rat) * Real.pi) := by
  have h : ((NumR.turn q : Rat) : ℝ) * Real.pi = q * Real.pi - ((q / 2).floor : ℤ) * (2 * Real.pi) := by
    unfold NumR.turn; push_cast; ring
  rw [h, Real.sin_sub_int_mul_two_pi]

theorem turn_mem (q : Rat) : 0 ≤ NumR.turn q ∧ NumR.turn q < 2 := by
  have h1 : ((q / 2).floor : Rat) ≤ q / 2 := Int.floor_le (q / 2)
  have h2 : q / 2 < ((q / 2).floor : Rat) + 1 := Int.lt_floor_add_one (q / 2)
  unfold NumR.turn
  constructor <;> linarith

theorem sin_sixth (m : Int) (r : Rat) (h : NumR.sinSixth m = some r) :
    Real.sin ((m : ℝ) / 6 * Real.pi) = r := by
  have h6 : (1 : ℝ) / 6 * Real.pi = Real.pi / 6 := by ring
  unfold NumR.sinSixth at h
  split at h <;> simp only [Option.some.injEq, reduceCtorEq] at h <;> subst h
  · simp
  · rw [show ((1 : ℤ) : ℝ) / 6 * Real.pi = Real.pi / 6 by push_cast; ring, Real.sin_pi_div_six]
    norm_num [Rat.mkRat_eq_div]
  · rw [show ((3 : ℤ) : ℝ) / 6 * Real.pi = Real.pi / 2 by push_cast; ring, Real.sin_pi_div_two]; norm_num
  · rw [show ((5 : ℤ) : ℝ) / 6 * Real.pi = Real.pi - Real.pi / 6 by push_cast; ring, Real.sin_pi_sub,
      Real.sin_pi_div_six]
    norm_num [Rat.mkRat_eq_div]
  · rw [show ((6 : ℤ) : ℝ) / 6 * Real.pi = Real.pi by push_cast; ring]; simp
  · rw [show ((7 : ℤ) : ℝ) / 6 * Real.pi = Real.pi / 6 + Real.pi by push_cast; ring, Real.sin_add_pi,
      Real.sin_pi_div_six]
    norm_num [Rat.mkRat_eq_div]
  · rw [show ((9 : ℤ) : ℝ) / 6 * Real.pi = Real.pi / 2 + Real.pi by push_cast; ring, Real.sin_add_pi,
      Real.sin_pi_div_two]
    norm_num
  · rw [show ((11 : ℤ) : ℝ) / 6 * Real.pi = 2 * Real.pi - Real.pi / 6 by push_cast; ring, Real.sin_two_pi_sub,
      Real.sin_pi_div_six]
    norm_num [Rat.mkRat_eq_div]

theorem sin_of_sinTurn {q r : Rat} (h : NumR.sinTurn q = some r) : Real.sin (q * Real.pi) = r := by
  unfold NumR.sinTurn at h
  split_ifs at h with hd
  rw [sin_turn, ← sin_sixth _ _ h]
  have h6 : ((6 * NumR.turn q).num : Rat) = 6 * NumR.turn q := Rat.coe_int_num_of_den_eq_one hd
  have h7 : ((6 * NumR.turn q).num : ℝ) = 6 * (NumR.turn q : ℝ) := by exact_mod_cast congrArg (Rat.cast (K := ℝ)) h6
  rw [h7]; congr 1; ring

/-- The exact sine is exact. -/
@[simp] theorem toReal_sin (a : Val) : (NumR.sin a).toReal ρ = Real.sin (a.toReal ρ) := by
  unfold NumR.sin
  split
  · rename_i q k
    split_ifs with h1 h2
    · simp [h1]
    · subst h2
      split
      · rename_i r h
        simpa using (sin_of_sinTurn h).symm
      · rfl
    · rfl
  · rfl

/-- R7, R109: `wave` is the sine primitive that `WAVE_IMPL` names. -/
@[simp] theorem toReal_wave (c : Cfg) (a : Val) : (NumR.wave c.waveImpl a).toReal ρ = waveReal ρ c (a.toReal ρ) := by
  unfold NumR.wave waveReal
  cases c.waveImpl <;> simp

theorem asin_eq_arcsin (x : ℝ) (h : -1 ≤ x ∧ x ≤ 1) : asinReal ρ x = Real.arcsin x := by
  simp [asinReal, h.1, h.2]

theorem asin_sin (x : ℝ) : asinReal ρ (Real.sin x) = Real.arcsin (Real.sin x) :=
  asin_eq_arcsin ρ _ ⟨Real.neg_one_le_sin x, Real.sin_le_one x⟩

/-- The inverse sine of the sine, for an angle given as a multiple of pi. -/
theorem arcsin_sin_turn (q : Rat) : Real.arcsin (Real.sin (q * Real.pi)) = (NumR.asinTurn q : Rat) * Real.pi := by
  obtain ⟨h0, h2⟩ := turn_mem q
  rw [sin_turn]
  unfold NumR.asinTurn
  generalize NumR.turn q = t at *
  have hp := Real.pi_pos
  have h0' : (0 : ℝ) ≤ (t : ℝ) := by exact_mod_cast h0
  have h2' : (t : ℝ) < 2 := by exact_mod_cast h2
  split_ifs with ha hb
  · have ha' : 2 * (t : ℝ) ≤ 1 := by exact_mod_cast ha
    exact Real.arcsin_sin (by nlinarith) (by nlinarith)
  · have ha' : 1 < 2 * (t : ℝ) := by exact_mod_cast not_le.mp ha
    have hb' : 2 * (t : ℝ) ≤ 3 := by exact_mod_cast hb
    have h : Real.sin ((t : ℝ) * Real.pi) = Real.sin (((1 - t : Rat) : ℝ) * Real.pi) := by
      rw [← Real.sin_pi_sub]; push_cast; congr 1; ring
    rw [h]; push_cast
    exact Real.arcsin_sin (by nlinarith) (by nlinarith)
  · have hb' : 3 < 2 * (t : ℝ) := by exact_mod_cast not_le.mp hb
    have h : Real.sin ((t : ℝ) * Real.pi) = Real.sin (((t - 2 : Rat) : ℝ) * Real.pi) := by
      rw [← Real.sin_sub_two_pi]; push_cast; congr 1; ring
    rw [h]; push_cast
    exact Real.arcsin_sin (by nlinarith) (by nlinarith)

theorem arcsin_half : Real.arcsin (1 / 2) = Real.pi / 6 := by
  rw [← Real.sin_pi_div_six]
  exact Real.arcsin_sin (by linarith [Real.pi_pos]) (by linarith [Real.pi_pos])

/-- R7: `asin` is exact on `[-1, 1]`, and outside it the free value of the valuation (U4). -/
@[simp] theorem toReal_asin (a : Val) : (NumR.asin a).toReal ρ = asinReal ρ (a.toReal ρ) := by
  have hh : asinReal ρ (1 / 2) = Real.pi / 6 := by rw [asin_eq_arcsin ρ _ (by norm_num), arcsin_half]
  have hn : asinReal ρ (-(1 / 2)) = -(Real.pi / 6) := by
    rw [asin_eq_arcsin ρ _ (by norm_num), Real.arcsin_neg, arcsin_half]
  unfold NumR.asin
  split
  · rename_i q
    simp [asin_sin, arcsin_sin_turn]
  · rename_i q k
    split_ifs with h0 h1 h2 h3 h4
    · simp [h0, asin_eq_arcsin]
    · obtain ⟨rfl, rfl⟩ := h1
      rw [toReal_monomial, toReal_monomial]
      norm_num [asin_eq_arcsin, Rat.mkRat_eq_div]
      ring
    · obtain ⟨rfl, rfl⟩ := h2
      rw [toReal_monomial, toReal_monomial]
      norm_num [asin_eq_arcsin, Rat.mkRat_eq_div]
      ring
    · obtain ⟨rfl, h⟩ := h3
      have hq : q = 1 / 2 := by linarith
      rw [toReal_monomial, toReal_monomial, hq]
      norm_num [Rat.mkRat_eq_div] at hh ⊢
      rw [hh]; ring
    · obtain ⟨rfl, h⟩ := h4
      have hq : q = -(1 / 2) := by linarith
      rw [toReal_monomial, toReal_monomial, hq]
      norm_num [Rat.mkRat_eq_div] at hn ⊢
      rw [hn]; ring
    · rfl
  · rfl

/-- R7: `exp` is exact. -/
@[simp] theorem toReal_exp (a : Val) : (NumR.exp a).toReal ρ = Real.exp (a.toReal ρ) := by
  unfold NumR.exp
  split_ifs with h
  · simp [toReal_of_isZeroLit ρ h]
  · rfl

theorem semiReal_octaves (k : ℤ) : semiReal (12 * k) = (2 : ℝ) ^ k := by
  unfold semiReal
  rw [← Real.rpow_intCast]; congr 1; push_cast; ring

/-- R7: `semi` is exact. -/
@[simp] theorem toReal_semi (n : Int) : (NumR.semi n).toReal ρ = semiReal n := by
  unfold NumR.semi
  split_ifs with h h0
  · have hn : n = 12 * ((n / 12).natAbs : ℤ) := by omega
    conv_rhs => rw [hn, semiReal_octaves, zpow_natCast]
    simp
  · have hn : n = 12 * (-((n / 12).natAbs : ℤ)) := by omega
    conv_rhs => rw [hn, semiReal_octaves, zpow_neg, zpow_natCast]
    simp [Rat.mkRat_eq_div]
  · rfl

/-- R107: one octave doubles the pitch. -/
theorem semiReal_add_octave (n : ℤ) : semiReal (n + 12) = 2 * semiReal n := by
  unfold semiReal
  rw [show ((n + 12 : ℤ) : ℝ) / 12 = 1 + (n : ℝ) / 12 by push_cast; ring, Real.rpow_add two_pos, Real.rpow_one]

theorem semiReal_pos (n : ℤ) : 0 < semiReal n := Real.rpow_pos_of_pos two_pos _

/-! ## The order -/

/-- `s` is the sign of the real `x`. -/
def IsSign (s : Int) (x : ℝ) : Prop := (s = -1 ∧ x < 0) ∨ (s = 0 ∧ x = 0) ∨ (s = 1 ∧ 0 < x)

theorem IsSign.neg_iff {s : Int} {x : ℝ} (h : IsSign s x) : s < 0 ↔ x < 0 := by
  rcases h with ⟨rfl, h⟩ | ⟨rfl, h⟩ | ⟨rfl, h⟩ <;> simp [h, h.le, not_lt.mpr]

theorem IsSign.neg {s : Int} {x : ℝ} (h : IsSign s x) : IsSign (-s) (-x) := by
  rcases h with ⟨rfl, h⟩ | ⟨rfl, h⟩ | ⟨rfl, h⟩
  · exact .inr (.inr ⟨rfl, by linarith⟩)
  · exact .inr (.inl ⟨rfl, by linarith⟩)
  · exact .inl ⟨rfl, by linarith⟩

theorem IsSign.mul {s t : Int} {x y : ℝ} (h : IsSign s x) (k : IsSign t y) : IsSign (s * t) (x * y) := by
  rcases h with ⟨rfl, h⟩ | ⟨rfl, h⟩ | ⟨rfl, h⟩ <;> rcases k with ⟨rfl, k⟩ | ⟨rfl, k⟩ | ⟨rfl, k⟩ <;>
    simp [IsSign, h, k, mul_pos_of_neg_of_neg, mul_neg_of_neg_of_pos, mul_neg_of_pos_of_neg]

theorem IsSign.inv {s : Int} {x : ℝ} (h : IsSign s x) : IsSign s x⁻¹ := by
  rcases h with ⟨rfl, h⟩ | ⟨rfl, h⟩ | ⟨rfl, h⟩ <;> simp [IsSign, h]

theorem isSign_zero_mul (x y : ℝ) (h : IsSign 0 x) : IsSign 0 (x * y) := by
  rcases h with ⟨h, _⟩ | ⟨_, rfl⟩ | ⟨h, _⟩ <;> simp_all [IsSign]

theorem isSign_sgnRat (q : Rat) (k : Int) : IsSign (NumR.sgnRat q) ((q : ℝ) * Real.pi ^ k) := by
  have hk := pi_zpow_pos k
  unfold NumR.sgnRat
  split_ifs with h0 h1
  · exact .inr (.inl ⟨rfl, by simp [h0]⟩)
  · exact .inr (.inr ⟨rfl, mul_pos (by exact_mod_cast h1) hk⟩)
  · refine .inl ⟨rfl, mul_neg_of_neg_of_pos ?_ hk⟩
    exact_mod_cast lt_of_le_of_ne (not_lt.mp h1) h0

theorem isSign_sgnTurn (q : Rat) : IsSign (NumR.sgnTurn q) (Real.sin ((q : ℝ) * Real.pi)) := by
  obtain ⟨h0, h2⟩ := turn_mem q
  rw [sin_turn]
  unfold NumR.sgnTurn
  generalize NumR.turn q = t at *
  have hp := Real.pi_pos
  have h0' : (0 : ℝ) ≤ (t : ℝ) := by exact_mod_cast h0
  have h2' : (t : ℝ) < 2 := by exact_mod_cast h2
  split_ifs with ha hb
  · refine .inr (.inl ⟨rfl, ?_⟩)
    rcases ha with rfl | rfl <;> simp
  · have hb' : (t : ℝ) < 1 := by exact_mod_cast hb
    have hne : (t : ℝ) ≠ 0 := by exact_mod_cast (not_or.mp ha).1
    have h0'' : 0 < (t : ℝ) := lt_of_le_of_ne h0' hne.symm
    exact .inr (.inr ⟨rfl, Real.sin_pos_of_pos_of_lt_pi (by positivity) (by nlinarith)⟩)
  · have hne : (t : ℝ) ≠ 1 := by exact_mod_cast (not_or.mp ha).2
    have hb' : 1 ≤ (t : ℝ) := by exact_mod_cast not_lt.mp hb
    have hb'' : 1 < (t : ℝ) := lt_of_le_of_ne hb' hne.symm
    refine .inl ⟨rfl, ?_⟩
    rw [← Real.sin_sub_two_pi]
    exact Real.sin_neg_of_neg_of_neg_pi_lt (by nlinarith) (by nlinarith)

theorem isSign_sgnAdd {a b : Option Int} {s : Int} {x y : ℝ} (ha : ∀ t, a = some t → IsSign t x)
    (hb : ∀ t, b = some t → IsSign t y) (h : NumR.sgnAdd a b = some s) : IsSign s (x + y) := by
  unfold NumR.sgnAdd at h
  split at h
  · rename_i a b
    have hx := ha a rfl
    have hy := hb b rfl
    split_ifs at h with h1 h2
    · cases h; subst h1
      have : x = 0 := by rcases hx with ⟨h, _⟩ | ⟨_, h⟩ | ⟨h, _⟩ <;> simp_all
      simpa [this] using hy
    · cases h
      rcases h2 with rfl | rfl
      · have : y = 0 := by rcases hy with ⟨h, _⟩ | ⟨_, h⟩ | ⟨h, _⟩ <;> simp_all
        simpa [this] using hx
      · rcases hx with ⟨rfl, hx⟩ | ⟨rfl, hx⟩ | ⟨rfl, hx⟩ <;> rcases hy with ⟨h, hy⟩ | ⟨h, hy⟩ | ⟨h, hy⟩ <;>
          first
          | exact absurd h (by decide)
          | exact .inl ⟨rfl, by linarith⟩
          | exact .inr (.inl ⟨rfl, by linarith⟩)
          | exact .inr (.inr ⟨rfl, by linarith⟩)
  · cases h

theorem isSign_sgnMul {a b : Option Int} {s : Int} {x y : ℝ} (ha : ∀ t, a = some t → IsSign t x)
    (hb : ∀ t, b = some t → IsSign t y) (h : NumR.sgnMul a b = some s) : IsSign s (x * y) := by
  unfold NumR.sgnMul at h
  split at h
  · cases h; exact (ha _ rfl).mul (hb _ rfl)
  · split_ifs at h with h1; cases h; subst h1; exact isSign_zero_mul x y (ha _ rfl)
  · split_ifs at h with h1; cases h; subst h1; rw [mul_comm]; exact isSign_zero_mul y x (hb _ rfl)
  · cases h

/-- The sign that `sgn` works out is the sign of the real. -/
theorem isSign_sgn (a : Val) {s : Int} (h : NumR.sgn a = some s) : IsSign s (a.toReal ρ) := by
  induction a generalizing s with
  | mono q k => cases h; exact isSign_sgnRat q k
  | sumOf a b iha ihb => exact isSign_sgnAdd (fun t => iha) (fun t => ihb) h
  | diffOf a b iha ihb =>
    unfold NumR.sgn at h
    split_ifs at h with hab
    · cases h; exact .inr (.inl ⟨rfl, by simp [hab]⟩)
    · rw [toReal_diffOf, sub_eq_add_neg]
      refine isSign_sgnAdd (fun t => iha) (fun t ht => ?_) h
      obtain ⟨u, hu, rfl⟩ := Option.map_eq_some_iff.mp ht
      exact (ihb hu).neg
  | prodOf a b iha ihb => exact isSign_sgnMul (fun t => iha) (fun t => ihb) h
  | quotOf a b iha ihb => exact isSign_sgnMul (fun t => iha) (fun t ht => (ihb ht).inv) h
  | sineOf a ih =>
    unfold NumR.sgn at h
    split at h <;> simp_all
    subst h; exact isSign_sgnTurn _
  | expOf a ih => cases h; exact .inr (.inr ⟨rfl, Real.exp_pos _⟩)
  | semiOf n => cases h; exact .inr (.inr ⟨rfl, semiReal_pos n⟩)
  | _ => cases h

/-- The sign that the model works out is the sign of the real. -/
theorem isSign_sign (a : Val) {s : Int} (h : NumR.sign a = some s) : IsSign s (a.toReal ρ) := by
  unfold NumR.sign at h
  split at h
  · cases h; exact isSign_sgn ρ a ‹_›
  · obtain ⟨x, hx, h⟩ := Option.bind_eq_some_iff.mp h
    obtain ⟨h1, h2⟩ := has_enclose ρ a hx
    unfold Ival.sgn at h
    split_ifs at h with hl hh hz <;> cases h
    · have : (0 : ℝ) < x.lo := by exact_mod_cast hl
      exact .inr (.inr ⟨rfl, by linarith⟩)
    · have : (x.hi : ℝ) < 0 := by exact_mod_cast hh
      exact .inl ⟨rfl, by linarith⟩
    · rw [hz.1, Rat.cast_zero] at h1
      rw [hz.2, Rat.cast_zero] at h2
      exact .inr (.inl ⟨rfl, le_antisymm h2 h1⟩)

/-- A sign that the form of a term settles is its sign. -/
theorem sign_of_sgn {a : Val} {s : Int} (h : NumR.sgn a = some s) : NumR.sign a = some s := by
  simp [NumR.sign, h]

/-- R7: `lt` is the order of the reals. -/
theorem lt_iff (a b : Val) : NumR.lt a b = true ↔ a.real < b.real := by
  unfold NumR.lt
  split
  · rename_i s hs
    have h := (isSign_sign Config.world _ hs).neg_iff
    rw [toReal_sub, sub_neg] at h
    simpa [Val.real] using h
  · exact @decide_eq_true_iff _ (realLt a b)

/-- R7: `le` is the order of the reals. -/
theorem le_iff (a b : Val) : NumR.le a b = true ↔ a.real ≤ b.real := by
  rw [← not_lt, ← lt_iff]; simp [NumR.le]

/-- R7: `eq` is equality of the reals. -/
theorem eq_iff (a b : Val) : NumR.eq a b = true ↔ a.real = b.real := by
  rw [le_antisymm_iff (a := a.real), ← le_iff, ← le_iff]; simp [NumR.eq]

theorem lt_eq (a b : Val) : NumR.lt a b = decide (a.real < b.real) := by
  rw [Bool.eq_iff_iff, lt_iff, decide_eq_true_iff]

theorem le_eq (a b : Val) : NumR.le a b = decide (a.real ≤ b.real) := by
  rw [Bool.eq_iff_iff, le_iff, decide_eq_true_iff]

theorem eq_eq (a b : Val) : NumR.eq a b = decide (a.real = b.real) := by
  rw [Bool.eq_iff_iff, eq_iff, decide_eq_true_iff]

/-! ## The real of the block at hand -/

@[simp] theorem real_zeroVal : zeroVal.real = 0 := toReal_zeroVal _
@[simp] theorem real_lit (q : Rat) : (NumR.lit q).real = q := toReal_lit _ q
@[simp] theorem real_ofInt (n : Int) : (NumR.ofInt n).real = n := toReal_ofInt _ n
@[simp] theorem real_pi : NumR.pi.real = Real.pi := toReal_pi _
@[simp] theorem real_epsEnv : Config.epsEnv.real = 1 / 100 := by rw [Val.real, toReal_epsEnv]; norm_num
@[simp] theorem real_add (a b : Val) : (NumR.add a b).real = a.real + b.real := toReal_add _ a b
@[simp] theorem real_sub (a b : Val) : (NumR.sub a b).real = a.real - b.real := toReal_sub _ a b
@[simp] theorem real_mul (a b : Val) : (NumR.mul a b).real = a.real * b.real := toReal_mul _ a b
@[simp] theorem real_div (a b : Val) : (NumR.div a b).real = a.real / b.real := toReal_div _ a b
@[simp] theorem real_fmod (a b : Val) : (NumR.fmod a b).real = fmodReal a.real b.real := toReal_fmod _ a b
@[simp] theorem real_wave (c : Cfg) (a : Val) : (NumR.wave c.waveImpl a).real = waveReal Config.world c a.real :=
  toReal_wave _ c a
@[simp] theorem real_asin (a : Val) : (NumR.asin a).real = asinReal Config.world a.real := toReal_asin _ a
@[simp] theorem real_exp (a : Val) : (NumR.exp a).real = Real.exp a.real := toReal_exp _ a
@[simp] theorem real_semi (n : Int) : (NumR.semi n).real = semiReal n := toReal_semi _ n

/-! ## The record of a block whose `NUM` is `NUM_R` -/

/-- R7: what the fields of the record are where `NUM` is `NUM_R`. -/
theorem ops_real {c : Cfg} (h : c.num = .real) : c.ops = numR c.waveImpl := by unfold Cfg.ops; rw [h]

@[simp] theorem numR_add (w : WaveImpl) : (numR w).add = NumR.add := rfl
@[simp] theorem numR_sub (w : WaveImpl) : (numR w).sub = NumR.sub := rfl
@[simp] theorem numR_mul (w : WaveImpl) : (numR w).mul = NumR.mul := rfl
@[simp] theorem numR_div (w : WaveImpl) : (numR w).div = NumR.div := rfl
@[simp] theorem numR_lt (w : WaveImpl) : (numR w).lt = NumR.lt := rfl
@[simp] theorem numR_le (w : WaveImpl) : (numR w).le = NumR.le := rfl
@[simp] theorem numR_eq (w : WaveImpl) : (numR w).eq = NumR.eq := rfl
@[simp] theorem numR_ofInt (w : WaveImpl) : (numR w).ofInt = NumR.ofInt := rfl
@[simp] theorem numR_pi (w : WaveImpl) : (numR w).pi = NumR.pi := rfl
@[simp] theorem numR_wave (w : WaveImpl) : (numR w).wave = NumR.wave w := rfl
@[simp] theorem numR_asin (w : WaveImpl) : (numR w).asin = NumR.asin := rfl
@[simp] theorem numR_exp (w : WaveImpl) : (numR w).exp = NumR.exp := rfl
@[simp] theorem numR_fmod (w : WaveImpl) : (numR w).fmod = NumR.fmod := rfl
@[simp] theorem numR_semi (w : WaveImpl) : (numR w).semi = NumR.semi := rfl

@[simp] theorem exactInts_ofInt_of_mem {N : NumRec} {k : Int} (h : 1 ≤ k ∧ k ≤ 65534) : (exactInts N).ofInt k = NumR.lit k := by
  simp [exactInts, h]

/-- R170: whichever record the block has, `ofInt(k)` is exact for `k` in `1..65534`. -/
theorem ops_ofInt_exact (c : Cfg) {k : Int} (h : 1 ≤ k ∧ k ≤ 65534) : c.ops.ofInt k = NumR.lit k := by
  unfold Cfg.ops
  split
  · rfl
  · exact exactInts_ofInt_of_mem h

/-! ## Rationals -/

theorem sub_lit (q r : Rat) : NumR.sub (NumR.lit q) (NumR.lit r) = NumR.lit (q - r) := by
  simp only [NumR.lit, NumR.sub, NumR.mono]
  split_ifs <;> simp_all [sub_eq_zero]

/-- R7: `lt` on rationals. -/
@[simp] theorem lt_lit (q r : Rat) : NumR.lt (NumR.lit q) (NumR.lit r) = decide (q < r) := by
  rw [NumR.lt, sub_lit, sign_of_sgn (s := NumR.sgnRat (q - r)) rfl]
  simp only [NumR.sgnRat]
  split_ifs with h1 h2
  · simp [sub_eq_zero.mp h1]
  · simp; linarith
  · have : q < r := by
      rcases lt_trichotomy q r with h | h | h
      · exact h
      · exact absurd (sub_eq_zero.mpr h) h1
      · exact absurd (by linarith) h2
    simp [this]

/-- R7: `le` on rationals. -/
@[simp] theorem le_lit (q r : Rat) : NumR.le (NumR.lit q) (NumR.lit r) = decide (q ≤ r) := by
  simp [NumR.le, ← not_lt]

/-- R7: `eq` on rationals. -/
@[simp] theorem eq_lit (q r : Rat) : NumR.eq (NumR.lit q) (NumR.lit r) = decide (q = r) := by
  simp [NumR.eq, le_antisymm_iff, Bool.decide_and]

@[simp] theorem add_lit (q r : Rat) : NumR.add (NumR.lit q) (NumR.lit r) = NumR.lit (q + r) := by
  simp only [NumR.lit, NumR.add, NumR.addMono, NumR.mono]
  split_ifs <;> simp_all

@[simp] theorem sub_lit' (q r : Rat) : NumR.sub (NumR.lit q) (NumR.lit r) = NumR.lit (q - r) := sub_lit q r

@[simp] theorem mul_lit (q r : Rat) : NumR.mul (NumR.lit q) (NumR.lit r) = NumR.lit (q * r) := by
  simp only [NumR.lit, NumR.mul, NumR.mono]
  split_ifs <;> simp_all

@[simp] theorem div_lit (q r : Rat) : NumR.div (NumR.lit q) (NumR.lit r) = NumR.lit (q / r) := by
  simp only [NumR.lit, NumR.div, NumR.mono]
  split_ifs with h
  · rw [h]
  · rfl

theorem zeroVal_eq_lit : zeroVal = NumR.lit 0 := rfl

theorem epsEnv_eq_lit : Config.epsEnv = NumR.lit (1 / 100) := by
  simp [Config.epsEnv, NumR.lit, Rat.mkRat_eq_div]

end Sys2Proof.Machine
end

