-- ==== Sys2Proof/Laws/Instrument.lean ====
section
/-! SUPPORT. What the recipe loop gives (R142). -/

namespace Sys2Proof.Machine

/-- The draw counter when term `k` is met. -/
def drawsBefore (terms : List TermRegs) (d : Nat) : Nat → Nat
  | 0 => d
  | k + 1 => match terms with
    | [] => d
    | m :: ms => drawsBefore ms (d + if m.isNoise then 1 else 0) k

theorem termSample_draws (c basef t id m d) : (termSample c basef t id m d).draws = d + if kindOfCode (tctlKind m.tctl) =
    some .noise then 1 else 0 := by
  unfold termSample
  split
  · simp [*]
  · rename_i k h; cases k <;> simp [h, generate]

theorem termSample_dom (c basef t id m d) : (termSample c basef t id m d).dom = true ↔
    kindOfCode (tctlKind m.tctl) = some .sawd ∧ sawdSingular c t (scale c basef (id + m.semi.toInt)) = true := by
  unfold termSample
  split
  · simp [*]
  · rename_i k h; cases k <;> simp [h, generate, sext32]

theorem termSample_val (ρ : Valuation) {c : Cfg} (hc : c.num = .real) (basef t id m d) :
    (termSample c basef t id m d).val.toReal ρ =
      match kindOfCode (tctlKind m.tctl) with
      | some kind => m.weight.toReal ρ *
          (generate c d t (scale c basef (id + m.semi.toInt)) kind m.lfoHz m.lfoAmp m.sawp.toInt).val.toReal ρ
      | none => 0 := by
  unfold termSample
  split <;> rename_i h <;> simp [h, sext32, ops_real hc]

/-- Everything the recipe loop gives: the draws it takes, whether it records DOMAIN, and, for `NUM_R`, its value. -/
theorem recipeLoop_spec (c : Cfg) (basef t : Val) (id : Int) (terms : List TermRegs) (acc : Sample) :
    (recipeLoop c basef t id terms acc).draws = drawsBefore terms acc.draws terms.length ∧
    ((recipeLoop c basef t id terms acc).dom = true ↔ acc.dom = true ∨
      ∃ m ∈ terms, tctlEn m.tctl = true ∧ kindOfCode (tctlKind m.tctl) = some .sawd ∧
        sawdSingular c t (scale c basef (id + m.semi.toInt)) = true) ∧
    (c.num = .real → ∀ ρ : Valuation, (recipeLoop c basef t id terms acc).val.toReal ρ = acc.val.toReal ρ +
        ∑ k ∈ Finset.range terms.length,
          (let m := terms.getD k TermRegs.reset
           if tctlEn m.tctl then
             match kindOfCode (tctlKind m.tctl) with
             | some kind => m.weight.toReal ρ *
                 (generate c (drawsBefore terms acc.draws k) t (scale c basef
                   (id + m.semi.toInt)) kind m.lfoHz m.lfoAmp m.sawp.toInt).val.toReal ρ
             | none => 0
           else 0)) := by
  induction terms generalizing acc with
  | nil => simp [recipeLoop, drawsBefore]
  | cons m ms ih =>
    unfold recipeLoop
    split
    · rename_i he
      obtain ⟨h1, h2, h3⟩ := ih ⟨c.ops.add acc.val (termSample c basef t id m acc.draws).val,
        acc.dom || (termSample c basef t id m acc.draws).dom, (termSample c basef t id m acc.draws).draws⟩
      simp only [termSample_draws] at h1 h2 h3 ⊢
      refine ⟨?_, ?_, fun hc ρ => ?_⟩
      · rw [h1]; simp [drawsBefore, TermRegs.isNoise, he]
      · rw [h2, Bool.or_eq_true, termSample_dom, List.exists_mem_cons_iff, or_assoc]; simp [he]
      · rw [h3 hc, ops_real hc, numR_add, toReal_add, termSample_val ρ hc, List.length_cons, Finset.sum_range_succ']
        simp only [List.getD_cons_succ, List.getD_cons_zero, drawsBefore, TermRegs.isNoise, he, Bool.true_and, beq_iff_eq,
          if_true]
        ring
    · rename_i he
      obtain ⟨h1, h2, h3⟩ := ih acc
      refine ⟨?_, ?_, fun hc ρ => ?_⟩
      · rw [h1]; simp [drawsBefore, TermRegs.isNoise, he]
      · rw [h2, List.exists_mem_cons_iff]; simp [he]
      · rw [h3 hc, List.length_cons, Finset.sum_range_succ']
        simp [drawsBefore, TermRegs.isNoise, he]

theorem drawsBefore_succ (terms : List TermRegs) (d k) (hk : k < terms.length) :
    drawsBefore terms d (k + 1) = drawsBefore terms d k + if (terms.getD k TermRegs.reset).isNoise then 1 else 0 := by
  induction terms generalizing d k with
  | nil => simp at hk
  | cons m ms ih =>
    cases k with
    | zero => cases ms <;> simp [drawsBefore]
    | succ k =>
      have := ih (d + if m.isNoise then 1 else 0) k (by simpa using hk)
      simpa [drawsBefore] using this

theorem recipe_draws_noiseFree (c basef t id) (terms : List TermRegs) (h : ∀ m ∈ terms, m.isNoise = false) (d : Nat) :
    (recipeSum c basef t id terms d).draws = d := by
  have h1 := (recipeLoop_spec c basef t id terms { val := NumR.lit 0, dom := false, draws := d }).1
  rw [recipeSum, h1]
  clear h1
  show drawsBefore terms d terms.length = d
  induction terms with
  | nil => simp [drawsBefore]
  | cons m ms ih =>
    have hm := h m (by simp)
    simp [drawsBefore, hm]; exact ih (fun m hm => h m (by simp [hm]))

end Sys2Proof.Machine
end

