-- ==== Sys2Proof/Laws/Invariant.lean ====
section
/-! SUPPORT. The reserved bits of STATUS (R23). -/

namespace Sys2Proof.Machine

theorem setFlag_lt (s : I32) (e : Err) (h : s.toNat < 32) : (setFlag s e).toNat < 32 := by
  simp only [setFlag, BitVec.toNat_or]
  exact Nat.or_lt_two_pow (n := 5) h (by cases e <;> decide)

theorem clearFlags_lt (s n : I32) (h : s.toNat < 32) : (clearFlags s n).toNat < 32 := by
  simp only [clearFlags, BitVec.toNat_and]
  exact lt_of_le_of_lt Nat.and_le_left h

end Sys2Proof.Machine
end

