-- ==== Sys2Proof/Laws/NotePool.lean ====
section
/-! SUPPORT. What the two passes of RENDER give (R153, R154). -/

namespace Sys2Proof.Machine

theorem mixPass_length (s : State) (tg) (l) (m) : (s.mixPass tg l m).1.length = l.length := by
  induction l generalizing m with
  | nil => rfl
  | cons r rs ih => unfold State.mixPass; split <;> simp [ih]

/-- What RENDER makes of a slot. -/
theorem mixPass_getD (s : State) (tg : Val) (l : List SlotRegs) (m : Mix) (x : Nat) :
    ((s.mixPass tg l m).1.getD x SlotRegs.free = l.getD x SlotRegs.free) ∨
    ((l.getD x SlotRegs.free).sounding = true ∧ (s.mixPass tg l m).1.getD x SlotRegs.free =
      (l.getD x SlotRegs.free).deactivate) := by
  induction l generalizing m x with
  | nil => exact .inl rfl
  | cons r rs ih =>
    unfold State.mixPass
    split
    · cases x with
      | zero =>
        cases h : (s.slotVoice tg r m.draws).fin
        · exact .inl (by simp [h])
        · exact .inr ⟨by simpa, by simp [h]⟩
      | succ x => simpa using ih _ x
    · cases x with
      | zero => exact .inl rfl
      | succ x => simpa using ih _ x

theorem prune_free : SlotRegs.free.prune = SlotRegs.free := by rfl

theorem getD_map_prune (l : List SlotRegs) (x : Nat) : (l.map SlotRegs.prune).getD x SlotRegs.free =
    (l.getD x SlotRegs.free).prune := by
  simp only [List.getD, List.getElem?_map]; cases l[x]? <;> simp [prune_free]

theorem sounding_flags {r : SlotRegs} (h : r.sounding = true) : r.valid = true ∧ r.active = true ∧ r.sinstr ≠ 0xFF#32 := by
  simp [SlotRegs.sounding, nullRef] at h; exact ⟨h.1.1, h.1.2, h.2⟩

theorem deactivate_valid (r : SlotRegs) : r.deactivate.valid = r.valid ∧ r.deactivate.active = false := by
  simp [SlotRegs.deactivate, SlotRegs.valid, SlotRegs.active]

theorem prune_deactivate {r : SlotRegs} (h : r.sounding = true) : r.deactivate.prune = SlotRegs.free := by
  simp [SlotRegs.prune, deactivate_valid, sounding_flags h]

theorem render_slot (s : State) (m : Mix) (x : Nat) (t : State) (h :
    t.slots = (s.mixPass s.lanes.d0 s.slots m).1.map SlotRegs.prune) :
   (t.slot x = (s.slot x).prune) ∨ ((s.slot x).sounding = true ∧ t.slot x = SlotRegs.free) := by
  simp only [State.slot, h, getD_map_prune]
  rcases mixPass_getD s s.lanes.d0 s.slots m x with h | ⟨h, h'⟩
  · exact .inl (by rw [h])
  · exact .inr ⟨h, by rw [h', prune_deactivate h]⟩

theorem freeSlot_invalid {s : State} {x : Nat} (h : s.freeSlot = some x) : x < s.slots.length ∧ (s.slot x).valid = false := by
  unfold State.freeSlot at h
  rw [List.findIdx?_eq_some_iff_getElem] at h
  obtain ⟨hx, h, -⟩ := h
  simp at h
  exact ⟨hx, by simp [State.slot, List.getD, hx, h]⟩

theorem mixPass_congr (s u : State) (hc : u.cfg = s.cfg) (hb : u.basef = s.basef) (hi : u.instrs = s.instrs)
    (tg : Val) (slots : List SlotRegs) (m : Mix) : u.mixPass tg slots m = s.mixPass tg slots m := by
  have hv : ∀ r d, u.slotVoice tg r d = s.slotVoice tg r d := by
    intro r d; simp [State.slotVoice, State.instr, hc, hb, hi]
  induction slots generalizing m with
  | nil => rfl
  | cons r rs ih => simp only [State.mixPass, hv, ih, hc]

/-- The draw counter when slot `x` is met. -/
def drawsAt (s : State) (tg : Val) : List SlotRegs → Nat → Nat → Nat
  | [], d, _ => d
  | _, d, 0 => d
  | r :: rs, d, x + 1 => drawsAt s tg rs (if r.sounding then (s.slotVoice tg r d).draws else d) x

theorem drawsAt_zero (s : State) (tg l d) : drawsAt s tg l d 0 = d := by cases l <;> simp [drawsAt]

theorem drawsAt_succ (s : State) (tg l d x) (hx : x < l.length) :
    drawsAt s tg l d (x + 1) = if (l.getD x SlotRegs.free).sounding then (s.slotVoice tg (l.getD x SlotRegs.free)
      (drawsAt s tg l d x)).draws else drawsAt s tg l d x := by
  induction l generalizing d x with
  | nil => simp at hx
  | cons r rs ih =>
    cases x with
    | zero => simp [drawsAt, drawsAt_zero]
    | succ x => simpa [drawsAt] using ih _ x (by simpa using hx)

theorem mixPass_spec (s : State) (tg : Val) (l : List SlotRegs) (m : Mix) :
    let at_ := drawsAt s tg l m.draws
    let v := fun x => s.slotVoice tg (l.getD x SlotRegs.free) (at_ x)
    let on := fun x => (l.getD x SlotRegs.free).sounding
    (s.mixPass tg l m).2.draws = at_ l.length ∧
    ((s.mixPass tg l m).2.dom = true ↔ m.dom = true ∨ ∃ x < l.length, on x = true ∧ (v x).dom = true) ∧
    (∀ x < l.length, (s.mixPass tg l m).1.getD x SlotRegs.free = if on x = true ∧
      (v x).fin = true then (l.getD x SlotRegs.free).deactivate else l.getD x SlotRegs.free) ∧
    (s.cfg.num = .real → ∀ ρ : Valuation, (s.mixPass tg l m).2.acc.toReal ρ = m.acc.toReal ρ +
      ∑ x ∈ Finset.range l.length, (if on x then (v x).sample.toReal ρ else 0)) := by
  induction l generalizing m with
  | nil => simp [State.mixPass, drawsAt]
  | cons r rs ih =>
    intro at_ v on
    unfold State.mixPass
    split
    · rename_i he
      have hon0 : on 0 = true := he
      obtain ⟨h1, h2, h3, h4⟩ := ih ⟨s.cfg.ops.add m.acc (s.slotVoice tg r m.draws).sample,
        m.dom || (s.slotVoice tg r m.draws).dom, (s.slotVoice tg r m.draws).draws⟩
      have hat : ∀ x, at_ (x + 1) = drawsAt s tg rs (s.slotVoice tg r m.draws).draws x := by intro x; simp [at_, drawsAt, he]
      have hv0 : v 0 = s.slotVoice tg r m.draws := by simp [v, at_, drawsAt_zero]
      have hv : ∀ x, v (x + 1) = s.slotVoice tg (rs.getD x SlotRegs.free) (drawsAt s tg rs
        (s.slotVoice tg r m.draws).draws x) := by intro x; simp only [v, hat]; rfl
      have hon : ∀ x, on (x + 1) = (rs.getD x SlotRegs.free).sounding := fun x => rfl
      refine ⟨by rw [List.length_cons, hat]; exact h1, ?_, ?_, fun hc ρ => ?_⟩
      · simp only [h2, Bool.or_eq_true]
        constructor
        · rintro ((h | h) | ⟨x, hx, h, h'⟩)
          · exact .inl h
          · exact .inr ⟨0, by simp, hon0, by rw [hv0]; exact h⟩
          · exact .inr ⟨x + 1, by simpa using hx, h, by rw [hv]; exact h'⟩
        · rintro (h | ⟨x, hx, h, h'⟩)
          · exact .inl (.inl h)
          · cases x with
            | zero => exact .inl (.inr (by rw [hv0] at h'; exact h'))
            | succ x => exact .inr ⟨x, by simpa using hx, h, by rw [hv] at h'; exact h'⟩
      · intro x hx
        cases x with
        | zero => rw [hv0]; simp [hon0]
        | succ x => rw [hv, hon]; simpa using h3 x (by simpa using hx)
      · rw [h4 hc]
        simp only [List.length_cons, Finset.sum_range_succ', hv, hon, hv0, hon0, ops_real hc, numR_add, toReal_add]
        simp; ring
    · rename_i he
      have hon0 : on 0 = false := by show r.sounding = false; simpa using he
      obtain ⟨h1, h2, h3, h4⟩ := ih m
      have hat : ∀ x, at_ (x + 1) = drawsAt s tg rs m.draws x := by intro x; simp [at_, drawsAt, he]
      have hv : ∀ x, v (x + 1) = s.slotVoice tg (rs.getD x SlotRegs.free)
        (drawsAt s tg rs m.draws x) := by intro x; simp only [v, hat]; rfl
      have hon : ∀ x, on (x + 1) = (rs.getD x SlotRegs.free).sounding := fun x => rfl
      refine ⟨by rw [List.length_cons, hat]; exact h1, ?_, ?_, fun hc ρ => ?_⟩
      · simp only [h2]
        constructor
        · rintro (h | ⟨x, hx, h, h'⟩)
          · exact .inl h
          · exact .inr ⟨x + 1, by simpa using hx, h, by rw [hv]; exact h'⟩
        · rintro (h | ⟨x, hx, h, h'⟩)
          · exact .inl h
          · cases x with
            | zero => rw [hon0] at h; cases h
            | succ x => exact .inr ⟨x, by simpa using hx, h, by rw [hv] at h'; exact h'⟩
      · intro x hx
        cases x with
        | zero => simp [hon0]
        | succ x => rw [hv, hon]; simpa using h3 x (by simpa using hx)
      · simp only [h4 hc, List.length_cons, Finset.sum_range_succ', hv, hon, hon0]
        simp

theorem mixPass_draws (s : State) (tg : Val) (l : List SlotRegs) (hn :
    ∀ r ∈ l, r.sounding = true → ∀ m ∈ (s.instr r.sinstr.toNat).terms, m.isNoise = false) (m : Mix) :
   (s.mixPass tg l m).2.draws = m.draws := by
  induction l generalizing m with
  | nil => rfl
  | cons r rs ih =>
    unfold State.mixPass
    split
    · rename_i h
      rw [ih (fun r hr => hn r (by simp [hr]))]
      exact recipe_draws_noiseFree _ _ _ _ _ (hn r (by simp) h) _
    · exact ih (fun r hr => hn r (by simp [hr])) m

end Sys2Proof.Machine
end

