-- ==== Sys2Proof/Laws/PerInstr.lean ====
section
/-! SUPPORT. For every command: the fields of its word are its opcode and its operands (R81, R82, R84). -/

namespace Sys2Proof.Laws.WordFields

/-- R81, R84: a well-formed command's word carries its opcode in `op`, its index or kind in `x` and its address or `sawPeriod` in
`y`, each used as it stands. -/
def Statement (i : Instr) : Prop :=
  i.wellFormed = true →
    opField (encode i) = i.opcode ∧ xField (encode i) = i.xOf ∧ yField (encode i) = i.yOf

/-- The three fields are read back from the packed word, where each fits. -/
theorem of_fits (i : Instr) (hx : i.xOf < 256) (hy : i.yOf < 65536) : Statement i := fun _ =>
  ⟨opField_packWord (opcode_lt i) hx hy, xField_packWord (opcode_lt i) hx hy, yField_packWord (opcode_lt i) hx hy⟩

theorem of_fitsX (i : Instr) (h : i.wellFormed = true → i.xOf < 256) (hy : i.yOf < 65536) : Statement i :=
  fun w => of_fits i (h w) hy w

theorem of_fitsY (i : Instr) (hx : i.xOf < 256) (h : i.wellFormed = true → i.yOf < 65536) : Statement i :=
  fun w => of_fits i hx (h w) w

theorem nop : Statement .nop := of_fits _ (by decide) (by decide)
theorem oscSin (y : Nat) : Statement (.oscSin y) := of_fitsY _ (by simp [Instr.xOf]) (by simp [Instr.wellFormed, fitsY, Instr.yOf])
theorem oscTri (y : Nat) : Statement (.oscTri y) := of_fitsY _ (by simp [Instr.xOf]) (by simp [Instr.wellFormed, fitsY, Instr.yOf])
theorem oscSqr (y : Nat) : Statement (.oscSqr y) := of_fitsY _ (by simp [Instr.xOf]) (by simp [Instr.wellFormed, fitsY, Instr.yOf])
theorem oscSawa (y : Nat) : Statement (.oscSawa y) := of_fitsY _ (by simp [Instr.xOf]) (by simp [Instr.wellFormed, fitsY, Instr.yOf])
theorem oscSawd (y : Nat) : Statement (.oscSawd y) := of_fitsY _ (by simp [Instr.xOf]) (by simp [Instr.wellFormed, fitsY, Instr.yOf])
theorem oscNoise (y : Nat) : Statement (.oscNoise y) := of_fitsY _ (by simp [Instr.xOf]) (by simp [Instr.wellFormed, fitsY, Instr.yOf])
theorem scale : Statement .scale := of_fits _ (by decide) (by decide)
theorem env (x : Nat) : Statement (.env x) := of_fitsX _ (by simp [Instr.wellFormed, fitsX, Instr.xOf]) (by simp [Instr.yOf])
theorem fltInit (x : Nat) : Statement (.fltInit x) := of_fitsX _ (by simp [Instr.wellFormed, fitsX, Instr.xOf]) (by simp [Instr.yOf])
theorem fltSetf (x : Nat) : Statement (.fltSetf x) := of_fitsX _ (by simp [Instr.wellFormed, fitsX, Instr.xOf]) (by simp [Instr.yOf])
theorem fltLp (x : Nat) : Statement (.fltLp x) := of_fitsX _ (by simp [Instr.wellFormed, fitsX, Instr.xOf]) (by simp [Instr.yOf])
theorem fltHp (x : Nat) : Statement (.fltHp x) := of_fitsX _ (by simp [Instr.wellFormed, fitsX, Instr.xOf]) (by simp [Instr.yOf])
theorem voice (x : Nat) : Statement (.voice x) := of_fitsX _ (by simp [Instr.wellFormed, fitsX, Instr.xOf]) (by simp [Instr.yOf])
theorem addnote (x : Nat) : Statement (.addnote x) := of_fitsX _ (by simp [Instr.wellFormed, fitsX, Instr.xOf]) (by simp [Instr.yOf])
theorem noteoff (x : Nat) : Statement (.noteoff x) := of_fitsX _ (by simp [Instr.wellFormed, fitsX, Instr.xOf]) (by simp [Instr.yOf])
theorem render : Statement .render := of_fits _ (by decide) (by decide)
theorem rd (y : Nat) : Statement (.rd y) := of_fitsY _ (by simp [Instr.xOf]) (by simp [Instr.wellFormed, fitsY, Instr.yOf])
theorem wr (y : Nat) : Statement (.wr y) := of_fitsY _ (by simp [Instr.xOf]) (by simp [Instr.wellFormed, fitsY, Instr.yOf])

end Sys2Proof.Laws.WordFields
end

