-- ==== Sys2Proof/Laws/Waveform.lean ====
section
/-! SUPPORT. For a block whose `NUM` is `NUM_R`: the generator (R100 to R107), the envelope (R120, R121) and the filters (R130 to R133)
on the reals. -/

namespace Sys2Proof.Machine

variable {c : Cfg} (h : c.num = .real) (ρ : Valuation)
include h

theorem toReal_phase (t hz lhz lamp : Val) :
    (phase c t hz lhz lamp).toReal ρ = phaseReal ρ c (t.toReal ρ) (hz.toReal ρ) (lhz.toReal ρ) (lamp.toReal ρ) := by
  simp [phase, phaseReal, ops_real h]

omit ρ in
theorem real_phase (t hz lhz lamp : Val) :
    (phase c t hz lhz lamp).real = phaseReal Config.world c t.real hz.real lhz.real lamp.real := toReal_phase h _ t hz lhz lamp

theorem toReal_sawLoop (p : Val) (m k : Nat) (acc : Val) :
    (sawLoop c p m k acc).toReal ρ = acc.toReal ρ + ∑ j ∈ Finset.Ico k (k + m), waveReal ρ c (p.toReal ρ * (j : ℝ)) / (j : ℝ) := by
  induction m generalizing k acc with
  | zero => simp [sawLoop]
  | succ m ih =>
    simp [sawLoop, ih, ops_real h]
    rw [Finset.sum_eq_sum_Ico_succ_bot (by omega : k < k + (m + 1)), show k + 1 + m = k + (m + 1) by omega]
    ring

/-- R105: the singular point is `t = 0 or hz = 0`. -/
theorem sawdSingular_iff (t hz : Val) : sawdSingular c t hz = true ↔ t.real = 0 ∨ hz.real = 0 := by
  simp [sawdSingular, ops_real h, eq_iff, Val.real]

/-- R107: the pitch. -/
theorem toReal_scale (b : Val) (n : Int) : (scale c b n).toReal ρ = b.toReal ρ * semiReal n := by
  simp [scale, ops_real h]

/-- R130: the coefficient. -/
theorem toReal_filterAlpha (f r : Val) :
    (filterAlpha c f r).toReal ρ = Real.exp (0 - 2 * Real.pi * f.toReal ρ / r.toReal ρ) := by
  simp [filterAlpha, ops_real h]

/-- R132: the low-pass. -/
theorem toReal_lowPass (r : FilterRegs) (x : Val) :
    (lowPass c r x).toReal ρ = (1 - r.alpha.toReal ρ) * x.toReal ρ + r.alpha.toReal ρ * r.prev.toReal ρ := by
  simp [lowPass, ops_real h]

/-- R133: the high-pass. -/
theorem toReal_highPass (r : FilterRegs) (x : Val) :
    (highPass c r x).toReal ρ = r.alpha.toReal ρ * (2 * r.prev.toReal ρ - x.toReal ρ) := by
  simp [highPass, ops_real h]

/-! ## The envelope -/

omit ρ

theorem real_envShape (r : InstrRegs) (age : Val) : (envShape c r age).real = envShapeReal r.envRegs age.real := by
  simp only [envShape, envShapeReal, InstrRegs.envRegs, ops_real h, numR_le, numR_lt, numR_eq, numR_add, le_iff, lt_iff,
    eq_iff, real_add, real_zeroVal, apply_ite Val.real]
  split_ifs <;> simp_all [not_le_of_gt]

theorem real_envRaw (r : InstrRegs) (tg on off : Val) :
    (envRaw c r tg on off).real = envRawReal c.envRel0 r.envRegs tg.real on.real off.real := by
  have hs := real_envShape h r
  simp only [envRaw, envRelease, envRawReal, ops_real h, numR_le, numR_lt, le_iff, lt_iff, gt_iff_lt, ge_iff_le,
    InstrRegs.envRegs, real_zeroVal] at hs ⊢
  cases c.envRel0 <;> (split_ifs <;> simp_all)

/-- R121: for `NUM_R` the envelope is the real one. -/
theorem real_env (r : InstrRegs) (tg on off : Val) :
    (env c r tg on off).real = envReal c.envRel0 r.envRegs tg.real on.real off.real := by
  have hs := real_envRaw h r tg on off
  simp only [env, envClamp, envReal, ops_real h, numR_le, le_iff, ← hs, real_epsEnv]
  split_ifs <;> simp_all

end Sys2Proof.Machine
end

