-- ==== Sys2Proof/Machine/AsmText.lean ====
section
/-! DEFINITION. The text of the host's command lines (R89, R90): comments, operands, numbers, exact expressions, names of registers.
Log entry 9. -/

namespace Sys2Proof.Machine

/-- Blank characters between the parts of a line. -/
def isBlankChar (c : Char) : Bool := c == ' ' || c == '\t'

/-- A text without the blanks at its ends. -/
def trimBlanks (s : List Char) : List Char := ((s.dropWhile isBlankChar).reverse.dropWhile isBlankChar).reverse

/-- R89: operands are separated by commas. -/
def splitCommas : List Char → List (List Char)
  | [] => [[]]
  | c :: cs =>
    match splitCommas cs with
    | [] => [[c]]
    | w :: ws => if c == ',' then [] :: w :: ws else (c :: w) :: ws

/-- The value of a digit, decimal or hexadecimal. -/
def digitVal (c : Char) : Option Nat :=
  if '0' ≤ c ∧ c ≤ '9' then some (c.toNat - 48)
  else if 'A' ≤ c ∧ c ≤ 'F' then some (c.toNat - 55)
  else if 'a' ≤ c ∧ c ≤ 'f' then some (c.toNat - 87)
  else none

/-- A number in a base, from its digits. -/
def readDigits (base : Nat) (s : List Char) (n : Nat) : Option Nat :=
  match s with
  | [] => some n
  | c :: cs =>
    match digitVal c with
    | some d => if d < base then readDigits base cs (n * base + d) else none
    | none => none

/-- R89: a natural number, decimal or `0x` hexadecimal. -/
def readNat (s : List Char) : Option Nat :=
  match s with
  | [] => none
  | ['0', 'x'] => none
  | '0' :: 'x' :: ds => readDigits 16 ds 0
  | ds => readDigits 10 ds 0

/-- R89: an integer operand, decimal or `0x` hexadecimal, that fits 32 bits, read signed or as a bit pattern. -/
def readInt (s : List Char) : Option I32 :=
  match s with
  | '-' :: ds => (readNat ds).bind fun n => if n ≤ 2 ^ 31 then some (BitVec.ofInt 32 (-(n : Int))) else none
  | ds => (readNat ds).bind fun n => if n < 2 ^ 32 then some (BitVec.ofNat 32 n) else none

/-- R89: a decimal number. -/
def readDecimal (s : List Char) : Option Rat :=
  let whole := s.takeWhile (· != '.')
  let frac := (s.dropWhile (· != '.')).drop 1
  if whole.isEmpty then none
  else (readDigits 10 (whole ++ frac) 0).map fun n => mkRat n (10 ^ frac.length)

/-- A part of an exact expression: a number, a name, or an operator or parenthesis. -/
inductive AsmToken where
  | num (q : Rat)
  | word (w : String)
  | sym (c : Char)
  deriving DecidableEq, Repr

/-- A character of a number. -/
def isNumChar (c : Char) : Bool := ('0' ≤ c ∧ c ≤ '9') || c == '.'

/-- A character of a name. -/
def isWordChar (c : Char) : Bool := ('A' ≤ c ∧ c ≤ 'Z') || ('a' ≤ c ∧ c ≤ 'z')

/-- The parts of an expression, at most `n` of them. -/
def lexExpr : Nat → List Char → Option (List AsmToken)
  | _, [] => some []
  | 0, _ :: _ => none
  | n + 1, c :: cs =>
    if isBlankChar c then lexExpr n cs
    else if isNumChar c then
      (readDecimal ((c :: cs).takeWhile isNumChar)).bind fun q =>
        (lexExpr n ((c :: cs).dropWhile isNumChar)).map (AsmToken.num q :: ·)
    else if isWordChar c then
      (lexExpr n ((c :: cs).dropWhile isWordChar)).map (AsmToken.word (String.ofList ((c :: cs).takeWhile isWordChar)) :: ·)
    else if ['+', '-', '*', '/', '(', ')'].contains c then (lexExpr n cs).map (AsmToken.sym c :: ·)
    else none

/-- How tightly the parts of an expression bind (R11). -/
inductive AsmLevel where
  | sum
  | product
  | atom
  deriving DecidableEq, Repr

/-- R11, R89: the value of an expression, left to right; the value before the parts is what stands to the left at this level. DESIGN
CHOICE (log entry 9): a quotient by a number that is zero, however it is written, and the logarithm of a number that is not above
zero are no expression; R89 says nothing of them. -/
def parseExpr : Nat → AsmLevel → Option Val → List AsmToken → Option (Val × List AsmToken)
  | 0, _, _, _ => none
  | n + 1, .sum, none, ts => (parseExpr n .product none ts).bind fun r => parseExpr n .sum (some r.1) r.2
  | n + 1, .sum, some v, .sym '+' :: ts =>
    (parseExpr n .product none ts).bind fun r => parseExpr n .sum (some (NumR.add v r.1)) r.2
  | n + 1, .sum, some v, .sym '-' :: ts =>
    (parseExpr n .product none ts).bind fun r => parseExpr n .sum (some (NumR.sub v r.1)) r.2
  | _ + 1, .sum, some v, ts => some (v, ts)
  | n + 1, .product, none, ts => (parseExpr n .atom none ts).bind fun r => parseExpr n .product (some r.1) r.2
  | n + 1, .product, some v, .sym '*' :: ts =>
    (parseExpr n .atom none ts).bind fun r => parseExpr n .product (some (NumR.mul v r.1)) r.2
  | n + 1, .product, some v, .sym '/' :: ts =>
    (parseExpr n .atom none ts).bind fun r =>
      if NumR.eq r.1 (NumR.lit 0) then none else parseExpr n .product (some (NumR.div v r.1)) r.2
  | _ + 1, .product, some v, ts => some (v, ts)
  | n + 1, .atom, _, .sym '-' :: ts => (parseExpr n .atom none ts).map fun r => (NumR.sub (NumR.lit 0) r.1, r.2)
  | n + 1, .atom, _, .sym '(' :: ts =>
    (parseExpr n .sum none ts).bind fun r =>
      match r.2 with
      | .sym ')' :: rest => some (r.1, rest)
      | _ => none
  | _ + 1, .atom, _, .num q :: ts => some (NumR.lit q, ts)
  | _ + 1, .atom, _, .word "PI" :: ts => some (NumR.pi, ts)
  | n + 1, .atom, _, .word "ln" :: .sym '(' :: ts =>
    (parseExpr n .sum none ts).bind fun r =>
      match r.2 with
      | .sym ')' :: rest => if NumR.lt (NumR.lit 0) r.1 then some (.lnOf r.1, rest) else none
      | _ => none
  | _ + 1, .atom, _, _ => none

/-- R89: a `Val` operand: a decimal number or an exact expression. -/
def readVal (s : List Char) : Option Val :=
  (lexExpr s.length s).bind fun ts =>
    match parseExpr (4 * ts.length + 4) .sum none ts with
    | some (v, []) => some v
    | _ => none

/-- R83, R89: the name of a waveform kind. -/
def readKind (s : List Char) : Option WaveKind :=
  match String.ofList s with
  | "SIN" => some .sin
  | "TRI" => some .tri
  | "SQR" => some .sqr
  | "SAWA" => some .sawa
  | "SAWD" => some .sawd
  | "NOISE" => some .noise
  | _ => none

/-- The indices after a name: `[i]` and `[i][k]`. -/
def readIndices : Nat → List Char → Option (List Nat)
  | _, [] => some []
  | 0, _ :: _ => none
  | n + 1, '[' :: cs =>
    (readNat (cs.takeWhile (· != ']'))).bind fun i =>
      match cs.dropWhile (· != ']') with
      | ']' :: rest => (readIndices n rest).map (i :: ·)
      | _ => none
  | _ + 1, _ => none

/-- R26 to R30: the register that a name and its indices name. -/
def regOfName (name : String) (is : List Nat) : Option RegName :=
  match name, is with
  | "STATUS", [] => some .status
  | "BASEF", [] => some .basef
  | "ACC", [] => some .acc
  | "CAP", [] => some .cap
  | "NVALID", [] => some .nvalid
  | "VOL", [i] => some (.instr i .vol)
  | "MAXLIFE", [i] => some (.instr i .maxLife)
  | "GATE", [i] => some (.instr i .gate)
  | "ATT", [i] => some (.instr i .att)
  | "DEC", [i] => some (.instr i .dec)
  | "SUS", [i] => some (.instr i .sus)
  | "REL", [i] => some (.instr i .rel)
  | "START", [i] => some (.instr i .start)
  | "TCTL", [i, k] => some (.term i k .tctl)
  | "WEIGHT", [i, k] => some (.term i k .weight)
  | "SEMI", [i, k] => some (.term i k .semi)
  | "LFOHZ", [i, k] => some (.term i k .lfoHz)
  | "LFOAMP", [i, k] => some (.term i k .lfoAmp)
  | "SAWP", [i, k] => some (.term i k .sawp)
  | "ALPHA", [f] => some (.filt f .alpha)
  | "PREV", [f] => some (.filt f .prev)
  | "SRATE", [f] => some (.filt f .srate)
  | "CUTOFF", [f] => some (.filt f .cutoff)
  | "SFLAGS", [s] => some (.slot s .sflags)
  | "NID", [s] => some (.slot s .nid)
  | "ONT", [s] => some (.slot s .ont)
  | "OFFT", [s] => some (.slot s .offt)
  | "SINSTR", [s] => some (.slot s .sinstr)
  | _, _ => none

/-- R6: a block of the largest capacities, which has every register that some block has. -/
def largestCfg : Cfg := { Config.cfg with nslots := 255, ninstr := 64, nfilt := 255, nterm := 6 }

/-- R25: a name that some block has. -/
def knownReg (r : RegName) : Option RegName := if r.exists largestCfg then some r else none

/-- R89: a register operand: an address, or a name. -/
def readReg (s : List Char) : Option AsmReg :=
  match readNat s with
  | some a => some (.address a)
  | none =>
    (readIndices 2 (s.dropWhile (· != '['))).bind fun is =>
      ((regOfName (String.ofList (s.takeWhile (· != '['))) is).bind knownReg).map .name

/-- R25, R89: the type of a register operand; an address that no block maps is taken as I-typed (log entry 9). -/
def AsmReg.type : AsmReg → RegType
  | .name r => r.type
  | .address a => ((regAt largestCfg a).map RegName.type).getD .i

/-- R89: the value of a WR line, read by the register's type. -/
def readRegVal (r : AsmReg) (s : List Char) : Option RegVal :=
  match r.type with
  | .v => (readVal s).map .v
  | .i => (readInt s).map .i

/-- R89: the index of an ADDNOTE line: a number, or `NULL`. -/
def readNoteIndex (s : List Char) : Option (Option Nat) :=
  if String.ofList s = "NULL" then some none else (readNat s).map some

/-- R89: an OSC line, with two to five operands. -/
def readOsc (k : WaveKind) (os : List (List Char)) : Option AsmLine :=
  match os with
  | [t, h] => do return .osc k (← readVal t) (← readVal h) none none none
  | [t, h, lh] => do return .osc k (← readVal t) (← readVal h) (← readVal lh) none none
  | [t, h, lh, la] => do return .osc k (← readVal t) (← readVal h) (← readVal lh) (← readVal la) none
  | [t, h, lh, la, p] => do return .osc k (← readVal t) (← readVal h) (← readVal lh) (← readVal la) (← readNat p)
  | _ => none

/-- R90: the term of a TERM or TERMOFF line: an instrument and a term that some block has. -/
def readTerm (i k : List Char) : Option (Nat × Nat) := do
  let i ← readNat i
  let k ← readNat k
  if (RegName.term i k .tctl).exists largestCfg then some (i, k) else none

/-- R89, R90: a line, from its mnemonic and its operands. -/
def readLine (mnemonic : String) (os : List (List Char)) : Option AsmLine :=
  match mnemonic, os with
  | "NOP", [] => some .nop
  | "OSC.SIN", os => readOsc .sin os
  | "OSC.TRI", os => readOsc .tri os
  | "OSC.SQR", os => readOsc .sqr os
  | "OSC.SAWA", os => readOsc .sawa os
  | "OSC.SAWD", os => readOsc .sawd os
  | "OSC.NOISE", os => readOsc .noise os
  | "SCALE", [n] => do return .scale (← readInt n)
  | "ENV", [i, tg, on, off] => do return .env (← readNat i) (← readVal tg) (← readVal on) (← readVal off)
  | "FLT.INIT", [f, c, r] => do return .fltInit (← readNat f) (← readVal c) (← readVal r)
  | "FLT.SETF", [f, c] => do return .fltSetf (← readNat f) (← readVal c)
  | "FLT.LP", [f, tg, x] => do return .fltLp (← readNat f) (← readVal tg) (← readVal x)
  | "FLT.HP", [f, tg, x] => do return .fltHp (← readNat f) (← readVal tg) (← readVal x)
  | "VOICE", [i, n, tg, on, off] => do
    return .voice (← readNat i) (← readInt n) (← readVal tg) (← readVal on) (← readVal off)
  | "ADDNOTE", [i, n, on, off] => do return .addnote (← readNoteIndex i) (← readInt n) (← readVal on) (← readVal off)
  | "NOTEOFF", [s, t] => do return .noteoff (← readNat s) (← readVal t)
  | "RENDER", [tg] => do return .render (← readVal tg)
  | "RD", [r] => do return .rd (← readReg r)
  | "WR", [r, v] => do
    let r ← readReg r
    return .wr r (← readRegVal r v)
  | "RDSTAT", [] => some .rdstat
  | "CLRSTAT", [] => some .clrstat
  | "TERM", [i, k, w] => do
    let t ← readTerm i k
    return .term t.1 t.2 (← readKind w)
  | "TERMOFF", [i, k] => (readTerm i k).map fun t => .termoff t.1 t.2
  | _, _ => none

/-- R89: the line of a text; a `;` starts a comment. -/
def parseLine (text : String) : Option AsmLine :=
  let line := trimBlanks (text.toList.takeWhile (· != ';'))
  let mnemonic := line.takeWhile (fun c => !isBlankChar c)
  let operands := trimBlanks (line.dropWhile (fun c => !isBlankChar c))
  readLine (String.ofList mnemonic) (if operands.isEmpty then [] else (splitCommas operands).map trimBlanks)

/-- R89, R90: the command of a text, where it is a line whose operands fit their fields. -/
def assembleText (text : String) : Option Command :=
  (parseLine text).bind fun l => if l.instr.wellFormed then some l.assemble else none

end Sys2Proof.Machine
end

