-- ==== Sys2Proof/Tests/Slice0.lean ====
section
/-! SUPPORT. Tests of the model (expected results are the spec's own: R82 for words, 95_test_vectors.md for values; the row is
named in each docstring), and for each obligation with hypotheses a witness that something meets them. -/

namespace Sys2Proof.Tests

set_option Elab.async false

open Sys2Proof Sys2Proof.Machine

/-! ## Helpers -/

/-- The rational `q` on a lane. -/
def val (q : Rat) : Val := NumR.lit q

/-- Lanes `N`, `D0`, `D1`, `D2`, with `D3 = 0`. -/
def lanes (n : I32) (d0 d1 d2 : Rat) : Lanes := { n := n, d0 := val d0, d1 := val d1, d2 := val d2, d3 := val 0 }

/-- Lanes `D0` to `D3`. -/
def lanes4 (d0 d1 d2 d3 : Rat) : Lanes := { n := 0#32, d0 := val d0, d1 := val d1, d2 := val d2, d3 := val d3 }

/-- The state after one command. -/
def send (s : State) (w : CmdWord) (l : Lanes) : State :=
  match step { s with inbox := [.command ⟨w, l⟩] } with
  | .next t => t
  | .fault _ => s
  | .refused _ => s

/-- The response to one command. -/
def answer (s : State) (w : CmdWord) (l : Lanes) : Option Response := (send s w l).rsp

/-- A response with `ERR = OK` and only `Q` not zero. -/
def okQ (q : Rat) : Option Response := some ⟨val q, 0#32, false, .ok⟩

/-- A response with an error code that ends the command. -/
def errs (e : Err) : Option Response := some ⟨val 0, 0#32, false, e⟩

/-- Whether the response has `ERR = OK` and its `Q` lies between two rationals. -/
def near (s : State) (w : CmdWord) (l : Lanes) (lo hi : Rat) : Bool :=
  match answer s w l with
  | none => false
  | some r =>
    match NumR.enclose r.q with
    | none => false
    | some x => decide (lo ≤ x.lo) && decide (x.hi ≤ hi) && decide (r.err = .ok)

/-- Instrument 0 of program P1: an ADSR envelope and one square term at `SEMI = -36`. -/
def squareInstr : InstrRegs :=
  { InstrRegs.reset 4 with
    vol := val (1 / 2), att := val 1, dec := val 1, sus := val (1 / 2), rel := val 2, start := val 1,
    terms := { TermRegs.reset with tctl := 10#32, weight := val 1, semi := 0xFFFFFFDC#32 } :: List.replicate 3 TermRegs.reset }

/-- An instrument with one term of kind SAWD (vectors V14, V15). -/
def sawInstr : InstrRegs :=
  { InstrRegs.reset 4 with
    vol := val 1, sus := val 1, start := val 1,
    terms := { TermRegs.reset with tctl := 12#32, weight := val 1, semi := 0xFFFFFFDC#32 } :: List.replicate 3 TermRegs.reset }

/-- After reset, with the two instruments in the table. -/
def programmed : State := (State.reset.setInstr 0 squareInstr).setInstr 2 sawInstr

/-- The note of the spec's pool examples. -/
def heldNote : SlotRegs := { sflags := 3#32, nid := 0#32, ont := val 10, offt := val 0, sinstr := 0#32 }

/-- A note with the null reference (vector K3). -/
def nullNote : SlotRegs := { sflags := 3#32, nid := 7#32, ont := val 1, offt := val 0, sinstr := 0xFF#32 }

/-- The programmed block with a held note in slot 0 and a null note in slot 2. -/
def playing : State := (programmed.setSlot 0 heldNote).setSlot 2 nullNote

/-- The block with a filter unit 0 of `ALPHA = 1/2`, `PREV = p`. -/
def filtering (p : Rat) : State :=
  State.reset.setFilt 0 { alpha := val (1 / 2), prev := val p, srate := val 1, cutoff := val 3 }

/-- A block of two slots, both taken (program P4). -/
def fullPool : State :=
  { State.resetOf { Config.cfg with nslots := 2 } with slots := [heldNote, nullNote] }

/-! ## Well-formedness: an ill-formed term for each check -/

theorem test_ill_formed_y :
    Instr.wellFormed (.oscSin 65536) = false ∧ Instr.wellFormed (.oscTri 65536) = false ∧
    Instr.wellFormed (.oscSqr 65536) = false ∧ Instr.wellFormed (.oscSawa 65536) = false ∧
    Instr.wellFormed (.oscSawd 65536) = false ∧ Instr.wellFormed (.oscNoise 65536) = false ∧
    Instr.wellFormed (.rd 65536) = false ∧ Instr.wellFormed (.wr 65536) = false := by decide

theorem test_ill_formed_x :
    Instr.wellFormed (.env 256) = false ∧ Instr.wellFormed (.fltInit 256) = false ∧
    Instr.wellFormed (.fltSetf 256) = false ∧ Instr.wellFormed (.fltLp 256) = false ∧
    Instr.wellFormed (.fltHp 256) = false ∧ Instr.wellFormed (.voice 256) = false ∧
    Instr.wellFormed (.addnote 256) = false ∧ Instr.wellFormed (.noteoff 256) = false := by decide

theorem test_well_formed_ends :
    Instr.wellFormed (.wr 65535) = true ∧ Instr.wellFormed (.addnote 255) = true ∧ Instr.wellFormed .nop = true := by decide

/-! ## Decoding: words written out from R82 and R89 -/

theorem test_decode_nop : decode 0x00000000#32 = .ok .nop := by decide
theorem test_decode_oscSin : decode 0x10000032#32 = .ok (.oscSin 50) := by decide
theorem test_decode_oscTri : decode 0x10010032#32 = .ok (.oscTri 50) := by decide
theorem test_decode_oscSqr : decode 0x10020032#32 = .ok (.oscSqr 50) := by decide
theorem test_decode_oscSawa : decode 0x10030004#32 = .ok (.oscSawa 4) := by decide
theorem test_decode_oscSawd : decode 0x1004FFFF#32 = .ok (.oscSawd 65535) := by decide
theorem test_decode_oscNoise : decode 0x10050032#32 = .ok (.oscNoise 50) := by decide
theorem test_decode_scale : decode 0x11000000#32 = .ok .scale := by decide
theorem test_decode_env : decode 0x20010000#32 = .ok (.env 1) := by decide
theorem test_decode_fltInit : decode 0x30010000#32 = .ok (.fltInit 1) := by decide
theorem test_decode_fltSetf : decode 0x31010000#32 = .ok (.fltSetf 1) := by decide
theorem test_decode_fltLp : decode 0x32020000#32 = .ok (.fltLp 2) := by decide
theorem test_decode_fltHp : decode 0x33010000#32 = .ok (.fltHp 1) := by decide
theorem test_decode_voice : decode 0x40FF0000#32 = .ok (.voice 0xFF) := by decide
theorem test_decode_addnote : decode 0x50FF0000#32 = .ok (.addnote 0xFF) := by decide
theorem test_decode_noteoff : decode 0x51030000#32 = .ok (.noteoff 3) := by decide
theorem test_decode_render : decode 0x52000000#32 = .ok .render := by decide
theorem test_decode_rd : decode 0x600011ED#32 = .ok (.rd 0x11ED) := by decide
theorem test_decode_wr : decode 0x61001010#32 = .ok (.wr 0x1010) := by decide

/-- X2, X3, X4, X5, X6, K11, E38, F9. -/
theorem test_illegal_words :
    [0x00000001#32, 0x10060000#32, 0x11000001#32, 0x70000000#32, 0xFFFFFFFF#32, 0x12000000#32, 0x34000000#32, 0x53000000#32,
      0x62000000#32, 0x60010000#32, 0x52000001#32, 0x52010000#32, 0x20000001#32, 0x32000001#32].all
      (fun w => !(decode w).isOk) = true := by decide

/-- R90: `OSC.SAWA 0.25, 1` is the word `0x10030032`. -/
theorem test_encode_sawa : encode (.oscSawa 50) = 0x10030032#32 := by decide

/-! ## NOP, the generator and SCALE -/

/-- X1. -/
theorem test_nop : answer State.reset 0x00000000#32 Lanes.zero = okQ 0 := by decide +kernel

/-- X2. -/
theorem test_illegal : answer State.reset 0x00000001#32 Lanes.zero = errs .illegal ∧
    (send State.reset 0x00000001#32 Lanes.zero).status = 1#32 := by decide +kernel

/-- W1. -/
theorem test_oscSin_quarter : answer State.reset 0x10000032#32 (lanes4 1 (1 / 4) 0 0) = okQ 1 := by decide +kernel

/-- W3: `0.8414709848...`. -/
theorem test_oscSin_lfo :
    near State.reset 0x10000032#32 (lanes4 1 1 (1 / 4) 1) (8414709848 / 10 ^ 10) (8414709849 / 10 ^ 10) = true := by decide +kernel

/-- W7. -/
theorem test_oscTri_rising : answer State.reset 0x10010032#32 (lanes4 (1 / 12) 1 0 0) = okQ (1 / 3) := by decide +kernel

/-- W10. -/
theorem test_oscTri_bottom : answer State.reset 0x10010032#32 (lanes4 (3 / 4) 1 0 0) = okQ (-1) := by decide +kernel

/-- W12. -/
theorem test_oscSqr_low : answer State.reset 0x10020032#32 (lanes4 (3 / 4) 1 0 0) = okQ (-1) := by decide +kernel

/-- W14: the sine is zero, which is not above zero. -/
theorem test_oscSqr_zero : answer State.reset 0x10020032#32 (lanes4 (1 / 2) 1 0 0) = okQ (-1) := by decide +kernel

/-- W16: `4 / (3 * PI)`. -/
theorem test_oscSawa_four : answer State.reset 0x10030004#32 (lanes4 (1 / 4) 1 0 0) =
    some ⟨.mono (4 / 3) (-1), 0#32, false, .ok⟩ := by decide +kernel

/-- W20: `sawPeriod = 0` does not wrap. -/
theorem test_oscSawa_empty : answer State.reset 0x10030000#32 (lanes4 (1 / 4) 1 0 0) = okQ 0 := by decide +kernel

/-- W28: `-0.8457172477...`. -/
theorem test_oscSawd_lfo :
    near State.reset 0x10040032#32 (lanes4 (1 / 4) 1 (1 / 2) 1) (-8457172478 / 10 ^ 10) (-8457172477 / 10 ^ 10) = true := by
  decide +kernel

/-- W29. -/
theorem test_oscSawd_singular : answer State.reset 0x10040032#32 (lanes4 0 1 0 0) = errs .domain ∧
    (send State.reset 0x10040032#32 (lanes4 0 1 0 0)).status = 16#32 := by decide +kernel

/-- R106: one draw is taken, and its value is what `Q` holds. -/
theorem test_oscNoise : (send State.reset 0x10050032#32 Lanes.zero).draws = 1 ∧
    answer State.reset 0x10050032#32 Lanes.zero = some ⟨drawVal 0, 0#32, false, .ok⟩ := ⟨rfl, rfl⟩

/-- W35. -/
theorem test_scale_down : answer State.reset 0x11000000#32 (lanes 0xFFFFFFDC#32 0 0 0) = okQ 1 := by decide +kernel

/-- W39: `430.5389646099...`. -/
theorem test_scale_up :
    near State.reset 0x11000000#32 (lanes 69#32 0 0 0) (4305389646099 / 10 ^ 10) (4305389646100 / 10 ^ 10) = true := by
  decide +kernel

/-! ## The envelope and the filters -/

/-- E4: the clamp is `<=`. -/
theorem test_env_clamp : answer programmed 0x20000000#32 (lanes 0#32 (1001 / 100) 10 0) = okQ 0 := by decide +kernel

/-- E20: the release line is extended backwards. -/
theorem test_env_early : answer programmed 0x20000000#32 (lanes 0#32 (21 / 2) 10 (25 / 2)) = okQ 1 := by decide +kernel

/-- F1: cutoff 0 gives `ALPHA = 1`, and the rate is kept. -/
theorem test_fltInit : (send (filtering 1) 0x30000000#32 (lanes 0#32 0 48000 0)).filt 0 =
    { alpha := val 1, prev := val 0, srate := val 48000, cutoff := val 0 } := by decide +kernel

/-- X25. -/
theorem test_fltInit_bad : answer State.reset 0x30030000#32 (lanes 0#32 1 0 0) = errs .badArg := by decide +kernel

/-- P3, step 5. -/
theorem test_fltSetf : (send (filtering (7 / 8)) 0x31000000#32 (lanes 0#32 0 0 0)).filt 0 =
    { alpha := val 1, prev := val (7 / 8), srate := val 1, cutoff := val 0 } := by decide +kernel

/-- P3, step 7. -/
theorem test_fltSetf_bad : answer State.reset 0x31010000#32 (lanes 0#32 5 0 0) = errs .badRef := by decide +kernel

/-- F5. -/
theorem test_fltLp : answer (filtering (1 / 4)) 0x32000000#32 (lanes 0#32 99 (-1) 0) = okQ (-3 / 8) ∧
    ((send (filtering (1 / 4)) 0x32000000#32 (lanes 0#32 99 (-1) 0)).filt 0).prev = val (-3 / 8) := by decide +kernel

/-- F3: a unit never initialised passes the sample on. -/
theorem test_fltLp_reset : answer State.reset 0x32000000#32 (lanes 0#32 0 (7 / 10) 0) = okQ (7 / 10) := by decide +kernel

/-- P3, step 11. -/
theorem test_fltHp : answer (filtering (-1 / 2)) 0x33000000#32 (lanes 0#32 0 1 0) = okQ (-1) := by decide +kernel

/-- F4. -/
theorem test_fltHp_reset : answer State.reset 0x33000000#32 (lanes 0#32 0 (7 / 10) 0) = okQ 0 := by decide +kernel

/-! ## Instruments and the pool -/

/-- V1. -/
theorem test_voice : answer programmed 0x40000000#32 (lanes 0#32 (41 / 4) 10 0) = okQ (1 / 8) := by decide +kernel

/-- V14: DOMAIN, and the other lanes are valid. -/
theorem test_voice_domain : answer programmed 0x40020000#32 (lanes 0#32 5 5 0) = errs .domain ∧
    (send programmed 0x40020000#32 (lanes 0#32 5 5 0)).status = 16#32 := by decide +kernel

/-- K5: slots 0 and 2 are taken. -/
theorem test_addnote : answer playing 0x50000000#32 (lanes 5#32 0 1 0) = some ⟨val 0, 1#32, false, .ok⟩ ∧
    (send playing 0x50000000#32 (lanes 5#32 0 1 0)).slot 1 =
      { sflags := 3#32, nid := 5#32, ont := val 1, offt := val 0, sinstr := 0#32 } := by decide +kernel

/-- X24: BADARG comes before POOLFULL; P4, step 12. -/
theorem test_addnote_full : answer fullPool 0x50090000#32 Lanes.zero = errs .badArg ∧
    answer fullPool 0x50000000#32 (lanes 24#32 0 10 0) = errs .poolFull := by decide +kernel

/-- K6. -/
theorem test_noteoff : (send playing 0x51000000#32 (lanes 0#32 (25 / 2) 0 0)).slot 0 = { heldNote with offt := val (25 / 2) } := by
  decide +kernel

/-- K8, K9. -/
theorem test_noteoff_bad : answer playing 0x51030000#32 (lanes 0#32 1 0 0) = errs .badRef ∧
    answer playing 0x51100000#32 (lanes 0#32 1 0 0) = errs .badArg := by decide +kernel

/-- P1, step 11; K10: the null note stays. -/
theorem test_render : answer playing 0x52000000#32 (lanes 0#32 (41 / 4) 0 0) = okQ (1 / 8) ∧
    (send playing 0x52000000#32 (lanes 0#32 (41 / 4) 0 0)).slots = playing.slots := by decide +kernel

/-- P4, step 13: a note rendered at age 0 is freed before it sounds, and its slot is cleared. -/
theorem test_render_frees : (send playing 0x52000000#32 (lanes 0#32 10 0 0)).slot 0 = SlotRegs.free ∧
    (send playing 0x52000000#32 (lanes 0#32 10 0 0)).nvalid = 1 := by decide +kernel

/-! ## Register access -/

/-- X8, X10. -/
theorem test_rd : answer State.reset 0x60000003#32 Lanes.zero = some ⟨val 0, 0x04020810#32, false, .ok⟩ ∧
    answer State.reset 0x600011ED#32 Lanes.zero = some ⟨val 0, 50#32, false, .ok⟩ := by decide +kernel

/-- X11. -/
theorem test_rd_unmapped :
    [0x60000005#32, 0x60001008#32, 0x60001016#32, 0x60001030#32, 0x60001200#32, 0x60002008#32, 0x60003005#32, 0x60003080#32,
      0x6000FFFF#32].all (fun w => decide (answer State.reset w Lanes.zero = errs .badArg)) = true := by decide +kernel

/-- X18, X19. -/
theorem test_wr_legal :
    answer State.reset 0x61001012#32 (lanes 128#32 0 0 0) = errs .badArg ∧
    answer State.reset 0x61001012#32 (lanes 0xFFFFFF80#32 0 0 0) = okQ 0 ∧
    answer State.reset 0x61001015#32 (lanes 65536#32 0 0 0) = errs .badArg ∧
    answer State.reset 0x61001015#32 (lanes 65535#32 0 0 0) = okQ 0 := by decide +kernel

/-- R7, R27, R130: the order of reals that are no rationals: `ln(2)` is a legal attack and a sample rate above zero, `ln(1/2)` is neither. -/
theorem test_order_ln :
    answer State.reset 0x61001003#32 { Lanes.zero with d0 := .lnOf (val 2) } = okQ 0 ∧
    answer State.reset 0x61001003#32 { Lanes.zero with d0 := .lnOf (val (1 / 2)) } = errs .badArg ∧
    answer State.reset 0x30000000#32 { Lanes.zero with d0 := val 1, d1 := .lnOf (val 2) } = okQ 0 ∧
    answer State.reset 0x30000000#32 { Lanes.zero with d0 := val 1, d1 := .lnOf (val (1 / 2)) } = errs .badArg ∧
    NumR.lt (NumR.exp (val (-1))) (val (1 / 2)) = true := by decide +kernel

/-- X21. -/
theorem test_wr_status : (send { State.reset with status := 0x1B#32 } 0x61000000#32 (lanes 9#32 0 0 0)).status = 0x12#32 := by
  decide +kernel

/-! ## Running: each command row, placed as the host places it, runs first after reset -/

/-- Whether a step answers a next state with a response. -/
def completes (o : Out) : Bool :=
  match o with
  | .next t => t.rsp.isSome
  | .fault _ => false
  | .refused _ => false

theorem test_first_after_reset : opcodeMap.all (fun r => completes (step (State.reset.withFetchWord 32 r.matchBits.toNat))) = true := by
  decide +kernel

theorem test_table_words : opcodeMap.all (fun r =>
    (decodeTableWord 32 r.matchBits.toNat).map Instr.mnemonic == some r.mnemonic) = true := by decide +kernel

/-- R123 with E2, E8, E10, E1, E12: the phases of the envelope of program P1. -/
theorem test_phases : envPhase Config.cfg squareInstr (val 10) (val 10) (val 0) = .attack ∧
    envPhase Config.cfg squareInstr (val (23 / 2)) (val 10) (val 0) = .decay ∧
    envPhase Config.cfg squareInstr (val 13) (val 10) (val 0) = .sustain ∧
    envPhase Config.cfg squareInstr (val 9) (val 10) (val 0) = .pre ∧
    envPhase Config.cfg squareInstr (val (25 / 2)) (val 10) (val (25 / 2)) = .release := by decide +kernel

/-- An enabled sine term of the weight, offset and LFO given. -/
def sineTerm (w : Rat) (semi : I32) (lfoHz lfoAmp : Rat) : TermRegs := ⟨8#32, val w, semi, val lfoHz, val lfoAmp, 50#32⟩

/-- An instrument with three sine terms, the lowest with the LFO given. -/
def threeSines (lfoHz lfoAmp : Rat) : InstrRegs :=
  { InstrRegs.reset 4 with
    terms := [sineTerm 1 12#32 lfoHz lfoAmp, sineTerm (1 / 2) 24#32 0 0, sineTerm (1 / 4) 36#32 0 0, TermRegs.reset] }

/-- R144: a Bell by the spec's table, and the same without its vibrato. -/
theorem test_bell : (threeSines 5 (1 / 1000)).isBell Config.cfg = true ∧ (threeSines 0 0).isBell Config.cfg = false := by decide +kernel

/-! ## The assembler and the host agent (95_test_vectors.md section 1, section 7, program P1) -/

/-- S9, R90: an OSC line without its optional operands. -/
theorem test_assemble_defaults : (AsmLine.osc .sawa (val (1 / 4)) (val 1) none none none).assemble =
    ⟨0x10030032#32, lanes4 (1 / 4) 1 0 0⟩ := by decide +kernel

/-- R90, P1 step 9: the pseudo-commands. -/
theorem test_assemble_pseudo : AsmLine.clrstat.assemble = ⟨0x61000000#32, lanes 31#32 0 0 0⟩ ∧
    (AsmLine.term 0 0 .sqr).assemble = ⟨0x61001010#32, lanes 10#32 0 0 0⟩ ∧
    AsmLine.rdstat.assemble.word = 0x60000000#32 := by decide +kernel

/-- S9, W7, F2, P1 steps 8 and 9, P2 step 12, X23, program P3 step 1: lines of text. -/
theorem test_text : assembleText "OSC.SAWA 0.25, 1" = some ⟨0x10030032#32, lanes4 (1 / 4) 1 0 0⟩ ∧
    assembleText "OSC.TRI 1/12, 1 ; rising" = some ⟨0x10010032#32, lanes4 (1 / 12) 1 0 0⟩ ∧
    assembleText "FLT.INIT 0, 1, 2*PI" = some ⟨0x30000000#32, ⟨0#32, val 1, .mono 2 1, val 0, val 0⟩⟩ ∧
    assembleText "WR SEMI[0][0], -36" = some ⟨0x61001012#32, lanes 0xFFFFFFDC#32 0 0 0⟩ ∧
    assembleText "TERM 0, 0, SQR" = some ⟨0x61001010#32, lanes 10#32 0 0 0⟩ ∧
    assembleText "ADDNOTE NULL, 7, 1, 0" = some ⟨0x50FF0000#32, lanes 7#32 0 1 0⟩ ∧
    assembleText "WR STATUS, 0xFFFFFFE0" = some ⟨0x61000000#32, lanes 0xFFFFFFE0#32 0 0 0⟩ ∧
    (assembleText "FLT.INIT 0, ln(2)/(2*PI), 1").map (fun c => c.lanes.d0) =
      some (.quotOf (.lnOf (.mono 2 0)) (.mono 2 1)) := by decide +kernel

/-- Lines that are none: an operand beyond its field, a missing operand, a register no block has, a
division by a zero, however it is written, and a logarithm of zero (log entry 9). -/
theorem test_text_bad : assembleText "OSC.SAWA 0, 1, 0, 0, 65536" = none ∧ assembleText "SCALE" = none ∧
    assembleText "RD VOL[64]" = none ∧ assembleText "SCALE 1 2" = none ∧ assembleText "RENDER 1/0" = none ∧
    assembleText "RENDER 1/ln(1)" = none ∧ assembleText "RENDER 1/(ln(2)-ln(2))" = none ∧ assembleText "RENDER ln(0)" = none := by decide +kernel

/-- S5: one channel with triggers at steps 0, 4, 8 and 12. -/
def fourOnTheFloor : Sequencer :=
  { Sequencer.create 4 4 (val 120) 'X' 0#32 with
    channels := [⟨1, ['X', '.', '.', '.', 'X', '.', '.', '.', 'X', '.', '.', '.', 'X', '.', '.', '.']⟩] }

/-- The Sequencer after a call. -/
def Advance.seq : Advance → Option Sequencer
  | .done q _ => some q
  | .unfinished => none
  | .refused => none

/-- S5: one call that crosses four steps, one that crosses all sixteen, and one that crosses none. -/
theorem test_advance_counts : (fourOnTheFloor.advance (numR .exact) 20 (val (1 / 2))).triggeredCount = some 1 ∧
    (fourOnTheFloor.advance (numR .exact) 20 (val 2)).triggeredCount = some 4 ∧
    (Advance.seq (fourOnTheFloor.advance (numR .exact) 20 (val (1 / 10)))).map (fun q => (q.clock, q.currentStep)) =
      some (val (1 / 10), 0) := by decide +kernel

/-- U23: a negative time is refused. -/
theorem test_advance_refused : fourOnTheFloor.advance (numR .exact) 20 (val (-1)) = .refused := by decide +kernel

/-- R178: a note at a pitch of the caller's goes to the block as ADDNOTE; a number that is no reference makes no command
(log entry 8). -/
theorem test_submit :
    (((⟨5#32, true, 0xFF⟩ : SeqNote).withPitch 7#32).submit zeroVal (val 1)).map (fun k => (k.word, k.lanes.n)) =
      some (0x50FF0000#32, 7#32) ∧ (⟨5#32, true, 0x100⟩ : SeqNote).submit zeroVal zeroVal = none := by decide +kernel

/-- R170: the integers of SAWA are exact in a record of which nothing else is known. -/
theorem test_ofInt_exact : (Cfg.ops { Config.cfg with num := .other 0 }).ofInt 65534 = val 65534 := by decide +kernel

/-- R179: a short pattern is refused. -/
theorem test_register : fourOnTheFloor.register ⟨0, ['X']⟩ = none := by decide +kernel

/-! ## Witnesses: for each obligation with hypotheses, a state and operands that meet all of them -/

/-- What RENDER makes of a state. -/
def rendered (s : State) : State :=
  match exec .render s with
  | .next t => t
  | .fault _ => s
  | .refused _ => s

/-- `playing`, with lanes. -/
def playingAt (l : Lanes) : State := { playing with lanes := l }

/-- A state with one command on its port. -/
def asked (s : State) (w : CmdWord) : State := { s with inbox := [.command ⟨w, Lanes.zero⟩, .rst] }

theorem witness_DecodeOfEncodeIsTheCommand : Instr.wellFormed (.oscSawa 65535) = true ∧ Instr.wellFormed (.voice 255) = true := by
  decide

theorem witness_EncodeOfDecodedCommandIsTheWord : decode 0x61001010#32 = .ok (.wr 0x1010) := by decide

theorem witness_StepRunsTheDecodedCommand :
    (asked playing 0x52000000#32).inbox = .command ⟨0x52000000#32, Lanes.zero⟩ :: [.rst] ∧
    decode 0x52000000#32 = .ok .render := ⟨rfl, by decide⟩

theorem witness_IllegalWordSetsOnlyIll :
    (asked playing 0x10060000#32).inbox = .command ⟨0x10060000#32, Lanes.zero⟩ :: [.rst] ∧
    decode 0x10060000#32 = .illegal .reservedKind := ⟨rfl, by decide⟩

theorem witness_ResetGivesTheResetValues :
    (send playing 0x61000001#32 (lanes 0#32 440 0 0)).basef = val 440 ∧ playing.cfg.legal = true ∧
    { playing with inbox := [.rst] }.inbox = .rst :: [] ∧ RegName.exists playing.cfg (.term 7 3 .sawp) = true ∧
    RegName.exists playing.cfg .cap = true ∧ RegName.exists playing.cfg (.slot 15 .offt) = true := by decide +kernel

theorem witness_IdleBlockStaysAsItIs : playing.inbox = [] := rfl

theorem witness_EveryCommandGivesOneResponse :
    (asked State.reset 0x70000000#32).inbox = .command ⟨0x70000000#32, Lanes.zero⟩ :: [.rst] := rfl

theorem witness_StepKeepsTheInvariant :
    (asked playing 0x51000000#32).wf = true ∧ ∃ t, step (asked playing 0x51000000#32) = .next t := ⟨by decide +kernel, _, rfl⟩

theorem witness_NoStepChangesAParameter : (∃ t, step (asked fullPool 0x50000000#32) = .next t) ∧
    ∃ t, stepWith Config.cfg (asked fullPool 0x50000000#32) = .next t := ⟨⟨_, rfl⟩, _, rfl⟩

/-- Settled slots, and a reset of slots that are not. -/
theorem witness_SlotsStaySettled :
    ((∀ r ∈ (asked playing 0x50000000#32).slots, r.settled = true) ∧ ∃ t, step (asked playing 0x50000000#32) = .next t) ∧
    ∃ s t : State, (∃ r ∈ s.slots, r.settled = false) ∧ (∃ rest, s.inbox = .rst :: rest) ∧ step s = .next t :=
  ⟨⟨by decide +kernel, _, rfl⟩,
    { State.reset with slots := [{ SlotRegs.free with sflags := 1#32 }], inbox := [.rst] }, _,
    ⟨_, List.mem_singleton_self _, rfl⟩, ⟨_, rfl⟩, rfl⟩

/-- A NOTEOFF on a free slot, and an illegal word. -/
theorem witness_AnEndingErrorChangesOnlyItsFlag :
    (∃ t r, step (asked playing 0x51030000#32) = .next t ∧ t.rsp = some r ∧ r.err.ends = true) ∧
    ∃ t r, step (asked playing 0x70000000#32) = .next t ∧ t.rsp = some r ∧ r.err.ends = true :=
  ⟨⟨_, ⟨zeroVal, 0#32, false, .badRef⟩, rfl, by decide +kernel, rfl⟩,
    ⟨_, ⟨zeroVal, 0#32, false, .illegal⟩, rfl, by decide +kernel, rfl⟩⟩

theorem witness_StatusFollowsTheErrorCode :
    ∃ t r, exec (.fltSetf 1) playing = .next t ∧ t.rsp = some r ∧ r.err = .badRef ∧ Instr.fltSetf 1 ≠ .wr 0x0000 ∧
      Err.code .badRef = 4#3 :=
  ⟨send playing 0x31010000#32 Lanes.zero, ⟨zeroVal, 0#32, false, .badRef⟩, rfl, rfl, rfl, by decide, rfl⟩

theorem witness_EachCommandHasItsErrorCodes :
    ∃ t r, exec (.oscSawd 50) playing = .next t ∧ t.rsp = some r ∧ r.err = .domain :=
  ⟨send playing 0x10040032#32 Lanes.zero, ⟨val 0, 0#32, false, .domain⟩, rfl, by decide +kernel, rfl⟩

theorem witness_OtherRegistersReadAsBefore :
    (∃ t, exec (.wr 0x1010) playing = .next t) ∧ regAt playing.cfg 0x1011 = some (.term 0 0 .weight) ∧
    RegName.term 0 0 .weight ≠ .status ∧ mayWrite playing (.wr 0x1010) (.term 0 0 .weight) = false ∧
    mayWrite playing .render (.slot 1 .ont) = false ∧ mayWrite playing (.noteoff 0) (.slot 0 .ont) = false :=
  ⟨⟨_, rfl⟩, by decide +kernel⟩

theorem witness_OnlyRenderFreesASlot :
    exec .render (playingAt (lanes 0#32 10 0 0)) = .next (rendered (playingAt (lanes 0#32 10 0 0))) ∧
    0 < playing.slots.length ∧ ((playingAt (lanes 0#32 10 0 0)).slot 0).valid = true ∧
    ((rendered (playingAt (lanes 0#32 10 0 0))).slot 0).valid = false := ⟨rfl, by decide +kernel⟩

theorem witness_UnusedOperandsHaveNoEffect :
    (laneUse playing.cfg (.fltLp 0)).agree (lanes 0#32 1 2 3) (lanes 9#32 8 2 7) ∧
    (laneUse playing.cfg (.wr 0x1000)).agree (lanes 0#32 1 2 3) (lanes 9#32 1 6 7) ∧
    (laneUse playing.cfg (.wr 0x1010)).agree (lanes 9#32 1 2 3) (lanes 9#32 5 6 7) := by
  unfold LaneUse.agree; decide +kernel

theorem witness_RenderAndVoiceIgnoreTheFilters :
    (Instr.render = .render ∨ ∃ x, Instr.render = .voice x) ∧ (Instr.voice 0 = .render ∨ ∃ x, Instr.voice 0 = .voice x) :=
  ⟨.inl rfl, .inr ⟨0, rfl⟩⟩

theorem witness_TheAddressMapIsExact : Config.cfg.legal = true ∧
    Cfg.legal { Config.cfg with nslots := 255, ninstr := 64, nfilt := 0, nterm := 6 } = true := by decide

theorem witness_OscTriGivesTheTriangle : State.reset.cfg.num = .real ∧ State.reset.cfg.waveImpl = .exact := ⟨rfl, rfl⟩

/-- The clauses on values of the commands that have no other premise (OSC.SIN, OSC.SQR, OSC.SAWA, SCALE, FLT.LP, FLT.HP, RENDER). -/
theorem witness_ReferenceBlock : playing.cfg.num = .real ∧ (filtering 1).cfg.num = .real := ⟨rfl, rfl⟩

/-- Each clause at an end: a divisor that is not zero, the exact sine, both ends of the domain of `asin`. -/
theorem witness_TheReferenceRecordIsExact (ρ : Valuation) :
    (val (-1)).toReal ρ ≠ 0 ∧ WaveImpl.exact = .exact ∧ -1 ≤ (val (-1)).toReal ρ ∧ (val (-1)).toReal ρ ≤ 1 ∧
    -1 ≤ (val 1).toReal ρ ∧ (val 1).toReal ρ ≤ 1 := by
  simp [val]

theorem witness_PlainSquareIsTheSignOfTheSine :
    (playingAt (lanes4 (3 / 4) 1 0 0)).cfg.num = .real ∧ (playingAt (lanes4 (3 / 4) 1 0 0)).cfg.waveImpl = .exact ∧
    (playingAt (lanes4 (3 / 4) 1 0 0)).lanes.d3.real = 0 := ⟨rfl, rfl, by simp [playingAt, lanes4, val]⟩

/-- Away from the singular point, and at it for a zero time, a zero pitch, and a zero that is written as a difference. -/
theorem witness_OscSawdGivesTheClosedForm :
    (playing.cfg.ops.eq (lanes4 (-1 / 4) 1 0 0).d0 (NumR.lit 0) = false ∧
      playing.cfg.ops.eq (lanes4 (-1 / 4) 1 0 0).d1 (NumR.lit 0) = false) ∧
    playing.cfg.ops.eq (lanes4 0 1 0 0).d0 (NumR.lit 0) = true ∧ playing.cfg.ops.eq (lanes4 1 0 0 0).d1 (NumR.lit 0) = true ∧
    playing.cfg.ops.eq (NumR.sub (NumR.add NumR.pi (val 1)) (NumR.add (val 1) NumR.pi)) (NumR.lit 0) = true := by
  refine ⟨by decide +kernel, by decide +kernel, by decide +kernel, ?_⟩
  rw [ops_real rfl, numR_eq, eq_iff]
  simp [val]; ring

/-- An instrument with instant attack and no release (vectors E23 to E30). -/
def drumInstr : InstrRegs := { InstrRegs.reset 4 with dec := val 1, sus := val (1 / 2), start := val 1 }

theorem witness_EnvGivesTheAmplitude : 0 < playing.cfg.ninstr ∧ playing.cfg.num = .real := by decide

theorem witness_EnvOutputIsZeroOrAudible : 7 < playing.cfg.ninstr ∧ playing.cfg.num = .real := by decide

/-- Inside a ramp, at the end of a ramp, and at the one point of an instant attack. -/
theorem witness_AttackIsLinearAndReachesStart :
    Config.cfg.num = .real ∧ (val 10).real > (val 0).real ∧
    (0 ≤ (val (21 / 2)).real - (val 10).real ∧ (val (21 / 2)).real - (val 10).real ≤ squareInstr.att.real ∧
      0 < squareInstr.att.real) ∧
    (val 11).real - (val 10).real = squareInstr.att.real ∧ (val 10).real - (val 10).real = drumInstr.att.real := by
  refine ⟨rfl, ?_, ?_, ?_, ?_⟩ <;> norm_num [val, squareInstr, drumInstr, InstrRegs.reset]

theorem witness_SustainIsExact :
    Config.cfg.num = .real ∧ (val 10).real > (val 0).real ∧ 0 ≤ squareInstr.dec.real ∧
    squareInstr.att.real + squareInstr.dec.real < (val 13).real - (val 10).real ∧ 1 / 100 < squareInstr.sus.real := by
  refine ⟨rfl, ?_, ?_, ?_, ?_⟩ <;> norm_num [val, squareInstr, InstrRegs.reset]

/-- A release of two seconds, and none. -/
theorem witness_ReleaseEndsInSilence :
    Config.cfg.num = .real ∧ (val 10).real ≤ (val (25 / 2)).real ∧
    (0 < squareInstr.rel.real ∧ (val (29 / 2)).real = (val (25 / 2)).real + squareInstr.rel.real) ∧
    (drumInstr.rel.real = 0 ∧ Config.cfg.envRel0 = .zero ∧ (val (25 / 2)).real = (val (25 / 2)).real + drumInstr.rel.real) := by
  refine ⟨rfl, ?_, ⟨?_, ?_⟩, ?_, rfl, ?_⟩ <;> norm_num [val, squareInstr, drumInstr, InstrRegs.reset]

theorem witness_FltInitConstructsTheUnit :
    1 < playing.cfg.nfilt ∧ playing.cfg.ops.le (playingAt (lanes 0#32 (-1) 48000 0)).lanes.d1 (NumR.lit 0) = false := by decide +kernel

theorem witness_FltSetfKeepsPrev :
    0 < (filtering 1).cfg.nfilt ∧ (filtering 1).cfg.ops.eq ((filtering 1).filt 0).srate (NumR.lit 0) = false := by decide +kernel

theorem witness_FltLpAppliesItsFormula : 1 < (filtering 1).cfg.nfilt := by decide

theorem witness_FltHpAppliesItsFormula : 1 < State.reset.cfg.nfilt := by decide

/-- The states of a run of FLT.LP on unit 0, the sample 1 on the port each time. -/
def lpRun : Nat → State
  | 0 => { filtering 0 with lanes := lanes 0#32 0 1 0 }
  | k + 1 => (lpRun k).applyFilter 0 (lowPass Config.cfg ((lpRun k).filt 0) (lpRun k).lanes.d1)

theorem lpRun_cfg (k : Nat) : (lpRun k).cfg = Config.cfg := by
  induction k with
  | zero => rfl
  | succ k ih => exact ih

theorem witness_LowPassStepResponse :
    (lpRun 0).cfg.num = .real ∧ 0 < (lpRun 0).cfg.nfilt ∧ 0 < (lpRun 0).filters.length ∧ ((lpRun 0).filt 0).alpha = val (1 / 2) ∧
    ((lpRun 0).filt 0).prev = NumR.lit 0 ∧ (lpRun 0).lanes.d1 = NumR.lit 1 ∧
    ∀ k, exec (.fltLp 0) (lpRun k) = .next (lpRun (k + 1)) := by
  refine ⟨rfl, by decide, by decide, rfl, rfl, rfl, fun k => ?_⟩
  simp only [exec, execFltLp, lpRun_cfg]; rfl

/-- Each clause at the edge of its range: index 8 of 8, the null reference, unit 2 of 2, the rate 0, the reset unit. -/
theorem witness_UnitOperandErrors :
    playing.cfg.ninstr ≤ 8 ∧ playing.cfg.ninstr ≤ 0xFF ∧ playing.cfg.nfilt ≤ 2 ∧
    (1 < playing.cfg.nfilt ∧ playing.cfg.ops.le (lanes 0#32 1 0 0).d1 (NumR.lit 0) = true) ∧
    (1 < playing.cfg.nfilt ∧ playing.cfg.ops.eq (playing.filt 1).srate (NumR.lit 0) = true) := by decide +kernel

theorem witness_VoiceRendersOneNote : 0 < playing.cfg.ninstr ∧ 2 < playing.cfg.ninstr := by decide

/-- A square, and a digital sawtooth that is at its singular point at the age 0. -/
theorem witness_RecipeIsTheWeightedSum : (∀ m ∈ squareInstr.terms, tctlKind m.tctl ≤ 5) ∧
    (∀ m ∈ sawInstr.terms, tctlKind m.tctl ≤ 5) ∧ (recipeSum Config.cfg (val 8) (val 0) 0 sawInstr.terms 0).dom = true ∧
    Config.cfg.num = .real := by decide +kernel

theorem witness_AddnoteTakesTheLeastFreeSlot :
    (7 < playing.cfg.ninstr ∨ 7 = 0xFF) ∧ (0xFF < playing.cfg.ninstr ∨ 0xFF = 0xFF) ∧ 1 < playing.slots.length ∧
    (playing.slot 1).valid = false ∧ ∀ y < 1, (playing.slot y).valid = true := by decide +kernel

theorem witness_NoteoffMovesTheReleasePoint : 2 < playing.cfg.nslots ∧ (playing.slot 2).valid = true := by decide +kernel

/-- Each clause at the edge of its range: index 8 and 0xFE, a full pool with index 7 and the null reference, slot 16 of 16, a free
slot. -/
theorem witness_PoolErrors :
    (playing.cfg.ninstr ≤ 8 ∧ 8 ≠ 0xFF) ∧ (playing.cfg.ninstr ≤ 0xFE ∧ 0xFE ≠ 0xFF) ∧
    ((7 < fullPool.cfg.ninstr ∨ 7 = 0xFF) ∧ ∀ r ∈ fullPool.slots, r.valid = true) ∧
    (0xFF < fullPool.cfg.ninstr ∨ 0xFF = 0xFF) ∧ playing.cfg.nslots ≤ 16 ∧
    (15 < playing.cfg.nslots ∧ (playing.slot 15).valid = false) := by decide +kernel

/-- A pool in which the note in slot 0 finishes at time 10 and the null note in slot 2 does not. -/
theorem witness_RenderMixesAndPrunes : (∀ r ∈ (playingAt (lanes 0#32 10 0 0)).slots, r.settled = true) ∧
    ((playingAt (lanes 0#32 10 0 0)).slot 0).sounding = true ∧ ((playingAt (lanes 0#32 10 0 0)).slot 2).sounding = false ∧
    ((playingAt (lanes 0#32 10 0 0)).slotVoice (val 10) heldNote 0).fin = true := by decide +kernel

theorem witness_RenderOfAnEmptyPoolIsZero : ∀ r ∈ programmed.slots, r = SlotRegs.free := by decide +kernel

/-- The held note sounds at time 10.25, ends in no free slot, and its one term is a square. -/
theorem witness_RenderIsIdempotent :
    exec .render (playingAt (lanes 0#32 (41 / 4) 0 0)) = .next (rendered (playingAt (lanes 0#32 (41 / 4) 0 0))) ∧
    (rendered (playingAt (lanes 0#32 (41 / 4) 0 0))).slots = (playingAt (lanes 0#32 (41 / 4) 0 0)).slots ∧
    (playingAt (lanes 0#32 (41 / 4) 0 0)).noiseFree := by
  refine ⟨rfl, by decide +kernel, ?_⟩
  unfold State.noiseFree
  decide +kernel

theorem witness_NullNotesAreNeverRemoved :
    (∃ t, exec .render playing = .next t) ∧ 2 < playing.slots.length ∧ (playing.slot 2).sflags = 3#32 ∧
    (playing.slot 2).sinstr = 0xFF#32 := ⟨⟨_, rfl⟩, by decide +kernel⟩

theorem witness_RdReadsOneRegister :
    regAt playing.cfg 0x0001 = some .basef ∧ regAt playing.cfg 0x307C = some (.slot 15 .sinstr) := by decide

/-- An unmapped address, a read-only register, and an illegal value of a register that can be written. -/
theorem witness_RegisterAccessErrors :
    regAt playing.cfg 0x0005 = none ∧ regAt playing.cfg 0x11F0 = none ∧
    regAt playing.cfg 0x0002 = some .acc ∧ regAt playing.cfg 0x2007 = some (.filt 1 .cutoff) ∧
    regAt playing.cfg 0x3000 = some (.slot 0 .sflags) ∧
    (regAt playing.cfg 0x1002 = some (.instr 0 .gate) ∧ RegName.legal (.instr 0 .gate) Config.cfg 2#32 (val 0) = false) ∧
    (regAt playing.cfg 0x1003 = some (.instr 0 .att) ∧ RegName.legal (.instr 0 .att) Config.cfg 0#32 (val (-1)) = false) := by decide +kernel

theorem witness_WrWritesOneRegister :
    playing.wf = true ∧ regAt playing.cfg 0x11ED = some (.term 7 3 .sawp) ∧ regAt playing.cfg 0x0001 = some .basef ∧
    RegName.legal (.term 7 3 .sawp) Config.cfg 65535#32 (val 0) = true ∧
    regAt playing.cfg 0x1006 = some (.instr 0 .rel) ∧ RegName.legal (.instr 0 .rel) Config.cfg 0#32 (val 0) = true := by decide +kernel

/-- The ends of each range: legal on one side, not legal on the other. -/
theorem witness_LegalValuesAreThoseOfR168 :
    RegName.legal (.instr 0 .gate) Config.cfg 1#32 (val 0) = true ∧ RegName.legal (.instr 0 .gate) Config.cfg 2#32 (val 0) = false ∧
    RegName.legal (.instr 0 .dec) Config.cfg 0#32 (val 0) = true ∧ RegName.legal (.instr 0 .dec) Config.cfg 0#32 (val (-1)) = false ∧
    RegName.legal (.term 0 0 .tctl) Config.cfg 13#32 (val 0) = true ∧ RegName.legal (.term 0 0 .tctl) Config.cfg 14#32 (val 0) = false ∧
    RegName.legal (.term 0 0 .tctl) Config.cfg 16#32 (val 0) = false ∧
    RegName.legal (.term 0 0 .semi) Config.cfg 127#32 (val 0) = true ∧ RegName.legal (.term 0 0 .semi) Config.cfg 128#32 (val 0) = false ∧
    RegName.legal (.term 0 0 .sawp) Config.cfg 65535#32 (val 0) = true ∧ RegName.legal (.term 0 0 .sawp) Config.cfg 65536#32 (val 0) = false ∧
    RegName.basef ∉ [.instr 0 .gate, .instr 0 .att, .instr 0 .dec, .instr 0 .rel, .term 0 0 .tctl, .term 0 0 .semi,
      .term 0 0 .sawp] := by decide +kernel

theorem witness_AssembledLinesDecode : (AsmLine.addnote none 7#32 (val 1) (val 0)).instr.wellFormed = true ∧
    (AsmLine.wr (.name (.term 7 3 .tctl)) (.i 13#32)).instr.wellFormed = true ∧
    (AsmLine.osc .sawa (val 0) (val 1) none none (some 65535)).instr.wellFormed = true := by decide

/-- A call that can cross two steps, a call of length 0, and the ways to be refused. -/
theorem witness_AdvanceCrossesEachStepOnce :
    (fourOnTheFloor.ok (numR .exact) = true ∧ 0 ≤ fourOnTheFloor.clock.real ∧ 0 ≤ (val (1 / 4)).real ∧ 0 ≤ (val 0).real) ∧
    (val (-1)).real < 0 ∧ (Sequencer.create 4 4 (val 0) 'X' 0#32).tempo.real ≤ 0 ∧
    (Sequencer.create 4 0 (val 1) 'X' 0#32).subBeats = 0 ∧ (Sequencer.create 0 4 (val 1) 'X' 0#32).beats = 0 := by
  refine ⟨⟨by decide +kernel, ?_⟩, ?_⟩ <;> norm_num [fourOnTheFloor, Sequencer.create, val]

theorem witness_TheSequencerCycleCloses :
    fourOnTheFloor.ok (numR .exact) = true ∧ 0 ≤ fourOnTheFloor.clock.real ∧
    fourOnTheFloor.clock.real < 60 / fourOnTheFloor.tempo.real / (fourOnTheFloor.subBeats : ℝ) ∧
    fourOnTheFloor.beats = 4 ∧ fourOnTheFloor.subBeats = 4 ∧ fourOnTheFloor.tempo.real = 120 ∧ fourOnTheFloor.clock.real = 0 ∧
    fourOnTheFloor.currentStep = 0 ∧ (val (1 / 8)).real = 1 / 8 ∧
    ∃ c, fourOnTheFloor.channels = [c] ∧ ∀ i < 16, c.pattern[i]? = some fourOnTheFloor.trig ↔ i ∈ [0, 4, 8, 12] := by
  refine ⟨by decide +kernel, ?_, ?_, rfl, rfl, ?_, ?_, rfl, ?_, _, rfl, by decide⟩ <;>
    norm_num [fourOnTheFloor, Sequencer.create, val]

end Sys2Proof.Tests
end

section
/-! ## What a step does, by the input at the head of the port, and the parameter record -/

namespace Sys2Proof.Machine

/-- R200: with an empty port the block stays ready. -/
theorem step_of_nil {s : State} (h : s.inbox = []) : step s = .next s.idle := by
  simp only [step, h]

/-- R210: `rst` at the head of the port resets the block. -/
theorem step_of_rst {s : State} {rest : List HostInput} (h : s.inbox = .rst :: rest) :
    step s = .next (s.takeReset rest) := by
  simp only [step, h]

/-- R12, R68: a command whose word decodes is executed on its own lanes. -/
theorem step_of_decode_ok {s : State} {c : Command} {rest : List HostInput} {i : Instr}
    (h : s.inbox = .command c :: rest) (hd : decode c.word = .ok i) : step s = exec i (s.accept c rest) := by
  simp only [step, h, hd]

/-- R86: a command whose word is illegal is an error of that command. -/
theorem step_of_decode_illegal {s : State} {c : Command} {rest : List HostInput} {why : IllegalWord}
    (h : s.inbox = .command c :: rest) (hd : decode c.word = .illegal why) :
    step s = .next (s.accept c rest).illegalWord := by
  simp only [step, h, hd]

/-- What a step can do, said once: idle, reset, execute a command, or answer an illegal word. -/
theorem step_cases {s t : State} (h : step s = .next t) :
    (s.inbox = [] ∧ t = s.idle) ∨
    (∃ rest, s.inbox = .rst :: rest ∧ t = s.takeReset rest) ∨
    (∃ c rest i, s.inbox = .command c :: rest ∧ decode c.word = .ok i ∧ exec i (s.accept c rest) = .next t) ∨
    (∃ c rest why, s.inbox = .command c :: rest ∧ decode c.word = .illegal why ∧
      t = (s.accept c rest).illegalWord) := by
  match hb : s.inbox with
  | [] => exact .inl ⟨rfl, next_inj (h.symm.trans (step_of_nil hb))⟩
  | .rst :: rest => exact .inr (.inl ⟨rest, rfl, next_inj (h.symm.trans (step_of_rst hb))⟩)
  | .command c :: rest =>
    match hd : decode c.word with
    | .ok i => exact .inr (.inr (.inl ⟨c, rest, i, rfl, hd, (step_of_decode_ok hb hd).symm.trans h⟩))
    | .illegal why =>
      exact .inr (.inr (.inr ⟨c, rest, why, rfl, hd, next_inj (h.symm.trans (step_of_decode_illegal hb hd))⟩))

/-- R6: no command changes a parameter. -/
theorem exec_cfg {i : Instr} {s t : State} (h : exec i s = .next t) : t.cfg = s.cfg := by
  obtain ⟨e, -, rfl⟩ | ⟨u, dom, q, r, fin, rfl, hcfg, -⟩ := exec_shape i s t h
  · exact s.raise_cfg e
  · rw [State.reply_cfg, hcfg]

/-- R6: no step changes a parameter. -/
theorem step_cfg {s t : State} (h : step s = .next t) : t.cfg = s.cfg := by
  obtain ⟨-, rfl⟩ | ⟨rest, -, rfl⟩ | ⟨c, rest, i, -, -, hexec⟩ | ⟨c, rest, why, -, -, rfl⟩ := step_cases h
  · exact s.idle_cfg
  · exact s.takeReset_cfg rest
  · rw [exec_cfg hexec, State.accept_cfg]
  · rw [State.illegalWord_cfg, State.accept_cfg]

/-- R6: the step that is given the record `c` leaves `c`. -/
theorem stepWith_cfg {c : Cfg} {s t : State} (h : stepWith c s = .next t) : t.cfg = c :=
  step_cfg (s := { s with cfg := c }) h

end Sys2Proof.Machine

open Sys2Proof Sys2Proof.Machine

/-- Settles O14, by the ways a step can go (`step_cases`). -/
theorem noStepChangesAParameter : Obligations.NoStepChangesAParameter := by
  unfold Obligations.NoStepChangesAParameter
  exact ⟨fun _ _ h => step_cfg h, fun _ _ _ h => stepWith_cfg h⟩

/-- Settles O7: the state written out in the statement is `State.accept`. -/
theorem stepRunsTheDecodedCommand : Obligations.StepRunsTheDecodedCommand := by
  unfold Obligations.StepRunsTheDecodedCommand
  intro s c rest i hinbox hdecode
  exact step_of_decode_ok hinbox hdecode

end

section
/-! ## The reference record `NUM_R` against the reals -/

namespace Sys2Proof.Machine

variable (ρ : Valuation)

/-- R109: where `WAVE_IMPL = exact`, the sine primitive is the sine. -/
theorem toReal_wave_exact (a : Val) : (NumR.wave .exact a).toReal ρ = Real.sin (a.toReal ρ) := toReal_sin ρ a

/-- R7: on its domain `asin` is the inverse sine. -/
theorem toReal_asin_of_mem {a : Val} (h : -1 ≤ a.toReal ρ ∧ a.toReal ρ ≤ 1) :
    (NumR.asin a).toReal ρ = Real.arcsin (a.toReal ρ) := by
  rw [toReal_asin, asin_eq_arcsin ρ _ h]

/-- R7: on its domain `asin` gives the angle of `[-PI/2, PI/2]` whose sine is the operand. -/
theorem asin_spec {a : Val} (h1 : -1 ≤ a.toReal ρ) (h2 : a.toReal ρ ≤ 1) :
    Real.sin ((NumR.asin a).toReal ρ) = a.toReal ρ ∧
    -(Real.pi / 2) ≤ (NumR.asin a).toReal ρ ∧ (NumR.asin a).toReal ρ ≤ Real.pi / 2 := by
  rw [toReal_asin_of_mem ρ ⟨h1, h2⟩]
  exact ⟨Real.sin_arcsin h1 h2, Real.neg_pi_div_two_le_arcsin _, Real.arcsin_le_pi_div_two _⟩

end Sys2Proof.Machine

open Sys2Proof Sys2Proof.Machine

/-- Settles O24: operation by operation, from the laws that say which real each name of `NumR` stands for. -/
theorem theReferenceRecordIsExact : Obligations.TheReferenceRecordIsExact := by
  unfold Obligations.TheReferenceRecordIsExact
  intro w ρ a b n d
  refine ⟨toReal_add ρ a b, toReal_sub ρ a b, toReal_mul ρ a b, fun _ => toReal_div ρ a b, lt_iff a b, le_iff a b,
    eq_iff a b, toReal_ofInt ρ n, toReal_lit ρ d, toReal_pi ρ, ?wave, fun h1 h2 => asin_spec ρ h1 h2, toReal_exp ρ a,
    fun _ => toReal_fmod ρ a b, toReal_semi ρ n⟩
  case wave =>
    rintro rfl
    exact toReal_wave_exact ρ a

end

section
/-! ## Registers after reset, STATUS after a command, and the ways RD and WR can go -/

namespace Sys2Proof.Machine

/-! ### Reset (R34, R210) -/

theorem takeReset_instr (s : State) (rest : List HostInput) (i : Nat) :
    (s.takeReset rest).instr i = InstrRegs.reset s.cfg.nterm := by
  rw [State.instr, State.takeReset_instrs, State.takeReset_cfg, getD_replicate]

theorem reset_term (nterm k : Nat) : (InstrRegs.reset nterm).term k = TermRegs.reset := getD_replicate nterm k _

theorem takeReset_filt (s : State) (rest : List HostInput) (f : Nat) :
    (s.takeReset rest).filt f = FilterRegs.reset := by
  rw [State.filt, State.takeReset_filters, getD_replicate]

theorem takeReset_slot (s : State) (rest : List HostInput) (x : Nat) :
    (s.takeReset rest).slot x = SlotRegs.free := by
  rw [State.slot, State.takeReset_slots, getD_replicate]

theorem free_valid : SlotRegs.free.valid = false := rfl

theorem takeReset_nvalid (s : State) (rest : List HostInput) : (s.takeReset rest).nvalid = 0 := by
  simp [State.nvalid, List.countP_replicate, free_valid]

/-! ### The flag of an error code (R23, R191) -/

theorem statusBit_getLsbD (e : Err) : ∀ b < 32, e.statusBit.getLsbD b = decide (e.code.toNat = b + 1) := by
  cases e <;> decide

/-- Setting the flag of a code sets bit `k - 1` for code `k`, and no bit for OK. -/
theorem setFlag_getLsbD (st : I32) (e : Err) {b : Nat} (hb : b < 32) :
    (setFlag st e).getLsbD b = (st.getLsbD b || decide (e.code.toNat = b + 1)) := by
  rw [setFlag, BitVec.getLsbD_or, statusBit_getLsbD e b hb]

theorem setFlag_ok (st : I32) : setFlag st .ok = st := BitVec.or_zero

/-- A completed command sets the flag of the code it answers with. -/
theorem reply_status_eq_setFlag (s : State) (dom : Bool) (q : Val) (r : I32) (fin : Bool) :
    (s.reply dom q r fin).status = setFlag s.status (if dom then .domain else .ok) := by
  cases dom
  · exact (setFlag_ok s.status).symm
  · rfl

/-- R85: every command answers. -/
theorem exec_answers {i : Instr} {s t : State} (h : exec i s = .next t) : ∃ r, t.rsp = some r := by
  obtain ⟨e, -, rfl⟩ | ⟨u, dom, q, n, fin, rfl, -⟩ := exec_shape i s t h
  · exact ⟨_, rfl⟩
  · exact ⟨_, rfl⟩

/-- R191: a command other than a WR to STATUS sets the flag of the code it answers with. -/
theorem exec_status_of_rsp {i : Instr} {s t : State} {r : Response} (h : exec i s = .next t) (hr : t.rsp = some r)
    (hi : i ≠ .wr 0) : t.status = setFlag s.status r.err := by
  obtain ⟨e, -, rfl⟩ | ⟨u, dom, q, n, fin, rfl, -, -, -, hwr | hst⟩ := exec_shape i s t h
  · obtain rfl := Option.some.inj hr
    rfl
  · obtain ⟨a, rfl, ha⟩ := hwr
    exact absurd (congrArg Instr.wr (regAt_status ha)) hi
  · obtain rfl := Option.some.inj hr
    rw [reply_status_eq_setFlag, hst]

/-! ### RD and WR (R166, R167, R193) -/

theorem exec_rd_of_unmapped {s : State} {a : Nat} (h : regAt s.cfg a = none) :
    exec (.rd a) s = .next (s.raise .badArg) := by
  simp only [exec, execRd, State.readAddr, h, Option.map_none]

theorem exec_wr_of_unmapped {s : State} {a : Nat} (h : regAt s.cfg a = none) :
    exec (.wr a) s = .next (s.raise .badArg) := by
  simp only [exec, execWr, h]

theorem exec_wr_of_readOnly {s : State} {a : Nat} {r : RegName} (h : regAt s.cfg a = some r) (hro : r.access = .ro) :
    exec (.wr a) s = .next (s.raise .badArg) := by
  simp only [exec, execWr, h, if_pos hro]

theorem exec_wr_of_not_legal {s : State} {a : Nat} {r : RegName} (h : regAt s.cfg a = some r)
    (hl : r.legal s.cfg s.lanes.n s.lanes.d0 = false) : exec (.wr a) s = .next (s.raise .badArg) := by
  simp only [exec, execWr, h, hl, Bool.false_eq_true, if_false, ite_self]

theorem exec_wr_of_legal {s : State} {a : Nat} {r : RegName} (h : regAt s.cfg a = some r) (hro : r.access ≠ .ro)
    (hl : r.legal s.cfg s.lanes.n s.lanes.d0 = true) :
    exec (.wr a) s = .next (s.write r s.lanes.n s.lanes.d0).done := by
  simp only [exec, execWr, h, if_neg hro, if_pos hl]

/-- What WR can do, said once: it is BADARG, or it writes a legal value to the register of its address. -/
theorem exec_wr_cases {s t : State} {a : Nat} (h : exec (.wr a) s = .next t) :
    t = s.raise .badArg ∨
    ∃ r, regAt s.cfg a = some r ∧ r.legal s.cfg s.lanes.n s.lanes.d0 = true ∧
      t = (s.write r s.lanes.n s.lanes.d0).done := by
  match hr : regAt s.cfg a with
  | none => exact .inl (next_inj (h.symm.trans (exec_wr_of_unmapped hr)))
  | some r =>
    by_cases hro : r.access = .ro
    · exact .inl (next_inj (h.symm.trans (exec_wr_of_readOnly hr hro)))
    by_cases hl : r.legal s.cfg s.lanes.n s.lanes.d0 = true
    · exact .inr ⟨r, rfl, hl, next_inj (h.symm.trans (exec_wr_of_legal hr hro hl))⟩
    · exact .inl (next_inj (h.symm.trans (exec_wr_of_not_legal hr (Bool.eq_false_iff.mpr hl))))

/-- R23, R167: a WR to STATUS clears flags, whatever the lanes hold. -/
theorem exec_wr_status (s : State) :
    exec (.wr 0) s = .next { s with status := clearFlags s.status s.lanes.n }.done :=
  exec_wr_of_legal (r := .status) rfl (by decide) rfl

end Sys2Proof.Machine

open Sys2Proof Sys2Proof.Machine

/-- Settles O9: register by register, each table being full of its reset value. -/
theorem resetGivesTheResetValues : Obligations.ResetGivesTheResetValues := by
  unfold Obligations.ResetGivesTheResetValues
  intro s rest _ hinbox
  refine ⟨s.takeReset rest, step_of_rst hinbox, fun r _ => ?_, rfl, rfl, rfl, rfl⟩
  cases r with
  | instr i f =>
    rw [State.read, takeReset_instr]
    cases f <;> rfl
  | term i k f =>
    rw [State.read, takeReset_instr, reset_term]
    cases f <;> rfl
  | filt f k =>
    rw [State.read, takeReset_filt]
    cases k <;> rfl
  | slot x k =>
    rw [State.read, takeReset_slot]
    cases k <;> rfl
  | nvalid => rw [State.read, takeReset_nvalid]; rfl
  | _ => rfl

/-- Settles O17: the command sets the flag of its code (`exec_status_of_rsp`), which is that one bit. -/
theorem statusFollowsTheErrorCode : Obligations.StatusFollowsTheErrorCode := by
  unfold Obligations.StatusFollowsTheErrorCode
  intro i s t r h hr hi b hb
  rw [exec_status_of_rsp h hr hi, setFlag_getLsbD s.status r.err hb]

/-- Settles O55: one law of RD or WR for each reason. -/
theorem registerAccessErrors : Obligations.RegisterAccessErrors := by
  unfold Obligations.RegisterAccessErrors
  intro a s
  refine ⟨fun h => ⟨exec_rd_of_unmapped h, exec_wr_of_unmapped h⟩, fun r hr hwhy => ?_⟩
  obtain rfl | rfl | rfl | ⟨f, k, rfl⟩ | ⟨x, k, rfl⟩ | hl := hwhy
  case inr.inr.inr.inr.inr => exact exec_wr_of_not_legal hr hl
  all_goals exact exec_wr_of_readOnly hr rfl

/-- Settles O57: the state written out in the statement is the one of `exec_wr_status`. -/
theorem wrStatusClearsFlags : Obligations.WrStatusClearsFlags := by
  unfold Obligations.WrStatusClearsFlags
  exact exec_wr_status

end

section
/-! ## The slots after a step -/

namespace Sys2Proof.Machine

theorem prune_eq_or_free (r : SlotRegs) : r.prune = r ∨ r.prune = SlotRegs.free := by
  unfold SlotRegs.prune
  split
  · exact .inr rfl
  · exact .inl rfl

theorem exec_slots_length {i : Instr} {s t : State} (h : exec i s = .next t) : t.slots.length = s.slots.length := by
  obtain ht | ⟨x, a, -, -, -, ht⟩ | ⟨x, -, -, ht⟩ | ⟨-, m, ht⟩ := exec_slots i s t h
  · rw [ht]
  · rw [ht, List.length_set]
  · rw [ht, List.length_set]
  · rw [ht, List.length_map, mixPass_length]

/-- What every slot meets, every slot meets after a command, when a free slot meets it, a note that ADDNOTE makes meets it, and
moving the release point of a note keeps it. -/
theorem exec_slots_forall {P : SlotRegs → Prop} {i : Instr} {s t : State} (h : exec i s = .next t)
    (hfree : P SlotRegs.free)
    (hadd : ∀ a n on off, noteRefOk s.cfg a = true → P ⟨3#32, n, on, off, BitVec.ofNat 32 a⟩)
    (hoff : ∀ (r : SlotRegs) (off : Val), r.valid = true → P r → P { r with offt := off })
    (hs : ∀ r ∈ s.slots, P r) : ∀ r ∈ t.slots, P r := by
  obtain ht | ⟨x, a, -, -, ha, ht⟩ | ⟨x, -, hv, ht⟩ | ⟨-, m, ht⟩ := exec_slots i s t h
  · rwa [ht]
  · rw [ht]
    exact forall_set hs x _ fun _ => hadd a _ _ _ ha
  · rw [ht]
    exact forall_set hs x _ fun hx => hoff _ _ hv (getD_mem hs hx)
  · rw [mem_slot_iff] at hs ⊢
    intro x hx
    have hsx := hs x (exec_slots_length h ▸ hx)
    obtain hslot | ⟨-, hslot⟩ := render_slot s m x t ht
    · obtain hp | hp := prune_eq_or_free (s.slot x)
      · rwa [hslot, hp]
      · rwa [hslot, hp]
    · rwa [hslot]

/-- R31: every command keeps the slots settled. -/
theorem exec_slots_settled {i : Instr} {s t : State} (h : exec i s = .next t) (hs : ∀ r ∈ s.slots, r.settled = true) :
    ∀ r ∈ t.slots, r.settled = true :=
  exec_slots_forall h rfl (fun _ _ _ _ _ => by simp [SlotRegs.settled, SlotRegs.valid, SlotRegs.active]) (fun _ _ _ hr => hr) hs

theorem takeReset_slots_settled (s : State) (rest : List HostInput) :
    ∀ r ∈ (s.takeReset rest).slots, r.settled = true := by
  intro r hr
  obtain rfl := List.eq_of_mem_replicate hr
  rfl

end Sys2Proof.Machine

open Sys2Proof Sys2Proof.Machine

/-- Settles O15, by the ways a step can go (`step_cases`). -/
theorem slotsStaySettled : Obligations.SlotsStaySettled := by
  unfold Obligations.SlotsStaySettled
  intro s t hs h
  obtain ⟨hin, rfl⟩ | ⟨rest, -, rfl⟩ | ⟨c, rest, i, hin, -, hexec⟩ | ⟨c, rest, why, hin, -, rfl⟩ := step_cases h
  case inr.inl => exact takeReset_slots_settled s rest
  all_goals
    have hset : ∀ r ∈ s.slots, r.settled = true := hs.resolve_right (by simp [hin])
  · exact hset
  · exact exec_slots_settled hexec hset
  · exact hset

end

section
/-! ## The invariant -/

namespace Sys2Proof.Machine

/-! ### The invariant, taken apart -/

theorem instrWf_iff (c : Cfg) (r : InstrRegs) : r.wf c = true ↔
    legalGate r.gate = true ∧ legalTime c r.att = true ∧ legalTime c r.dec = true ∧ legalTime c r.rel = true ∧
    r.terms.length = c.nterm ∧ ∀ m ∈ r.terms, m.wf = true := by
  simp [InstrRegs.wf, and_assoc]

theorem slotWf_iff (ninstr : Nat) (r : SlotRegs) : r.wf ninstr = true ↔
    r = SlotRegs.free ∨ r.sflags = 3#32 ∧ (r.sinstr.toNat < ninstr ∨ r.sinstr.toNat = nullRef) := by
  simp [SlotRegs.wf]

/-- The invariant `State.wf`, field by field (`wf_iff`). -/
structure State.Inv (s : State) : Prop where
  legal : s.cfg.legal = true
  zero : zeroIsZero s.cfg = true
  status : s.status.toNat < 32
  instrsLength : s.instrs.length = s.cfg.ninstr
  instrs : ∀ r ∈ s.instrs, r.wf s.cfg = true
  filtersLength : s.filters.length = s.cfg.nfilt
  filters : ∀ r ∈ s.filters, r.wf s.cfg = true
  slotsLength : s.slots.length = s.cfg.nslots
  slots : ∀ r ∈ s.slots, r.wf s.cfg.ninstr = true

theorem wf_iff (s : State) : s.wf = true ↔ s.Inv := by
  constructor
  · intro h
    simp only [State.wf, Bool.and_eq_true, decide_eq_true_eq, beq_iff_eq, List.all_eq_true] at h
    obtain ⟨⟨⟨⟨⟨⟨⟨⟨hlegal, hzero⟩, hstatus⟩, hilen⟩, hinstrs⟩, hflen⟩, hfilters⟩, hslen⟩, hslots⟩ := h
    exact ⟨hlegal, hzero, hstatus, hilen, hinstrs, hflen, hfilters, hslen, hslots⟩
  · rintro ⟨hlegal, hzero, hstatus, hilen, hinstrs, hflen, hfilters, hslen, hslots⟩
    simp only [State.wf, Bool.and_eq_true, decide_eq_true_eq, beq_iff_eq, List.all_eq_true]
    exact ⟨⟨⟨⟨⟨⟨⟨⟨hlegal, hzero⟩, hstatus⟩, hilen⟩, hinstrs⟩, hflen⟩, hfilters⟩, hslen⟩, hslots⟩

/-! ### The reset values -/

theorem termReset_wf : TermRegs.reset.wf = true := by decide

theorem instrReset_wf {c : Cfg} (hz : zeroIsZero c = true) : (InstrRegs.reset c.nterm).wf c = true := by
  have hle : legalTime c zeroVal = true := (Bool.and_eq_true_iff.mp hz).1
  rw [instrWf_iff]
  refine ⟨rfl, hle, hle, hle, List.length_replicate, fun m hm => ?_⟩
  rw [List.eq_of_mem_replicate hm, termReset_wf]

theorem filterReset_wf {c : Cfg} (hz : zeroIsZero c = true) : FilterRegs.reset.wf c = true := by
  have heq : c.ops.eq zeroVal zeroVal = true := (Bool.and_eq_true_iff.mp hz).2
  exact Bool.or_eq_true_iff.mpr (.inl heq)

theorem slotFree_wf (ninstr : Nat) : SlotRegs.free.wf ninstr = true := (slotWf_iff ninstr _).mpr (.inl rfl)

/-- R34: the reset state of a block with legal parameters meets the invariant. -/
theorem resetOf_wf {c : Cfg} (hl : c.legal = true) (hz : zeroIsZero c = true) : (State.resetOf c).wf = true := by
  rw [wf_iff]
  exact {
    legal := hl
    zero := hz
    status := (by decide : (0#32 : I32).toNat < 32)
    instrsLength := List.length_replicate
    instrs := fun r hr => List.eq_of_mem_replicate hr ▸ instrReset_wf hz
    filtersLength := List.length_replicate
    filters := fun r hr => List.eq_of_mem_replicate hr ▸ filterReset_wf hz
    slotsLength := List.length_replicate
    slots := fun r hr => List.eq_of_mem_replicate hr ▸ slotFree_wf c.ninstr }

/-- R7: in `NUM_R` zero equals itself. -/
theorem zeroIsZero_of_real {c : Cfg} (h : c.num = .real) : zeroIsZero c = true := by
  simp [zeroIsZero, ops_real h, zeroVal_eq_lit]

/-! ### What reads no port and no response -/

theorem takeReset_wf (s : State) (rest : List HostInput) : (s.takeReset rest).wf = (State.resetOf s.cfg).wf := rfl

theorem idle_wf (s : State) : s.idle.wf = s.wf := rfl

theorem accept_wf (s : State) (c : Command) (rest : List HostInput) : (s.accept c rest).wf = s.wf := rfl

theorem raise_wf {s : State} (h : s.wf = true) (e : Err) : (s.raise e).wf = true := by
  rw [wf_iff] at h ⊢
  exact { h with status := setFlag_lt s.status e h.status }

/-! ### STATUS (R23) -/

/-- R23: no command sets a reserved bit of STATUS. -/
theorem exec_status_lt {i : Instr} {s t : State} (h : exec i s = .next t) (hs : s.status.toNat < 32) :
    t.status.toNat < 32 := by
  by_cases hi : i = .wr 0
  · subst hi
    obtain rfl := next_inj (h.symm.trans (exec_wr_status s))
    exact clearFlags_lt s.status s.lanes.n hs
  · obtain ⟨r, hr⟩ := exec_answers h
    rw [exec_status_of_rsp h hr hi]
    exact setFlag_lt s.status r.err hs

/-! ### The instrument table (R168) -/

theorem instrWrite_wf {c : Cfg} {r : InstrRegs} {i : Nat} {f : InstrField} {n : I32} {d : Val} (hr : r.wf c = true)
    (hl : (RegName.instr i f).legal c n d = true) : (r.write f n d).wf c = true := by
  rw [instrWf_iff] at hr ⊢
  obtain ⟨hgate, hatt, hdec, hrel, hlen, hterms⟩ := hr
  cases f
  case gate => exact ⟨hl, hatt, hdec, hrel, hlen, hterms⟩
  case att => exact ⟨hgate, hl, hdec, hrel, hlen, hterms⟩
  case dec => exact ⟨hgate, hatt, hl, hrel, hlen, hterms⟩
  case rel => exact ⟨hgate, hatt, hdec, hl, hlen, hterms⟩
  all_goals exact ⟨hgate, hatt, hdec, hrel, hlen, hterms⟩

theorem termWf_iff (m : TermRegs) : m.wf = true ↔
    legalTctl m.tctl = true ∧ legalSemi m.semi = true ∧ legalSawp m.sawp = true := by
  simp [TermRegs.wf, and_assoc]

theorem termWrite_wf {c : Cfg} {m : TermRegs} {i k : Nat} {f : TermField} {n : I32} {d : Val} (hm : m.wf = true)
    (hl : (RegName.term i k f).legal c n d = true) : (m.write f n d).wf = true := by
  rw [termWf_iff] at hm ⊢
  obtain ⟨htctl, hsemi, hsawp⟩ := hm
  cases f
  case tctl => exact ⟨hl, hsemi, hsawp⟩
  case semi => exact ⟨htctl, hl, hsawp⟩
  case sawp => exact ⟨htctl, hsemi, hl⟩
  all_goals exact ⟨htctl, hsemi, hsawp⟩

/-- Replacing one term by a legal one keeps the instrument legal. -/
theorem instrSetTerm_wf {c : Cfg} {r : InstrRegs} (hr : r.wf c = true) (k : Nat) (m : TermRegs)
    (hm : k < r.terms.length → m.wf = true) : InstrRegs.wf c { r with terms := r.terms.set k m } = true := by
  rw [instrWf_iff] at hr ⊢
  obtain ⟨hgate, hatt, hdec, hrel, hlen, hterms⟩ := hr
  exact ⟨hgate, hatt, hdec, hrel, List.length_set.trans hlen, forall_set hterms k m hm⟩

theorem write_instrs_length (s : State) (r : RegName) (n : I32) (d : Val) :
    (s.write r n d).instrs.length = s.instrs.length := by
  cases r with
  | instr i f => exact List.length_set
  | term i k f => exact List.length_set
  | _ => rfl

/-- R168: writing a legal value keeps the instruments legal. -/
theorem write_instrs_wf {s : State} {r : RegName} {n : I32} {d : Val} (hs : ∀ x ∈ s.instrs, x.wf s.cfg = true)
    (hl : r.legal s.cfg n d = true) : ∀ x ∈ (s.write r n d).instrs, x.wf s.cfg = true := by
  cases r with
  | instr i f => exact forall_set hs i _ fun hi => instrWrite_wf (getD_mem hs hi) hl
  | term i k f =>
    refine forall_set hs i _ fun hi => ?_
    have hinstr : (s.instr i).wf s.cfg = true := getD_mem hs hi
    obtain ⟨-, -, -, -, -, hterms⟩ := (instrWf_iff _ _).mp hinstr
    exact instrSetTerm_wf hinstr k _ fun hk => termWrite_wf (getD_mem hterms hk) hl
  | _ => exact hs

/-! ### The filter units (R131) -/

theorem write_filters (s : State) (r : RegName) (n : I32) (d : Val) : (s.write r n d).filters = s.filters := by
  cases r <;> rfl

theorem filterWf_of_srate_eq {c : Cfg} {r u : FilterRegs} (h : r.srate = u.srate) (hu : u.wf c = true) :
    r.wf c = true := by
  rwa [FilterRegs.wf, h]

theorem filterWf_of_srate_pos {c : Cfg} {r : FilterRegs} (h : c.ops.le r.srate zeroVal = false) : r.wf c = true := by
  simp [FilterRegs.wf, h]

/-! ### The slots (R30, R31) -/

/-- R151: the note that ADDNOTE makes names an instrument or is null. -/
theorem addedSlot_wf {c : Cfg} (hc : c.legal = true) {a : Nat} (ha : noteRefOk c a = true) (n : I32) (on off : Val) :
    SlotRegs.wf c.ninstr ⟨3#32, n, on, off, BitVec.ofNat 32 a⟩ = true := by
  have hninstr : c.ninstr ≤ 64 := by
    simp only [Cfg.legal, Bool.and_eq_true, decide_eq_true_eq] at hc
    omega
  have href : a < c.ninstr ∨ a = 255 := by simpa [noteRefOk, nullRef] using ha
  have hsinstr : (BitVec.ofNat 32 a).toNat = a := (BitVec.toNat_ofNat a 32).trans (Nat.mod_eq_of_lt (by omega))
  rw [slotWf_iff]
  exact .inr ⟨rfl, by rwa [hsinstr]⟩

/-- R152: moving the release point of a note that is there keeps the slot legal. -/
theorem slotOfft_wf {ninstr : Nat} (r : SlotRegs) (off : Val) (hv : r.valid = true) (hr : r.wf ninstr = true) :
    SlotRegs.wf ninstr { r with offt := off } = true := by
  rw [slotWf_iff] at hr ⊢
  obtain rfl | hnote := hr
  · exact absurd hv (by decide)
  · exact .inr hnote

/-! ### A step -/

/-- The instruments and the filter units after a command: WR writes one register with a legal value; FLT.INIT, FLT.SETF, FLT.LP and
FLT.HP write one unit, with its SRATE kept or made positive; every other command leaves both tables, and so does an error. -/
theorem exec_tables {i : Instr} {s t : State} (h : exec i s = .next t) :
    (t.instrs = s.instrs ∧ t.filters = s.filters) ∨
    (∃ r, r.legal s.cfg s.lanes.n s.lanes.d0 = true ∧ t = (s.write r s.lanes.n s.lanes.d0).done) ∨
    (∃ f r, t.instrs = s.instrs ∧ t.filters = s.filters.set f r ∧
      (r.srate = (s.filt f).srate ∨ s.cfg.ops.le r.srate zeroVal = false)) := by
  cases i
  case wr a =>
    obtain rfl | ⟨r, -, hl, rfl⟩ := exec_wr_cases h
    · exact .inl ⟨rfl, rfl⟩
    · exact .inr (.inl ⟨r, hl, rfl⟩)
  all_goals obtain rfl := next_inj h
  case fltInit f =>
    split
    · exact .inl ⟨rfl, rfl⟩
    split
    · exact .inl ⟨rfl, rfl⟩
    · exact .inr (.inr ⟨f, _, rfl, rfl, .inr (Bool.eq_false_iff.mpr ‹_›)⟩)
  case fltSetf f =>
    split
    · exact .inl ⟨rfl, rfl⟩
    split
    · exact .inl ⟨rfl, rfl⟩
    · exact .inr (.inr ⟨f, _, rfl, rfl, .inl rfl⟩)
  case fltLp f | fltHp f =>
    split
    · exact .inl ⟨rfl, rfl⟩
    · exact .inr (.inr ⟨f, _, rfl, rfl, .inl rfl⟩)
  case env | voice => left; split <;> exact ⟨rfl, rfl⟩
  case noteoff =>
    left
    split
    · exact ⟨rfl, rfl⟩
    · split <;> exact ⟨rfl, rfl⟩
  case addnote =>
    left
    split
    · split <;> exact ⟨rfl, rfl⟩
    · exact ⟨rfl, rfl⟩
  case rd =>
    left
    split
    · exact ⟨rfl, rfl⟩
    · unfold State.replyReg
      split <;> exact ⟨rfl, rfl⟩
  all_goals exact .inl ⟨rfl, rfl⟩

theorem exec_instrs_wf {i : Instr} {s t : State} (h : exec i s = .next t) (hs : ∀ r ∈ s.instrs, r.wf s.cfg = true) :
    t.instrs.length = s.instrs.length ∧ ∀ r ∈ t.instrs, r.wf s.cfg = true := by
  obtain ⟨ht, -⟩ | ⟨r, hl, rfl⟩ | ⟨f, r, ht, -, -⟩ := exec_tables h
  · rw [ht]
    exact ⟨rfl, hs⟩
  · exact ⟨write_instrs_length s r _ _, write_instrs_wf hs hl⟩
  · rw [ht]
    exact ⟨rfl, hs⟩

theorem exec_filters_wf {i : Instr} {s t : State} (h : exec i s = .next t) (hs : ∀ r ∈ s.filters, r.wf s.cfg = true) :
    t.filters.length = s.filters.length ∧ ∀ r ∈ t.filters, r.wf s.cfg = true := by
  obtain ⟨-, ht⟩ | ⟨r, -, rfl⟩ | ⟨f, r, -, ht, hsrate⟩ := exec_tables h
  · rw [ht]
    exact ⟨rfl, hs⟩
  · rw [State.done_filters, write_filters]
    exact ⟨rfl, hs⟩
  · rw [ht]
    refine ⟨List.length_set, forall_set hs f r fun hf => ?_⟩
    obtain hkept | hpos := hsrate
    · exact filterWf_of_srate_eq hkept (getD_mem hs hf)
    · exact filterWf_of_srate_pos hpos

/-- Every command keeps the invariant. -/
theorem exec_wf {i : Instr} {s t : State} (h : exec i s = .next t) (hs : s.wf = true) : t.wf = true := by
  rw [wf_iff] at hs ⊢
  have hcfg := exec_cfg h
  obtain ⟨hilen, hinstrs⟩ := exec_instrs_wf h hs.instrs
  obtain ⟨hflen, hfilters⟩ := exec_filters_wf h hs.filters
  have hslots := exec_slots_forall h (slotFree_wf s.cfg.ninstr) (fun a n on off ha => addedSlot_wf hs.legal ha n on off)
    slotOfft_wf hs.slots
  exact {
    legal := hcfg ▸ hs.legal
    zero := hcfg ▸ hs.zero
    status := exec_status_lt h hs.status
    instrsLength := hcfg ▸ hilen.trans hs.instrsLength
    instrs := hcfg ▸ hinstrs
    filtersLength := hcfg ▸ hflen.trans hs.filtersLength
    filters := hcfg ▸ hfilters
    slotsLength := hcfg ▸ (exec_slots_length h).trans hs.slotsLength
    slots := hcfg ▸ hslots }

end Sys2Proof.Machine

open Sys2Proof Sys2Proof.Machine

/-- Settles O12: the invariant by `resetOf_wf`, the values by reading them off. -/
theorem resetStateMeetsTheInvariant : Obligations.ResetStateMeetsTheInvariant := by
  unfold Obligations.ResetStateMeetsTheInvariant
  exact ⟨resetOf_wf (by decide) (zeroIsZero_of_real rfl), rfl, rfl, rfl, rfl, rfl, rfl⟩

/-- Settles O13, by the ways a step can go (`step_cases`): a reset gives the invariant, a command keeps it. -/
theorem stepKeepsTheInvariant : Obligations.StepKeepsTheInvariant := by
  unfold Obligations.StepKeepsTheInvariant
  intro s t hs h
  obtain ⟨-, rfl⟩ | ⟨rest, -, rfl⟩ | ⟨c, rest, i, -, -, hexec⟩ | ⟨c, rest, why, -, -, rfl⟩ := step_cases h
  · rw [idle_wf, hs]
  · have hinv := (wf_iff s).mp hs
    rw [takeReset_wf, resetOf_wf hinv.legal hinv.zero]
  · exact exec_wf hexec ((accept_wf s c rest).trans hs)
  · exact raise_wf ((accept_wf s c rest).trans hs) .illegal

end

section
/-! ## The address map (R65) -/

namespace Sys2Proof.Machine

/-! ### From an address to its register -/

/-- R26: the global registers exist under every record of parameters. -/
theorem globalAt_exists {c : Cfg} {a : Nat} {r : RegName} (h : globalAt a = some r) : r.exists c = true := by
  unfold globalAt at h
  split at h <;> cases h <;> rfl

/-- R27, R28: an offset within instrument `i` names a register of the instrument, or one of a term that exists. -/
theorem instrRegAt_iff (c : Cfg) (i o : Nat) (r : RegName) : instrRegAt c i o = some r ↔
    (∃ f, r = .instr i f ∧ f.offset = o) ∨ ∃ k f, r = .term i k f ∧ k < c.nterm ∧ 0x10 + 8 * k + f.offset = o := by
  unfold instrRegAt
  constructor
  · intro h
    split at h
    · obtain ⟨f, hf, rfl⟩ := Option.map_eq_some_iff.mp h
      exact .inl ⟨f, rfl, (instrFieldAt_iff o f).mp hf⟩
    · obtain ⟨hk, h⟩ := Option.ite_none_right_eq_some.mp h
      obtain ⟨f, hf, rfl⟩ := Option.map_eq_some_iff.mp h
      have hoff := (termFieldAt_iff _ f).mp hf
      exact .inr ⟨_, f, rfl, hk, by omega⟩
  · rintro (⟨f, rfl, rfl⟩ | ⟨k, f, rfl, hk, rfl⟩)
    · have hlt := f.offset_lt
      rw [if_pos (by omega), (instrFieldAt_iff _ f).mpr rfl, Option.map_some]
    · have hlt := f.offset_lt
      have hterm : (0x10 + 8 * k + f.offset - 0x10) / 8 = k := by omega
      have hfield : f.offset = (0x10 + 8 * k + f.offset - 0x10) % 8 := by omega
      rw [if_neg (by omega), hterm, if_pos hk, (termFieldAt_iff _ f).mpr hfield, Option.map_some]

/-- R65: the register that an address names exists and has that address. -/
theorem exists_and_addr_of_regAt {c : Cfg} {a : Nat} {r : RegName} (h : regAt c a = some r) :
    r.exists c = true ∧ r.addr = a := by
  unfold regAt at h
  split at h
  · exact ⟨globalAt_exists h, globalAt_addr h⟩
  split at h
  · obtain ⟨hi, h⟩ := Option.ite_none_right_eq_some.mp h
    obtain ⟨f, rfl, ho⟩ | ⟨k, f, rfl, hk, ho⟩ := (instrRegAt_iff _ _ _ _).mp h
    · exact ⟨decide_eq_true hi, by rw [RegName.addr]; omega⟩
    · exact ⟨Bool.and_eq_true_iff.mpr ⟨decide_eq_true hi, decide_eq_true hk⟩, by rw [RegName.addr]; omega⟩
  split at h
  · obtain ⟨hf, h⟩ := Option.ite_none_right_eq_some.mp h
    obtain ⟨k, hk, rfl⟩ := Option.map_eq_some_iff.mp h
    have hoff := (filterFieldAt_iff _ k).mp hk
    exact ⟨decide_eq_true hf, by rw [RegName.addr]; omega⟩
  · obtain ⟨hx, h⟩ := Option.ite_none_right_eq_some.mp h
    obtain ⟨k, hk, rfl⟩ := Option.map_eq_some_iff.mp h
    have hoff := (slotFieldAt_iff _ k).mp hk
    exact ⟨decide_eq_true hx, by rw [RegName.addr]; omega⟩

/-! ### From a register to its address -/

/-- R6: the upper ends of the ranges that keep each table within its part of the address space. -/
theorem bounds_of_legal {c : Cfg} (h : c.legal = true) : c.ninstr ≤ 64 ∧ c.nfilt ≤ 255 ∧ c.nterm ≤ 6 := by
  simp only [Cfg.legal, Bool.and_eq_true, decide_eq_true_eq] at h
  omega

/-- R65: the map within the part of instrument `i`. -/
theorem regAt_instr {c : Cfg} {i o : Nat} (hi : i < 64) (hic : i < c.ninstr) (ho : o < 0x40) :
    regAt c (0x1000 + 0x40 * i + o) = instrRegAt c i o := by
  have hdiv : (0x1000 + 0x40 * i + o - 0x1000) / 0x40 = i := by omega
  have hmod : (0x1000 + 0x40 * i + o - 0x1000) % 0x40 = o := by omega
  rw [regAt, if_neg (by omega), if_pos (by omega), hdiv, hmod, if_pos hic]

/-- R65: the map within the part of filter unit `f`. -/
theorem regAt_filt {c : Cfg} {f : Nat} (hf : f < 0x400) (hfc : f < c.nfilt) (k : FilterField) :
    regAt c (0x2000 + 4 * f + k.offset) = some (.filt f k) := by
  have hlt := k.offset_lt
  have hdiv : (0x2000 + 4 * f + k.offset - 0x2000) / 4 = f := by omega
  have hmod : k.offset = (0x2000 + 4 * f + k.offset - 0x2000) % 4 := by omega
  rw [regAt, if_neg (by omega), if_neg (by omega), if_pos (by omega), hdiv, if_pos hfc,
    (filterFieldAt_iff _ k).mpr hmod, Option.map_some]

/-- R65: the map within the part of slot `x`. -/
theorem regAt_slot {c : Cfg} {x : Nat} (hx : x < c.nslots) (k : SlotField) :
    regAt c (0x3000 + 8 * x + k.offset) = some (.slot x k) := by
  have hlt := k.offset_lt
  have hdiv : (0x3000 + 8 * x + k.offset - 0x3000) / 8 = x := by omega
  have hmod : k.offset = (0x3000 + 8 * x + k.offset - 0x3000) % 8 := by omega
  rw [regAt, if_neg (by omega), if_neg (by omega), if_neg (by omega), hdiv, if_pos hx,
    (slotFieldAt_iff _ k).mpr hmod, Option.map_some]

/-- R65: under legal parameters a register that exists is the one its address names. -/
theorem regAt_addr {c : Cfg} {r : RegName} (hl : c.legal = true) (he : r.exists c = true) :
    regAt c r.addr = some r := by
  obtain ⟨hninstr, hnfilt, hnterm⟩ := bounds_of_legal hl
  cases r with
  | instr i f =>
    have hi : i < c.ninstr := of_decide_eq_true he
    have hlt := f.offset_lt
    rw [RegName.addr, regAt_instr (by omega) hi (by omega), instrRegAt_iff]
    exact .inl ⟨f, rfl, rfl⟩
  | term i k f =>
    simp only [RegName.exists, Bool.and_eq_true, decide_eq_true_eq] at he
    obtain ⟨hi, hk⟩ := he
    have hlt := f.offset_lt
    rw [RegName.addr, Nat.add_assoc (0x1000 + 0x40 * i), Nat.add_assoc (0x1000 + 0x40 * i),
      regAt_instr (by omega) hi (by omega), instrRegAt_iff]
    exact .inr ⟨k, f, rfl, hk, rfl⟩
  | filt f k =>
    have hf : f < c.nfilt := of_decide_eq_true he
    exact regAt_filt (by omega) hf k
  | slot x k => exact regAt_slot (of_decide_eq_true he) k
  | _ => rfl

end Sys2Proof.Machine

open Sys2Proof Sys2Proof.Machine

/-- Settles O23: one way for every record of parameters, the other by the legal ranges, which keep the parts apart. -/
theorem theAddressMapIsExact : Obligations.TheAddressMapIsExact := by
  unfold Obligations.TheAddressMapIsExact
  intro c a r hl
  constructor
  · exact exists_and_addr_of_regAt
  · rintro ⟨he, rfl⟩
    exact regAt_addr hl he

end

section
/-! ## The registers that a command leaves as they were -/

namespace Sys2Proof.Machine

theorem done_read (s : State) {r : RegName} (hr : r ≠ .status) : s.done.read r = s.read r :=
  reply_read s _ _ _ _ r hr

theorem setDraws_read (s : State) (d : Nat) (r : RegName) : { s with draws := d }.read r = s.read r := by
  cases r <;> rfl

/-- R111: an OSC command touches the draw counter and STATUS alone. -/
theorem osc_read (s : State) (kind : WaveKind) (sawp : Nat) {r : RegName} (hr : r ≠ .status) :
    (s.osc kind sawp).read r = s.read r :=
  (reply_read _ _ _ _ _ r hr).trans (setDraws_read s _ r)

theorem replyReg_read (s : State) (v : RegVal) {r : RegName} (hr : r ≠ .status) :
    (s.replyReg v).read r = s.read r := by
  cases v <;> exact reply_read s _ _ _ _ r hr

/-- R132, R133: the output of a filter goes to PREV of its unit. -/
theorem applyFilter_read (s : State) (f : Nat) (out : Val) {r : RegName} (hr : r ≠ .status) (hne : r ≠ .filt f .prev) :
    (s.applyFilter f out).read r = s.read r := by
  refine (reply_read _ _ _ _ _ r hr).trans (setFilt_read s f _ r ?_)
  rintro k rfl
  cases k with
  | prev => exact absurd rfl hne
  | _ => rfl

section
variable {s t : State} {r : RegName}

/-- R130: FLT.INIT writes the registers of its unit. -/
theorem exec_fltInit_read {f : Nat} (h : exec (.fltInit f) s = .next t) (hr : r ≠ .status)
    (hne : ∀ k, r ≠ .filt f k) : t.read r = s.read r := by
  obtain rfl := next_inj h
  split
  · exact raise_read s _ r hr
  split
  · exact raise_read s _ r hr
  · exact (done_read _ hr).trans (setFilt_read s f _ r fun k hk => absurd hk (hne k))

/-- R131: FLT.SETF writes ALPHA and CUTOFF of its unit. -/
theorem exec_fltSetf_read {f : Nat} (h : exec (.fltSetf f) s = .next t) (hr : r ≠ .status)
    (halpha : r ≠ .filt f .alpha) (hcutoff : r ≠ .filt f .cutoff) : t.read r = s.read r := by
  obtain rfl := next_inj h
  split
  · exact raise_read s _ r hr
  split
  · exact raise_read s _ r hr
  · refine (done_read _ hr).trans (setFilt_read s f _ r ?_)
    rintro k rfl
    cases k with
    | alpha => exact absurd rfl halpha
    | cutoff => exact absurd rfl hcutoff
    | _ => rfl

/-- R151: ADDNOTE writes the least free slot, and with it NVALID. -/
theorem exec_addnote_read {a : Nat} (h : exec (.addnote a) s = .next t) (hr : r ≠ .status) (hnvalid : r ≠ .nvalid)
    (hne : ∀ x k, s.freeSlot = some x → r ≠ .slot x k) : t.read r = s.read r := by
  obtain rfl := next_inj h
  split
  · split
    · exact raise_read s _ r hr
    · next x hx =>
      exact (reply_read _ _ _ _ _ r hr).trans
        (setSlot_read s x _ r (fun k hk => absurd hk (hne x k hx)) fun hv => absurd hv hnvalid)
  · exact raise_read s _ r hr

/-- R152: NOTEOFF writes OFFT of its slot; the note stays valid. -/
theorem exec_noteoff_read {x : Nat} (h : exec (.noteoff x) s = .next t) (hr : r ≠ .status)
    (hne : r ≠ .slot x .offt) : t.read r = s.read r := by
  obtain rfl := next_inj h
  split
  · exact raise_read s _ r hr
  split
  · refine (done_read _ hr).trans (setSlot_read s x _ r ?_ fun _ => rfl)
    rintro k rfl
    cases k with
    | offt => exact absurd rfl hne
    | _ => rfl
  · exact raise_read s _ r hr

/-- R153: neither pass of RENDER touches a free slot. -/
theorem render_slot_of_invalid {m : Mix} {x : Nat}
    (h : t.slots = (s.mixPass s.lanes.d0 s.slots m).1.map SlotRegs.prune) (hx : (s.slot x).valid = false) :
    t.slot x = s.slot x := by
  obtain hslot | ⟨hsound, -⟩ := render_slot s m x t h
  · rw [hslot, SlotRegs.prune, hx, Bool.false_and, if_neg Bool.false_ne_true]
  · obtain ⟨hv, -, -⟩ := sounding_flags hsound
    rw [hx] at hv
    cases hv

/-- R153: RENDER writes ACC and the slots that hold a note, and with them NVALID. -/
theorem exec_render_read (h : exec .render s = .next t) (hr : r ≠ .status) (hacc : r ≠ .acc) (hnvalid : r ≠ .nvalid)
    (hne : ∀ x k, (s.slot x).valid = true → r ≠ .slot x k) : t.read r = s.read r := by
  obtain rfl := next_inj h
  cases r with
  | status => exact absurd rfl hr
  | acc => exact absurd rfl hacc
  | nvalid => exact absurd rfl hnvalid
  | slot x k =>
    have hx : (s.slot x).valid = false := Bool.eq_false_iff.mpr fun hv => hne x k hv rfl
    exact congrArg (SlotRegs.read · k) (render_slot_of_invalid rfl hx)
  | _ => rfl

/-- R166: RD writes nothing. -/
theorem exec_rd_read {a : Nat} (h : exec (.rd a) s = .next t) (hr : r ≠ .status) : t.read r = s.read r := by
  obtain rfl := next_inj h
  split
  · exact raise_read s _ r hr
  · exact replyReg_read s _ hr

/-- R167: WR writes the register at its address. -/
theorem exec_wr_read {a : Nat} (h : exec (.wr a) s = .next t) (hr : r ≠ .status) (hne : regAt s.cfg a ≠ some r) :
    t.read r = s.read r := by
  obtain rfl | ⟨q, hq, -, rfl⟩ := exec_wr_cases h
  · exact raise_read s _ r hr
  · rw [done_read _ hr]
    by_cases hnvalid : r = .nvalid
    · rw [hnvalid, write_nvalid]
    · exact write_read s q r _ _ (fun hrq => hne (hrq ▸ hq)) hnvalid

/-- The frame of every command: beside STATUS it changes only what `mayWrite` lists. -/
theorem exec_read_of_not_mayWrite {i : Instr} (h : exec i s = .next t) (hr : r ≠ .status)
    (hw : mayWrite s i r = false) : t.read r = s.read r := by
  cases i with
  | nop | scale => obtain rfl := next_inj h; exact reply_read s _ _ _ _ r hr
  | oscSin | oscTri | oscSqr | oscSawa | oscSawd | oscNoise => obtain rfl := next_inj h; exact osc_read s _ _ hr
  | env =>
    obtain rfl := next_inj h
    split
    · exact reply_read s _ _ _ _ r hr
    · exact raise_read s _ r hr
  | voice =>
    obtain rfl := next_inj h
    split
    · exact (reply_read _ _ _ _ _ r hr).trans (setDraws_read s _ r)
    · exact raise_read s _ r hr
  | fltInit f => exact exec_fltInit_read h hr (by rintro k rfl; simp [mayWrite] at hw)
  | fltSetf f =>
    exact exec_fltSetf_read h hr (by rintro rfl; simp [mayWrite] at hw) (by rintro rfl; simp [mayWrite] at hw)
  | fltLp f | fltHp f =>
    obtain rfl := next_inj h
    split
    · exact raise_read s _ r hr
    · exact applyFilter_read s f _ hr (by rintro rfl; simp [mayWrite] at hw)
  | addnote a =>
    exact exec_addnote_read h hr (by rintro rfl; cases hw) (by rintro x k hx rfl; simp [mayWrite, hx] at hw)
  | noteoff x => exact exec_noteoff_read h hr (by rintro rfl; simp [mayWrite] at hw)
  | render =>
    exact exec_render_read h hr (by rintro rfl; cases hw) (by rintro rfl; cases hw)
      (by rintro x k hx rfl; simp [mayWrite, hx] at hw)
  | rd a => exact exec_rd_read h hr
  | wr a => exact exec_wr_read h hr (by intro ha; simp [mayWrite, ha] at hw)

end

end Sys2Proof.Machine

open Sys2Proof Sys2Proof.Machine

/-- Settles O19: the parameters, and so the address map, stay, and the register reads as before (`exec_read_of_not_mayWrite`). -/
theorem otherRegistersReadAsBefore : Obligations.OtherRegistersReadAsBefore := by
  unfold Obligations.OtherRegistersReadAsBefore
  intro i s t a r h ha hr hw
  rw [State.readAddr, State.readAddr, exec_cfg h, ha, Option.map_some, Option.map_some, exec_read_of_not_mayWrite h hr hw]

end

section
/-! ## The decoder against the encoder, the opcode map and the illegal words (R81, R82, R83, R86) -/

namespace Sys2Proof

/-! ### The formats (R81) -/

theorem formatZ_eq_ok_iff {x y : Nat} {i j : Instr} : formatZ x y i = .ok j ↔ (x = 0 ∧ y = 0) ∧ i = j := by
  unfold formatZ
  split <;> simp [*]

theorem formatU_eq_ok_iff {y : Nat} {i j : Instr} : formatU y i = .ok j ↔ y = 0 ∧ i = j := by
  unfold formatU
  split <;> simp [*]

theorem formatA_eq_ok_iff {x : Nat} {i j : Instr} : formatA x i = .ok j ↔ x = 0 ∧ i = j := by
  unfold formatA
  split <;> simp [*]

/-- R83: a kind code gives the OSC command of that kind. -/
theorem formatO_eq_ok_iff {x y : Nat} {j : Instr} :
    formatO x y = .ok j ↔ j.opcode = 0x10 ∧ x = j.xOf ∧ y = j.yOf := by
  constructor
  · intro h
    unfold formatO at h
    split at h <;> cases h <;> exact ⟨rfl, rfl, rfl⟩
  · rintro ⟨hop, rfl, rfl⟩
    cases j with
    | oscSin | oscTri | oscSqr | oscSawa | oscSawd | oscNoise => rfl
    | _ => cases hop

/-- R81, R82: a word decodes to the command whose opcode and operands are its three fields. -/
theorem decode_eq_ok_iff {w : CmdWord} {i : Instr} :
    decode w = .ok i ↔ opField w = i.opcode ∧ xField w = i.xOf ∧ yField w = i.yOf := by
  constructor
  · intro h
    unfold decode at h
    split at h
    case h_2 hop =>
      obtain ⟨hi, hx, hy⟩ := formatO_eq_ok_iff.mp h
      exact ⟨hop.trans hi.symm, hx, hy⟩
    case h_15 => cases h
    case h_1 hop | h_3 hop | h_12 hop =>
      obtain ⟨⟨hx, hy⟩, rfl⟩ := formatZ_eq_ok_iff.mp h
      exact ⟨hop, hx, hy⟩
    case h_13 hop | h_14 hop =>
      obtain ⟨hx, rfl⟩ := formatA_eq_ok_iff.mp h
      exact ⟨hop, hx, rfl⟩
    all_goals next hop =>
      obtain ⟨hy, rfl⟩ := formatU_eq_ok_iff.mp h
      exact ⟨hop, rfl, hy⟩
  · rintro ⟨hop, hx, hy⟩
    unfold decode
    rw [hop, hx, hy]
    cases i <;> rfl

/-- R81: a command is well formed exactly when its operands fit the fields `x` and `y`. -/
theorem wellFormed_iff_fits (i : Instr) : i.wellFormed = true ↔ i.xOf < 256 ∧ i.yOf < 65536 := by
  cases i <;> simp [Instr.wellFormed, fitsX, fitsY, Instr.xOf, Instr.yOf]

/-- R81, R82: a well-formed command is read back from its word. -/
theorem decode_encode {i : Instr} (h : i.wellFormed = true) : decode (encode i) = .ok i := by
  obtain ⟨hx, hy⟩ := (wellFormed_iff_fits i).mp h
  exact decode_eq_ok_iff.mpr (Laws.WordFields.of_fits i hx hy h)

/-- R81: a word decodes to a well-formed command only, its fields having 8 and 16 bits. -/
theorem wellFormed_of_decode {w : CmdWord} {i : Instr} (h : decode w = .ok i) : i.wellFormed = true := by
  obtain ⟨-, hx, hy⟩ := decode_eq_ok_iff.mp h
  exact (wellFormed_iff_fits i).mpr ⟨hx ▸ xField_lt w, hy ▸ yField_lt w⟩

/-- R81, R82: a word that decodes is the encoding of its command. -/
theorem encode_of_decode {w : CmdWord} {i : Instr} (h : decode w = .ok i) : encode i = w := by
  obtain ⟨hop, hx, hy⟩ := decode_eq_ok_iff.mp h
  rw [encode, ← hop, ← hx, ← hy, packWord_fields]

/-! ### The illegal words (R86) -/

theorem formatZ_isOk_eq_false_iff {x y : Nat} {i : Instr} : (formatZ x y i).isOk = false ↔ x ≠ 0 ∨ y ≠ 0 := by
  unfold formatZ
  rw [← not_and_or]
  split <;> simp [Decoded.isOk, *]

theorem formatU_isOk_eq_false_iff {y : Nat} {i : Instr} : (formatU y i).isOk = false ↔ y ≠ 0 := by
  unfold formatU
  split <;> simp [Decoded.isOk, *]

theorem formatA_isOk_eq_false_iff {x : Nat} {i : Instr} : (formatA x i).isOk = false ↔ x ≠ 0 := by
  unfold formatA
  split <;> simp [Decoded.isOk, *]

/-- R86 (2): the reserved kind codes are those above 5. -/
theorem formatO_isOk_eq_false_iff {x y : Nat} : (formatO x y).isOk = false ↔ 5 < x := by
  unfold formatO
  split
  case h_7 => exact iff_of_true rfl (by grind)
  all_goals simp [Decoded.isOk]

/-! ### The opcode map (R82) -/

/-- R82: the command of each row of the opcode map, in the order of the rows, with the operands that a word has in its fields. -/
def rowCommands (x y : Nat) : List Instr :=
  [.nop, .oscSin y, .oscTri y, .oscSqr y, .oscSawa y, .oscSawd y, .oscNoise y, .scale, .env x, .fltInit x, .fltSetf x,
   .fltLp x, .fltHp x, .voice x, .addnote x, .noteoff x, .render, .rd y, .wr y]

theorem nodup_rowCommands (x y : Nat) : (rowCommands x y).Nodup := by simp [rowCommands]

theorem mem_rowCommands (i : Instr) : i ∈ rowCommands i.xOf i.yOf := by
  cases i <;> simp [rowCommands, Instr.xOf, Instr.yOf]

/-- R82: the one row whose command the word decodes to. -/
theorem rowCommands_filter_decode {w : CmdWord} {i : Instr} (h : decode w = .ok i) :
    (rowCommands (xField w) (yField w)).filter (fun j => decode w = .ok j) = [i] := by
  obtain ⟨-, hx, hy⟩ := decode_eq_ok_iff.mp h
  have hmem : i ∈ rowCommands (xField w) (yField w) := hx ▸ hy ▸ mem_rowCommands i
  calc (rowCommands (xField w) (yField w)).filter (fun j => decode w = .ok j)
      = (rowCommands (xField w) (yField w)).filter (fun j => j = i) := List.filter_congr fun j _ => by simp [h, eq_comm]
    _ = [i] := by
      rw [List.filter_eq, List.count_eq_one_of_mem (nodup_rowCommands _ _) hmem, List.replicate_one]

/-- R82: row by row, a word selects a row exactly when it decodes to the command of that row. -/
theorem opcodeMap_rows (w : CmdWord) :
    opcodeMap.map (fun r => (r.mnemonic, r.selects w)) =
      (rowCommands (xField w) (yField w)).map (fun i => (i.mnemonic, decide (decode w = .ok i))) := by
  simp +decide only [opcodeMap, rowCommands, List.cons_append, List.nil_append, List.map_cons, List.map_nil,
    OpRow.selects, selectsZ, selectsOA, selectsU, decode_eq_ok_iff, Instr.xOf, Instr.yOf, and_true, true_and]
  rfl

/-- R82: the mnemonics of the rows that a word selects are those of the commands it decodes to. -/
theorem selectedRows_eq (w : CmdWord) :
    (opcodeMap.filter (fun r => r.selects w)).map OpRow.mnemonic =
      ((rowCommands (xField w) (yField w)).filter (fun i => decode w = .ok i)).map Instr.mnemonic := by
  have h := congrArg (fun l => (l.filter Prod.snd).map Prod.fst) (opcodeMap_rows w)
  simpa [List.filter_map, Function.comp_def] using h

end Sys2Proof

open Sys2Proof Sys2Proof.Machine

/-- Settles O1, by the three fields of the word (`decode_encode`). -/
theorem decodeOfEncodeIsTheCommand : Obligations.DecodeOfEncodeIsTheCommand := by
  unfold Obligations.DecodeOfEncodeIsTheCommand
  intro i h
  exact decode_encode h

/-- Settles O2: the fields fit, and the word is its three fields. -/
theorem encodeOfDecodedCommandIsTheWord : Obligations.EncodeOfDecodedCommandIsTheWord := by
  unfold Obligations.EncodeOfDecodedCommandIsTheWord
  intro w i h
  exact ⟨wellFormed_of_decode h, encode_of_decode h⟩

/-- Settles O4, opcode by opcode: each format has its own reason. -/
theorem illegalWordsAreThoseOfR86 : Obligations.IllegalWordsAreThoseOfR86 := by
  unfold Obligations.IllegalWordsAreThoseOfR86
  intro w
  unfold decode
  split
  case h_15 => exact iff_of_true rfl (.inl (by simp_all))
  all_goals
    simp [*, formatZ_isOk_eq_false_iff, formatU_isOk_eq_false_iff, formatA_isOk_eq_false_iff, formatO_isOk_eq_false_iff]

/-- Settles O3: the selected rows are those of the commands that the word decodes to (`selectedRows_eq`), of which there is one or
none. -/
theorem decoderFollowsTheOpcodeMap : Obligations.DecoderFollowsTheOpcodeMap := by
  unfold Obligations.DecoderFollowsTheOpcodeMap
  intro w
  cases hd : decode w with
  | ok i => rw [selectedRows_eq, rowCommands_filter_decode hd, List.map_singleton]
  | illegal why => simp [selectedRows_eq, hd]

/-- Settles O5, by decoding each word. -/
theorem sampleWordsDecode : Obligations.SampleWordsDecode := by
  unfold Obligations.SampleWordsDecode
  decide

end

section
/-! ## The word of a command line (R89, R90) -/

namespace Sys2Proof.Machine

/-- R89: a line whose operands fit assembles to a word that decodes to its command. -/
theorem decode_assemble {l : AsmLine} (h : l.instr.wellFormed = true) : decode l.assemble.word = .ok l.instr := by
  rw [assemble_word, decode_encode h]

theorem oscOfKind_wellFormed (k : WaveKind) (y : Nat) : (oscOfKind k y).wellFormed = fitsY y := by
  cases k <;> rfl

end Sys2Proof.Machine

open Sys2Proof Sys2Proof.Machine

/-- Settles O6: the word by `decode_assemble`, the lanes line by line. -/
theorem assembledLinesDecode : Obligations.AssembledLinesDecode := by
  unfold Obligations.AssembledLinesDecode
  refine ⟨fun l h => decode_assemble h, fun k t h lh la => ?_, fun l => ?_⟩
  · exact decode_assemble (l := .osc k t h lh la none) (oscOfKind_wellFormed k 50)
  · cases l with
    | wr r value => cases value <;> rfl
    | _ => rfl

end

section
/-! ## A step takes its command and answers it -/

namespace Sys2Proof.Machine

/-- R85: a command leaves the port as it was when it began. -/
theorem exec_inbox {i : Instr} {s t : State} (h : exec i s = .next t) : t.inbox = s.inbox := by
  obtain ⟨e, -, rfl⟩ | ⟨u, dom, q, r, fin, rfl, -, hinbox, -⟩ := exec_shape i s t h
  · exact s.raise_inbox e
  · rw [State.reply_inbox, hinbox]

/-- R13: every step answers a next state. -/
theorem step_next (s : State) : ∃ t, step s = .next t := by
  match hin : s.inbox with
  | [] => exact ⟨_, step_of_nil hin⟩
  | .rst :: rest => exact ⟨_, step_of_rst hin⟩
  | .command c :: rest =>
    match hd : decode c.word with
    | .ok i => exact step_of_decode_ok hin hd ▸ exec_next i _
    | .illegal why => exact ⟨_, step_of_decode_illegal hin hd⟩

/-- R68, R85: a command on the port is taken from it, and answered. -/
theorem step_command {s t : State} {c : Command} {rest : List HostInput} (h : step s = .next t)
    (hin : s.inbox = .command c :: rest) : t.inbox = rest ∧ ∃ r, t.rsp = some r := by
  match hd : decode c.word with
  | .ok i =>
    have hexec := (step_of_decode_ok hin hd).symm.trans h
    exact ⟨exec_inbox hexec, exec_answers hexec⟩
  | .illegal why =>
    obtain rfl := next_inj (h.symm.trans (step_of_decode_illegal hin hd))
    exact ⟨rfl, _, rfl⟩

end Sys2Proof.Machine

open Sys2Proof Sys2Proof.Machine

/-- Settles O11, by the input at the head of the port. -/
theorem everyCommandGivesOneResponse : Obligations.EveryCommandGivesOneResponse := by
  unfold Obligations.EveryCommandGivesOneResponse
  intro s
  obtain ⟨t, ht⟩ := step_next s
  exact ⟨t, ht, fun c rest hin => step_command ht hin⟩

/-- Settles O8: the state written out in the statement is the one of `step_of_decode_illegal`. -/
theorem illegalWordSetsOnlyIll : Obligations.IllegalWordSetsOnlyIll := by
  unfold Obligations.IllegalWordSetsOnlyIll
  intro s c rest why hin hd
  exact step_of_decode_illegal hin hd

end

section
/-! ## The lanes that a command does not use (R84, R91) -/

namespace Sys2Proof.Machine

/-! ### Other lanes under one outcome -/

/-- Two ways that a command can go, each of them the same under other lanes. -/
theorem next_ite_setLanes {p : Prop} [Decidable p] {a b a' b' : State} {l : Lanes}
    (ha : (.next a' : Out) = withLanes (.next a) l) (hb : (.next b' : Out) = withLanes (.next b) l) :
    (.next (if p then a' else b') : Out) = withLanes (.next (if p then a else b)) l := by
  rw [withLanes_ite]
  exact ite_next_congr Iff.rfl (fun _ => ha) fun _ => hb

theorem replyReg_setLanes (s : State) (l : Lanes) (v : RegVal) :
    State.replyReg { s with lanes := l } v = { s.replyReg v with lanes := l } := by
  cases v <;> rfl

theorem write_setLanes (s : State) (l : Lanes) (r : RegName) (n : I32) (d : Val) :
    State.write { s with lanes := l } r n d = { s.write r n d with lanes := l } := by
  cases r <;> rfl

theorem mixPass_setLanes (s : State) (l : Lanes) (tg : Val) (slots : List SlotRegs) (m : Mix) :
    State.mixPass { s with lanes := l } tg slots m = s.mixPass tg slots m :=
  mixPass_congr s { s with lanes := l } rfl rfl rfl tg slots m

/-! ### WR reads the lane of its register's type (R84, R167, R168) -/

theorem legal_congr {r : RegName} (c : Cfg) {n m : I32} {d e : Val} (hn : r.type = .i → n = m)
    (hd : r.type = .v → d = e) : r.legal c n d = r.legal c m e := by
  cases r with
  | instr i f =>
    cases f with
    | gate => obtain rfl := hn rfl; rfl
    | _ => obtain rfl := hd rfl; rfl
  | term i k f =>
    cases f with
    | tctl | semi | sawp => obtain rfl := hn rfl; rfl
    | _ => rfl
  | _ => rfl

theorem write_congr {r : RegName} (s : State) {n m : I32} {d e : Val} (hn : r.type = .i → n = m)
    (hd : r.type = .v → d = e) : s.write r n d = s.write r m e := by
  cases r with
  | status => obtain rfl := hn rfl; rfl
  | basef => obtain rfl := hd rfl; rfl
  | instr i f =>
    cases f with
    | gate => obtain rfl := hn rfl; rfl
    | _ => obtain rfl := hd rfl; rfl
  | term i k f =>
    cases f with
    | tctl | semi | sawp => obtain rfl := hn rfl; rfl
    | _ => obtain rfl := hd rfl; rfl
  | _ => rfl

theorem exec_rd_setLanes (a : Nat) (s : State) (l : Lanes) :
    exec (.rd a) { s with lanes := l } = withLanes (exec (.rd a) s) l := by
  have hread : State.readAddr { s with lanes := l } a = s.readAddr a := rfl
  simp only [exec, execRd, hread]
  cases s.readAddr a with
  | none => rfl
  | some v => exact congrArg Host.Outcome.next (replyReg_setLanes s l v)

theorem exec_wr_setLanes {a : Nat} {s : State} {l : Lanes} (h : (laneUse s.cfg (.wr a)).agree s.lanes l) :
    exec (.wr a) { s with lanes := l } = withLanes (exec (.wr a) s) l := by
  obtain ⟨hn, hd, -, -, -⟩ := h
  cases hr : regAt s.cfg a with
  | none => rw [exec_wr_of_unmapped hr, exec_wr_of_unmapped (s := { s with lanes := l }) hr]; rfl
  | some r =>
    have hn : r.type = .i → l.n = s.lanes.n := fun ht => (hn (by simp [laneUse, hr, ht])).symm
    have hd : r.type = .v → l.d0 = s.lanes.d0 := fun ht => (hd (by simp [laneUse, hr, ht])).symm
    simp only [exec, execWr, hr, legal_congr s.cfg hn hd, write_congr _ hn hd, write_setLanes]
    exact next_ite_setLanes rfl (next_ite_setLanes rfl rfl)

/-! ### Every command -/

/-- R91: a command under lanes that agree on those it uses does what it does under its own, but for the lanes. -/
theorem exec_setLanes {i : Instr} {s : State} {l : Lanes} (h : (laneUse s.cfg i).agree s.lanes l) :
    exec i { s with lanes := l } = withLanes (exec i s) l := by
  cases i
  case rd a => exact exec_rd_setLanes a s l
  case wr a => exact exec_wr_setLanes h
  all_goals
    obtain ⟨n, d0, d1, d2, d3⟩ := l
    obtain ⟨hn, h0, h1, h2, h3⟩ := h
  case nop | oscNoise => rfl
  case scale => obtain rfl := hn rfl; rfl
  case oscSin | oscTri | oscSqr | oscSawa | oscSawd =>
    obtain rfl := h0 rfl
    obtain rfl := h1 rfl
    obtain rfl := h2 rfl
    obtain rfl := h3 rfl
    rfl
  case env =>
    obtain rfl := h0 rfl
    obtain rfl := h1 rfl
    obtain rfl := h2 rfl
    exact next_ite_setLanes rfl rfl
  case voice =>
    obtain rfl := hn rfl
    obtain rfl := h0 rfl
    obtain rfl := h1 rfl
    obtain rfl := h2 rfl
    exact next_ite_setLanes rfl rfl
  case fltInit =>
    obtain rfl := h0 rfl
    obtain rfl := h1 rfl
    exact next_ite_setLanes rfl (next_ite_setLanes rfl rfl)
  case fltSetf | noteoff =>
    obtain rfl := h0 rfl
    exact next_ite_setLanes rfl (next_ite_setLanes rfl rfl)
  case fltLp | fltHp =>
    obtain rfl := h1 rfl
    exact next_ite_setLanes rfl rfl
  case addnote =>
    obtain rfl := hn rfl
    obtain rfl := h1 rfl
    obtain rfl := h2 rfl
    refine next_ite_setLanes ?_ rfl
    simp only [State.freeSlot]
    cases s.slots.findIdx? (fun r => !r.valid) <;> rfl
  case render =>
    obtain rfl := h0 rfl
    simp only [exec, execRender, mixPass_setLanes]
    rfl

/-- R91: field `y` is the `sawPeriod` of OSC.SAWA alone. -/
theorem osc_sawp_congr (s : State) {kind : WaveKind} (hk : kind ≠ .sawa) (y z : Nat) : s.osc kind y = s.osc kind z := by
  cases kind with
  | sawa => exact absurd rfl hk
  | _ => rfl

end Sys2Proof.Machine

open Sys2Proof Sys2Proof.Machine

/-- Settles O21: command by command over the lanes (`exec_setLanes`), kind by kind over field `y` (`osc_sawp_congr`). -/
theorem unusedOperandsHaveNoEffect : Obligations.UnusedOperandsHaveNoEffect := by
  unfold Obligations.UnusedOperandsHaveNoEffect
  refine ⟨fun i s l h => exec_setLanes h, fun y z s => ⟨?_, ?_, ?_, ?_, ?_⟩⟩
  all_goals exact congrArg Host.Outcome.next (osc_sawp_congr s (by decide) y z)

end

section
/-! ## The waveform generator (R100 to R107) -/

namespace Sys2Proof.Machine

/-! ### The sine, the inverse sine and the additive sum on the reals -/

/-- R103: the sine is positive exactly in the open first half of each period. -/
theorem sin_two_pi_mul_pos_iff (x : ℝ) :
    0 < Real.sin (2 * Real.pi * x) ↔ 0 < Int.fract x ∧ Int.fract x < 1 / 2 := by
  have hturn : Real.sin (2 * Real.pi * x) = Real.sin (2 * Real.pi * Int.fract x) := by
    rw [Int.fract, ← Real.sin_sub_int_mul_two_pi _ ⌊x⌋]; congr 1; ring
  have h0 := Int.fract_nonneg x
  have h1 := Int.fract_lt_one x
  have hpi := Real.pi_pos
  rw [hturn]
  generalize Int.fract x = f at h0 h1
  constructor
  · intro hsin
    have hne : f ≠ 0 := by rintro rfl; simp at hsin
    refine ⟨h0.lt_of_ne' hne, ?_⟩
    by_contra hhalf
    have hback : Real.sin (2 * Real.pi * f - 2 * Real.pi) ≤ 0 :=
      Real.sin_nonpos_of_nonpos_of_neg_pi_le (by nlinarith) (by nlinarith)
    rw [Real.sin_sub_two_pi] at hback
    exact hback.not_gt hsin
  · rintro ⟨hpos, hhalf⟩
    exact Real.sin_pos_of_pos_of_lt_pi (by positivity) (by nlinarith)

/-- R102: the inverse sine, brought to the triangle's range. -/
theorem arcsin_mul_two_div_pi_mem (x : ℝ) :
    -1 ≤ Real.arcsin x * 2 / Real.pi ∧ Real.arcsin x * 2 / Real.pi ≤ 1 := by
  have hlo := Real.neg_pi_div_two_le_arcsin x
  have hhi := Real.arcsin_le_pi_div_two x
  rw [le_div_iff₀ Real.pi_pos, div_le_iff₀ Real.pi_pos]
  constructor <;> linarith

theorem waveReal_of_exact (ρ : Valuation) {c : Cfg} (hw : c.waveImpl = .exact) (x : ℝ) :
    waveReal ρ c x = Real.sin x := by
  simp [waveReal, hw]

/-- R100: with no LFO depth the phase is `2 * PI` times the number of periods. -/
theorem phaseReal_of_no_depth (ρ : Valuation) (c : Cfg) (t hz lhz : ℝ) :
    phaseReal ρ c t hz lhz 0 = 2 * Real.pi * (hz * t) := by
  simp only [phaseReal]; ring

/-! ### Each kind for `NUM_R` -/

section
variable {c : Cfg} (h : c.num = .real) (ρ : Valuation)
include h

/-- R101. -/
theorem toReal_genSin (t hz lhz lamp : Val) : (genSin c t hz lhz lamp).toReal ρ =
    waveReal ρ c (phaseReal ρ c (t.toReal ρ) (hz.toReal ρ) (lhz.toReal ρ) (lamp.toReal ρ)) := by
  rw [genSin, ops_real h, numR_wave, toReal_wave, toReal_phase h]

/-- R102. -/
theorem toReal_genTri (t hz lhz lamp : Val) : (genTri c t hz lhz lamp).toReal ρ =
    asinReal ρ (waveReal ρ c (phaseReal ρ c (t.toReal ρ) (hz.toReal ρ) (lhz.toReal ρ) (lamp.toReal ρ))) * 2 / Real.pi := by
  simp [genTri, ops_real h, toReal_phase h]

/-- R102: with the exact sine the triangle stays in `[-1, 1]`. -/
theorem toReal_genTri_mem (hw : c.waveImpl = .exact) (t hz lhz lamp : Val) :
    -1 ≤ (genTri c t hz lhz lamp).toReal ρ ∧ (genTri c t hz lhz lamp).toReal ρ ≤ 1 := by
  rw [toReal_genTri h, waveReal_of_exact ρ hw, asin_sin]
  exact arcsin_mul_two_div_pi_mem _

omit ρ in
/-- R103: the name that the square gives, by the sign of the real wave. -/
theorem genSqr_eq_ite (t hz lhz lamp : Val) : genSqr c t hz lhz lamp =
    if 0 < waveReal Config.world c (phaseReal Config.world c t.real hz.real lhz.real lamp.real)
    then NumR.lit 1 else NumR.lit (-1) := by
  simp [genSqr, ops_real h, lt_iff, real_phase h]

omit ρ in
/-- R103: the square with no LFO depth and the exact sine. -/
theorem real_genSqr_of_no_depth (hw : c.waveImpl = .exact) (t hz lhz : Val) {lamp : Val} (hl : lamp.real = 0) :
    (genSqr c t hz lhz lamp).real =
      if 0 < Int.fract (hz.real * t.real) ∧ Int.fract (hz.real * t.real) < 1 / 2 then 1 else -1 := by
  rw [genSqr_eq_ite h, hl, phaseReal_of_no_depth, waveReal_of_exact _ hw, apply_ite Val.real]
  simp only [sin_two_pi_mul_pos_iff, real_lit, Rat.cast_one, Rat.cast_neg]

/-- R104, R170. -/
theorem toReal_genSawA (t hz lhz lamp : Val) (sawp : Nat) : (genSawA c t hz lhz lamp sawp).toReal ρ =
    sawAReal ρ c (phaseReal ρ c (t.toReal ρ) (hz.toReal ρ) (lhz.toReal ρ) (lamp.toReal ρ)) sawp := by
  have hterms : Finset.Ico 1 (1 + (sawp - 1)) = Finset.Ico 1 sawp := by
    ext k; simp only [Finset.mem_Ico]; omega
  simp [genSawA, sawAReal, ops_real h, toReal_sawLoop h, toReal_phase h, hterms]

/-- R105, away from the singular point. -/
theorem toReal_genSawD {t hz : Val} (hs : sawdSingular c t hz = false) (lhz lamp : Val) :
    (genSawD c t hz lhz lamp).toReal ρ =
      sawDReal (phaseReal ρ c (t.toReal ρ) (hz.toReal ρ) (lhz.toReal ρ) (lamp.toReal ρ)) (t.toReal ρ) (hz.toReal ρ) := by
  simp [genSawD, sawDReal, hs, ops_real h, toReal_phase h]

omit ρ in
/-- R105: the test for zero that the digital sawtooth makes is that of the reals. -/
theorem ops_eq_zero_iff (a : Val) : c.ops.eq a (NumR.lit 0) = true ↔ a.real = 0 := by
  rw [ops_real h, numR_eq, eq_iff, real_lit, Rat.cast_zero]

end

/-! ### The digital sawtooth at its singular point -/

theorem sawdSingular_eq_false {c : Cfg} {t hz : Val} (ht : c.ops.eq t (NumR.lit 0) = false)
    (hhz : c.ops.eq hz (NumR.lit 0) = false) : sawdSingular c t hz = false := by
  rw [sawdSingular, ht, hhz, Bool.or_self]

theorem sawdSingular_eq_true {c : Cfg} {t hz : Val}
    (hor : c.ops.eq t (NumR.lit 0) = true ∨ c.ops.eq hz (NumR.lit 0) = true) : sawdSingular c t hz = true :=
  (Bool.or_eq_true _ _).mpr hor

/-- R105: away from the singular point OSC.SAWD completes without an error. -/
theorem exec_oscSawd_of_regular {s : State} (hs : sawdSingular s.cfg s.lanes.d0 s.lanes.d1 = false) (y : Nat) :
    exec (.oscSawd y) s = .next { s with
      rsp := some ⟨genSawD s.cfg s.lanes.d0 s.lanes.d1 s.lanes.d2 s.lanes.d3, 0#32, false, .ok⟩ } := by
  simp [exec, execOscSawd, State.osc, generate, State.reply, hs]

/-- R105, R192: at the singular point OSC.SAWD answers `0` with DOMAIN. -/
theorem exec_oscSawd_of_singular {s : State} (hs : sawdSingular s.cfg s.lanes.d0 s.lanes.d1 = true) (y : Nat) :
    exec (.oscSawd y) s = .next { s with
      status := s.status ||| 16#32, rsp := some ⟨NumR.lit 0, 0#32, false, .domain⟩ } := by
  simp [exec, execOscSawd, State.osc, generate, genSawD, State.reply, setFlag, Err.statusBit, hs]

end Sys2Proof.Machine

open Sys2Proof Sys2Proof.Machine

/-- Settles O26: the answer is `genSin`. -/
theorem oscSinGivesWaveOfPhase : Obligations.OscSinGivesWaveOfPhase :=
  fun _ _ => ⟨_, rfl, fun h ρ => toReal_genSin h ρ _ _ _ _⟩

/-- Settles O27: the answer is `genTri`, whose range with the exact sine is that of the inverse sine of a sine. -/
theorem oscTriGivesTheTriangle : Obligations.OscTriGivesTheTriangle :=
  fun _ _ => ⟨_, rfl, fun h ρ => toReal_genTri h ρ _ _ _ _, fun h hw ρ => toReal_genTri_mem h ρ hw _ _ _ _⟩

/-- Settles O28: the answer is `genSqr`, whose test is the order of the reals. -/
theorem oscSqrGivesTheSignOfTheWave : Obligations.OscSqrGivesTheSignOfTheWave :=
  fun _ _ => ⟨_, rfl, fun h => genSqr_eq_ite h _ _ _ _⟩

/-- Settles O29, by the half of the period in which the sine is positive (`sin_two_pi_mul_pos_iff`). -/
theorem plainSquareIsTheSignOfTheSine : Obligations.PlainSquareIsTheSignOfTheSine :=
  fun _ _ h hw hl => ⟨_, rfl, real_genSqr_of_no_depth h hw _ _ _ hl⟩

/-- Settles O30: the answer is `genSawA`, whose loop is the sum (`toReal_sawLoop`). -/
theorem oscSawaGivesTheAdditiveSum : Obligations.OscSawaGivesTheAdditiveSum :=
  fun y _ => ⟨_, rfl, fun h ρ => toReal_genSawA h ρ _ _ _ _ y⟩

/-- Settles O31: away from the singular point, at it, and the two tests on the reals. -/
theorem oscSawdGivesTheClosedForm : Obligations.OscSawdGivesTheClosedForm := by
  refine fun y s => ⟨fun ht hhz => ?_, fun hor => exec_oscSawd_of_singular (sawdSingular_eq_true hor) y,
    fun h => ⟨ops_eq_zero_iff h _, ops_eq_zero_iff h _⟩⟩
  have hs := sawdSingular_eq_false ht hhz
  exact ⟨_, exec_oscSawd_of_regular hs y, fun h ρ => toReal_genSawD h ρ hs _ _⟩

/-- Settles O33: the answer is `scale`, and `semi` is the real power of two. -/
theorem scaleGivesEqualTemperament : Obligations.ScaleGivesEqualTemperament :=
  fun _ => ⟨_, rfl, fun h ρ => toReal_scale h ρ _ _⟩

/-- Settles O32: the answer is the next value of the draw stream, which lies in `[-1, 1]` (`draw_mem`). -/
theorem oscNoiseReturnsOneDraw : Obligations.OscNoiseReturnsOneDraw :=
  fun _ _ => ⟨_, rfl, rfl, fun ρ => draw_mem ρ _⟩

end

section
/-! ## The envelope (R120 to R124) -/

namespace Sys2Proof.Machine

/-! ### The shape and the release line on the reals -/

section
variable {e : EnvRegs}

/-- R120: the attack line. -/
theorem envShapeReal_of_attack {age : ℝ} (hatt : 0 < e.att) (hage : age ≤ e.att) :
    envShapeReal e age = age / e.att * e.start := by
  rw [envShapeReal, if_pos hage, if_pos hatt]

/-- R120: the attack ends at `startAmplitude`, the instant attack too. -/
theorem envShapeReal_att (hatt : 0 ≤ e.att) : envShapeReal e e.att = e.start := by
  obtain hpos | hzero := hatt.lt_or_eq
  · rw [envShapeReal_of_attack hpos le_rfl, div_self hpos.ne', one_mul]
  · simp [envShapeReal, ← hzero]

/-- R120: past the attack and the decay the shape is flat. -/
theorem envShapeReal_of_sustain {age : ℝ} (hdec : 0 ≤ e.dec) (hage : e.att + e.dec < age) :
    envShapeReal e age = e.sus := by
  have hatt : e.att < age := by linarith
  rw [envShapeReal, if_neg hatt.not_ge, if_neg hage.not_ge]

variable {rel0 : EnvRel0} {tg on off : ℝ}

/-- R121: a held note has the shape at its age. -/
theorem envRawReal_of_held (hheld : off < on) : envRawReal rel0 e tg on off = envShapeReal e (tg - on) :=
  if_pos hheld

/-- R124 (3): the release line meets zero at `releaseTime`, whatever amplitude it starts from. -/
theorem envRawReal_at_release_end (hoff : on ≤ off) (hrel : 0 < e.rel ∨ e.rel = 0 ∧ rel0 = .zero)
    (htg : tg = off + e.rel) : envRawReal rel0 e tg on off = 0 := by
  rw [envRawReal, if_neg hoff.not_gt, htg]
  obtain hpos | ⟨hzero, hrel0⟩ := hrel
  · rw [if_pos hpos, add_sub_cancel_left, div_self hpos.ne']
    ring
  · rw [hzero, if_neg (lt_irrefl 0), if_pos hrel0, add_zero, if_pos le_rfl]

theorem envReal_eq_ite : envReal rel0 e tg on off =
    if 1 / 100 < envRawReal rel0 e tg on off then envRawReal rel0 e tg on off else 0 := by
  simp only [envReal, ← not_lt, ite_not]

end

/-! ### The clamp (R121) -/

/-- R121 (a): for every `NUM` the clamp gives `0` or a value that it would give again. -/
theorem envClamp_eq_zero_or (c : Cfg) (v : Val) :
    envClamp c v = NumR.lit 0 ∨ c.ops.le (envClamp c v) Config.epsEnv = false := by
  by_cases hle : c.ops.le v Config.epsEnv = true
  · exact .inl (if_pos hle)
  · right
    rw [envClamp, if_neg hle]
    exact Bool.eq_false_iff.mpr hle

section
variable {c : Cfg} (h : c.num = .real)
include h

/-- R121: what the clamp's test says for `NUM_R`. -/
theorem ops_le_epsEnv_iff (v : Val) : c.ops.le v Config.epsEnv = true ↔ v.real ≤ 1 / 100 := by
  rw [ops_real h, numR_le, le_iff, real_epsEnv]

theorem real_envClamp_eq_zero_or (v : Val) : (envClamp c v).real = 0 ∨ 1 / 100 < (envClamp c v).real := by
  obtain hzero | haudible := envClamp_eq_zero_or c v
  · left; rw [hzero, real_lit, Rat.cast_zero]
  · right; rwa [← not_le, ← ops_le_epsEnv_iff h, Bool.not_eq_true]

theorem env_eq_zero {r : InstrRegs} {tg on off : Val} (hraw : (envRaw c r tg on off).real ≤ 1 / 100) :
    env c r tg on off = NumR.lit 0 :=
  if_pos ((ops_le_epsEnv_iff h _).mpr hraw)

/-- R121: the amplitude of a held note before the clamp. -/
theorem real_envRaw_of_held (r : InstrRegs) (tg : Val) {on off : Val} (hheld : off.real < on.real) :
    (envRaw c r tg on off).real = envShapeReal r.envRegs (tg.real - on.real) := by
  rw [real_envRaw h, envRawReal_of_held hheld]

end

/-- R122: ENV of an instrument that exists answers the amplitude and changes no register. -/
theorem exec_env {i : Nat} {s : State} (hi : i < s.cfg.ninstr) : exec (.env i) s = .next { s with
    rsp := some ⟨env s.cfg (s.instr i) s.lanes.d0 s.lanes.d1 s.lanes.d2, 0#32, false, .ok⟩ } :=
  congrArg Host.Outcome.next (if_pos hi)

end Sys2Proof.Machine

open Sys2Proof Sys2Proof.Machine

/-- Settles O34: the answer is `env`, which for `NUM_R` is the real envelope (`real_env`). -/
theorem envGivesTheAmplitude : Obligations.EnvGivesTheAmplitude :=
  fun _ _ hi => ⟨_, exec_env hi, fun h => real_env h _ _ _ _⟩

/-- Settles O35: the answer has gone through the clamp. -/
theorem envOutputIsZeroOrAudible : Obligations.EnvOutputIsZeroOrAudible := by
  unfold Obligations.EnvOutputIsZeroOrAudible
  rw [← epsEnv_eq_lit]
  exact fun i s hi => ⟨_, exec_env hi, envClamp_eq_zero_or s.cfg _, fun h => real_envClamp_eq_zero_or h _⟩

/-- Settles O36: the attack line of a held note, and the value in which it ends (`envShapeReal_att`). -/
theorem attackIsLinearAndReachesStart : Obligations.AttackIsLinearAndReachesStart := by
  unfold Obligations.AttackIsLinearAndReachesStart
  intro c r tg on off h hheld hage0 hage
  rw [real_envRaw_of_held h r tg hheld]
  refine ⟨fun hatt => envShapeReal_of_attack hatt hage, fun hend => ?_⟩
  rw [hend]
  exact envShapeReal_att (e := r.envRegs) (hage0.trans hage)

/-- Settles O37: past the decay the amplitude before the clamp is `sustainAmplitude` (`envShapeReal_of_sustain`). -/
theorem sustainIsExact : Obligations.SustainIsExact := by
  unfold Obligations.SustainIsExact
  intro c r tg on off h hheld hdec hage
  rw [real_env h, envReal_eq_ite, envRawReal_of_held hheld, envShapeReal_of_sustain hdec hage, InstrRegs.envRegs]

/-- Settles O38: the amplitude before the clamp is `0` (`envRawReal_at_release_end`), which the clamp gives as the name `0`. -/
theorem releaseEndsInSilence : Obligations.ReleaseEndsInSilence := by
  unfold Obligations.ReleaseEndsInSilence
  intro c r tg on off h hoff hrel htg
  apply env_eq_zero h
  rw [real_envRaw h, envRawReal_at_release_end (e := r.envRegs) hoff hrel htg]
  norm_num

end

section
/-! ## The filters (R130 to R134) -/

namespace Sys2Proof.Machine

variable {f : Nat} {s t : State}

/-! ### A filter command on a unit that exists -/

/-- R130: FLT.INIT with a rate that is not `<= 0`. -/
theorem exec_fltInit (hf : f < s.cfg.nfilt) (hrate : s.cfg.ops.le s.lanes.d1 zeroVal = false) :
    exec (.fltInit f) s = .next (s.setFilt f ⟨filterAlpha s.cfg s.lanes.d0 s.lanes.d1, NumR.lit 0, s.lanes.d1, s.lanes.d0⟩).done := by
  simp only [exec, execFltInit]
  rw [if_neg hf.not_ge, if_neg (Bool.eq_false_iff.mp hrate)]

/-- R131: FLT.SETF of a unit that was initialised. -/
theorem exec_fltSetf (hf : f < s.cfg.nfilt) (hinit : s.cfg.ops.eq (s.filt f).srate zeroVal = false) :
    exec (.fltSetf f) s = .next (s.setFilt f { s.filt f with
      alpha := filterAlpha s.cfg s.lanes.d0 (s.filt f).srate, cutoff := s.lanes.d0 }).done := by
  simp only [exec, execFltSetf]
  rw [if_neg hf.not_ge, if_neg (Bool.eq_false_iff.mp hinit)]

/-- R132: FLT.LP. -/
theorem exec_fltLp (hf : f < s.cfg.nfilt) :
    exec (.fltLp f) s = .next (s.applyFilter f (lowPass s.cfg (s.filt f) s.lanes.d1)) :=
  congrArg Host.Outcome.next (if_neg hf.not_ge)

/-- R133: FLT.HP. -/
theorem exec_fltHp (hf : f < s.cfg.nfilt) :
    exec (.fltHp f) s = .next (s.applyFilter f (highPass s.cfg (s.filt f) s.lanes.d1)) :=
  congrArg Host.Outcome.next (if_neg hf.not_ge)

/-! ### The step response of the low-pass (R132) -/

/-- The output of a filter is the PREV of its unit, whose other registers stay. -/
theorem applyFilter_filt (hf : f < s.filters.length) (out : Val) :
    (s.applyFilter f out).filt f = { s.filt f with prev := out } := by
  rw [State.filt, State.applyFilter_filters, getD_set, if_pos ⟨rfl, hf⟩]

/-- What a run of FLT.LP on unit `f` with the sample 1 keeps: everything that its output depends on, but PREV. -/
structure FedWithOnes (f : Nat) (alpha : Val) (s : State) : Prop where
  num : s.cfg.num = .real
  unitExists : f < s.cfg.nfilt
  filtersLength : f < s.filters.length
  alpha : (s.filt f).alpha = alpha
  sample : s.lanes.d1 = NumR.lit 1

variable {alpha : Val}

theorem FedWithOnes.fltLp (hs : FedWithOnes f alpha s) (h : exec (.fltLp f) s = .next t) : FedWithOnes f alpha t := by
  obtain rfl := next_inj ((exec_fltLp hs.unitExists).symm.trans h)
  exact {
    num := hs.num
    unitExists := hs.unitExists
    filtersLength := by rw [State.applyFilter_filters, List.length_set]; exact hs.filtersLength
    alpha := by rw [applyFilter_filt hs.filtersLength]; exact hs.alpha
    sample := hs.sample }

/-- One FLT.LP brings PREV nearer to the constant sample 1 by the factor ALPHA. -/
theorem FedWithOnes.one_sub_prev (hs : FedWithOnes f alpha s) (h : exec (.fltLp f) s = .next t) (ρ : Valuation) :
    1 - (t.filt f).prev.toReal ρ = alpha.toReal ρ * (1 - (s.filt f).prev.toReal ρ) := by
  obtain rfl := next_inj ((exec_fltLp hs.unitExists).symm.trans h)
  rw [applyFilter_filt hs.filtersLength, toReal_lowPass hs.num, hs.alpha, hs.sample, toReal_lit, Rat.cast_one]
  ring

variable {run : Nat → State}

theorem fedWithOnes_run (h0 : FedWithOnes f alpha (run 0)) (hrun : ∀ k, exec (.fltLp f) (run k) = .next (run (k + 1)))
    (n : Nat) : FedWithOnes f alpha (run n) := by
  induction n with
  | zero => exact h0
  | succ n ih => exact ih.fltLp (hrun n)

/-- From `PREV = 0` the distance of PREV from the sample is `ALPHA^n` after `n` outputs. -/
theorem one_sub_prev_run (h0 : FedWithOnes f alpha (run 0)) (hprev : ((run 0).filt f).prev = NumR.lit 0)
    (hrun : ∀ k, exec (.fltLp f) (run k) = .next (run (k + 1))) (ρ : Valuation) (n : Nat) :
    1 - ((run n).filt f).prev.toReal ρ = alpha.toReal ρ ^ n := by
  induction n with
  | zero => rw [hprev, toReal_lit, Rat.cast_zero, sub_zero, pow_zero]
  | succ n ih => rw [(fedWithOnes_run h0 hrun n).one_sub_prev (hrun n), ih, pow_succ']

/-! ### Other filter registers under RENDER and VOICE (R134) -/

theorem mixPass_setFilters (s : State) (fs : List FilterRegs) (tg : Val) (slots : List SlotRegs) (m : Mix) :
    State.mixPass { s with filters := fs } tg slots m = s.mixPass tg slots m :=
  mixPass_congr s { s with filters := fs } rfl rfl rfl tg slots m

theorem exec_render_setFilters (s : State) (fs : List FilterRegs) :
    exec .render { s with filters := fs } = withFilters (exec .render s) fs := by
  simp only [exec, execRender, mixPass_setFilters]
  rfl

theorem exec_voice_setFilters (i : Nat) (s : State) (fs : List FilterRegs) :
    exec (.voice i) { s with filters := fs } = withFilters (exec (.voice i) s) fs := by
  simp only [exec, execVoice]
  split
  · rfl
  · rfl

end Sys2Proof.Machine

open Sys2Proof Sys2Proof.Machine

/-- Settles O39: FLT.INIT writes the unit (`exec_fltInit`), with the coefficient of R130 (`toReal_filterAlpha`). -/
theorem fltInitConstructsTheUnit : Obligations.FltInitConstructsTheUnit :=
  fun _ _ hf hrate => ⟨_, exec_fltInit hf hrate, fun h ρ => toReal_filterAlpha h ρ _ _⟩

/-- Settles O40: FLT.SETF writes ALPHA and CUTOFF (`exec_fltSetf`), with the coefficient of R131 (`toReal_filterAlpha`). -/
theorem fltSetfKeepsPrev : Obligations.FltSetfKeepsPrev :=
  fun _ _ hf hinit => ⟨_, exec_fltSetf hf hinit, fun h ρ => toReal_filterAlpha h ρ _ _⟩

/-- Settles O41: the output is `lowPass` (`exec_fltLp`), which for `NUM_R` is the formula of R132. -/
theorem fltLpAppliesItsFormula : Obligations.FltLpAppliesItsFormula :=
  fun _ _ hf => ⟨_, exec_fltLp hf, fun h ρ => toReal_lowPass h ρ _ _⟩

/-- Settles O42: the output is `highPass` (`exec_fltHp`), which for `NUM_R` is the formula of R133. -/
theorem fltHpAppliesItsFormula : Obligations.FltHpAppliesItsFormula :=
  fun _ _ hf => ⟨_, exec_fltHp hf, fun h ρ => toReal_highPass h ρ _ _⟩

/-- Settles O43: by induction over the run, each output is nearer to 1 by the factor ALPHA (`one_sub_prev_run`). -/
theorem lowPassStepResponse : Obligations.LowPassStepResponse := by
  unfold Obligations.LowPassStepResponse
  intro f run alpha hnum hf hlen halpha hprev hsample hrun n ρ
  rw [← one_sub_prev_run ⟨hnum, hf, hlen, halpha, hsample⟩ hprev hrun ρ n, sub_sub_cancel]

/-- Settles O22: the mixing pass does not depend on the filter registers (`mixPass_setFilters`), and a voice reads one instrument. -/
theorem renderAndVoiceIgnoreTheFilters : Obligations.RenderAndVoiceIgnoreTheFilters := by
  unfold Obligations.RenderAndVoiceIgnoreTheFilters
  rintro i s fs (rfl | ⟨x, rfl⟩)
  · exact exec_render_setFilters s fs
  · exact exec_voice_setFilters x s fs

end

section
/-! ## Instruments (R140 to R143) -/

namespace Sys2Proof.Machine

/-- R142: the first term meets the draw counter that the recipe starts with. -/
theorem drawsBefore_zero (terms : List TermRegs) (d : Nat) : drawsBefore terms d 0 = d := by
  cases terms <;> rfl

section
variable {c : Cfg} (h : c.num = .real)
include h

/-- R105, R107: a digital sawtooth at a scale pitch is at its singular point where the time or the pitch is `0`. -/
theorem sawdSingular_scale_iff (t basef : Val) (n : Int) :
    sawdSingular c t (scale c basef n) = true ↔ t.real = 0 ∨ basef.real * (2 : ℝ) ^ ((n : ℝ) / 12) = 0 := by
  rw [sawdSingular_iff h, Val.real, Val.real, toReal_scale h, semiReal, Val.real]

/-- R140: the sample of an instrument, `amp * sum * VOL`. -/
theorem toReal_instrRender_sample (ρ : Valuation) (basef : Val) (r : InstrRegs) (tg : Val) (id : Int) (on off : Val)
    (draws : Nat) : (instrRender c basef r tg id on off draws).sample.toReal ρ =
      (env c r tg on off).toReal ρ * (recipeSum c basef (c.ops.sub tg on) id r.terms draws).val.toReal ρ *
        r.vol.toReal ρ := by
  simp only [instrRender, ops_real h, numR_mul, toReal_mul]

end

/-- R143: VOICE of an instrument that exists answers its sample and its completion, and takes the draws of its recipe. -/
theorem exec_voice {i : Nat} {s : State} (hi : i < s.cfg.ninstr) :
    let v := instrRender s.cfg s.basef (s.instr i) s.lanes.d0 (sext32 s.lanes.n) s.lanes.d1 s.lanes.d2 s.draws
    exec (.voice i) s = .next ({ s with draws := v.draws }.reply v.dom v.sample 0#32 v.fin) :=
  congrArg Host.Outcome.next (if_pos hi)

end Sys2Proof.Machine

open Sys2Proof Sys2Proof.Machine

/-- Settles O46: the recipe is its loop (`recipeLoop_spec`) from the sum `0` with no DOMAIN recorded; the counter that term `k` meets
is `drawsBefore`. -/
theorem recipeIsTheWeightedSum : Obligations.RecipeIsTheWeightedSum := by
  unfold Obligations.RecipeIsTheWeightedSum
  intro c basef t id terms draws _ pitch
  obtain ⟨hdraws, hdom, hval⟩ := recipeLoop_spec c basef t id terms ⟨NumR.lit 0, false, draws⟩
  refine ⟨drawsBefore terms draws, drawsBefore_zero terms draws, fun k hk => drawsBefore_succ terms draws k hk, hdraws,
    hdom.trans (or_iff_right Bool.false_ne_true), fun h m _ => sawdSingular_scale_iff h t basef _, fun h ρ => ?_⟩
  have hsum := hval h ρ
  rw [toReal_lit, Rat.cast_zero, zero_add] at hsum
  exact hsum

/-- Settles O45: the answer is that of `instrRender` (`exec_voice`), whose sample for `NUM_R` is the product of R140. -/
theorem voiceRendersOneNote : Obligations.VoiceRendersOneNote :=
  fun _ _ hi => ⟨_, exec_voice hi, fun h ρ => toReal_instrRender_sample h ρ _ _ _ _ _ _ _⟩

end

section
/-! ## The note pool (R150 to R157) -/

namespace Sys2Proof.Machine

variable {s t : State}

/-- R30: the flags of a note. -/
theorem valid_of_sflags {r : SlotRegs} (hr : r.sflags = 3#32) : r.valid = true := by
  rw [SlotRegs.valid, hr]; rfl

theorem active_of_sflags {r : SlotRegs} (hr : r.sflags = 3#32) : r.active = true := by
  rw [SlotRegs.active, hr]; rfl

/-! ### ADDNOTE (R151, R193) -/

theorem noteRefOk_iff (c : Cfg) (i : Nat) : noteRefOk c i = true ↔ i < c.ninstr ∨ i = 0xFF := by
  simp [noteRefOk, nullRef]

theorem slot_eq_getElem {x : Nat} (hx : x < s.slots.length) : s.slot x = s.slots[x] := by
  simp [State.slot, List.getD, hx]

theorem freeSlot_eq_some {x : Nat} (hx : x < s.slots.length) (hfree : (s.slot x).valid = false)
    (hleast : ∀ y < x, (s.slot y).valid = true) : s.freeSlot = some x := by
  rw [State.freeSlot, List.findIdx?_eq_some_iff_getElem]
  refine ⟨hx, ?_, fun y hy => ?_⟩
  · rw [← slot_eq_getElem hx, hfree, Bool.not_false]
  · rw [← slot_eq_getElem (hy.trans hx), hleast y hy, Bool.not_true]
    exact Bool.false_ne_true

theorem freeSlot_eq_none (hfull : ∀ r ∈ s.slots, r.valid = true) : s.freeSlot = none := by
  rw [State.freeSlot, List.findIdx?_eq_none_iff]
  exact fun r hr => by rw [hfull r hr, Bool.not_true]

/-- R26: a note in a free slot raises NVALID by one. -/
theorem setSlot_nvalid_of_free {x : Nat} {r : SlotRegs} (hx : x < s.slots.length) (hfree : (s.slot x).valid = false)
    (hr : r.valid = true) : (s.setSlot x r).nvalid = s.nvalid + 1 := by
  rw [slot_eq_getElem hx] at hfree
  simp [State.nvalid, List.countP_set hx, hfree, hr]

theorem exec_addnote_of_badRef {i : Nat} (hi : noteRefOk s.cfg i = false) :
    exec (.addnote i) s = .next (s.raise .badArg) := by
  simp only [exec, execAddnote]
  rw [if_neg (Bool.eq_false_iff.mp hi)]

theorem exec_addnote_of_full {i : Nat} (hi : noteRefOk s.cfg i = true) (hfull : s.freeSlot = none) :
    exec (.addnote i) s = .next (s.raise .poolFull) := by
  simp only [exec, execAddnote, hfull]
  rw [if_pos hi]

theorem exec_addnote_of_free {i x : Nat} (hi : noteRefOk s.cfg i = true) (hx : s.freeSlot = some x) :
    exec (.addnote i) s = .next ((s.setSlot x ⟨3#32, s.lanes.n, s.lanes.d1, s.lanes.d2, BitVec.ofNat 32 i⟩).reply false
      zeroVal (BitVec.ofNat 32 x) false) := by
  simp only [exec, execAddnote, hx]
  rw [if_pos hi]

/-! ### NOTEOFF (R152) -/

theorem exec_noteoff_of_beyond {x : Nat} (hx : s.cfg.nslots ≤ x) : exec (.noteoff x) s = .next (s.raise .badArg) := by
  simp only [exec, execNoteoff]
  rw [if_pos hx]

theorem exec_noteoff_of_free {x : Nat} (hx : x < s.cfg.nslots) (hfree : (s.slot x).valid = false) :
    exec (.noteoff x) s = .next (s.raise .badRef) := by
  simp only [exec, execNoteoff]
  rw [if_neg hx.not_ge, if_neg (Bool.eq_false_iff.mp hfree)]

theorem exec_noteoff_of_valid {x : Nat} (hx : x < s.cfg.nslots) (hvalid : (s.slot x).valid = true) :
    exec (.noteoff x) s = .next (s.setSlot x { s.slot x with offt := s.lanes.d0 }).done := by
  simp only [exec, execNoteoff]
  rw [if_neg hx.not_ge, if_pos hvalid]

/-! ### What a command can do to a note -/

theorem slot_of_slots_set {y : Nat} {r : SlotRegs} (h : t.slots = s.slots.set y r) (x : Nat) :
    t.slot x = if y = x ∧ y < s.slots.length then r else s.slot x := by
  rw [State.slot, h, getD_set, State.slot]

theorem prune_of_active {r : SlotRegs} (hr : r.active = true) : r.prune = r := by
  rw [SlotRegs.prune, hr, Bool.not_true, Bool.and_false, if_neg Bool.false_ne_true]

/-- R31: the pruning pass finds nothing to free in a settled slot. -/
theorem prune_of_settled {r : SlotRegs} (hr : r.settled = true) : r.prune = r := by
  have hflags : r.valid = r.active := by simpa [SlotRegs.settled] using hr
  rw [SlotRegs.prune, hflags, Bool.and_not_self, if_neg Bool.false_ne_true]

/-- R152, R153: a command does one of two things to a slot that holds a note: it leaves all but the release point, or it is RENDER,
and frees the slot, because the note was inactive already or because it sounded. -/
theorem exec_slot_of_valid {i : Instr} {x : Nat} (h : exec i s = .next t) (hvalid : (s.slot x).valid = true) :
    (∃ off, t.slot x = { s.slot x with offt := off }) ∨
    (i = .render ∧ t.slot x = SlotRegs.free ∧ ((s.slot x).active = false ∨ (s.slot x).sounding = true)) := by
  obtain ht | ⟨y, a, -, hy, -, ht⟩ | ⟨y, -, -, ht⟩ | ⟨rfl, m, ht⟩ := exec_slots i s t h
  · exact .inl ⟨(s.slot x).offt, by rw [State.slot, ht]; rfl⟩
  · obtain ⟨-, hfree⟩ := freeSlot_invalid hy
    have hne : ¬(y = x ∧ y < s.slots.length) := by
      rintro ⟨rfl, -⟩
      rw [hvalid] at hfree
      cases hfree
    exact .inl ⟨(s.slot x).offt, by rw [slot_of_slots_set ht, if_neg hne]⟩
  · rw [slot_of_slots_set ht]
    split
    · next hyx =>
      obtain ⟨rfl, -⟩ := hyx
      exact .inl ⟨_, rfl⟩
    · exact .inl ⟨_, rfl⟩
  · obtain hslot | ⟨hsound, hslot⟩ := render_slot s m x t ht
    · cases hactive : (s.slot x).active
      · exact .inr ⟨rfl, by rw [hslot, SlotRegs.prune, hvalid, hactive]; rfl, .inl rfl⟩
      · exact .inl ⟨(s.slot x).offt, by rw [hslot, prune_of_active hactive]⟩
    · exact .inr ⟨rfl, hslot, .inr hsound⟩

/-! ### RENDER (R153 to R157) -/

/-- R153: what the mixing pass of RENDER gives. -/
def State.mixed (s : State) : List SlotRegs × Mix := s.mixPass s.lanes.d0 s.slots ⟨NumR.lit 0, false, s.draws⟩

/-- R154: the draw counter when RENDER meets slot `x`. -/
def State.drawsMet (s : State) (x : Nat) : Nat := drawsAt s s.lanes.d0 s.slots s.draws x

/-- R153: what RENDER makes of the note in slot `x`. -/
def State.voiceMet (s : State) (x : Nat) : Voice := s.slotVoice s.lanes.d0 (s.slot x) (s.drawsMet x)

theorem drawsMet_zero (s : State) : s.drawsMet 0 = s.draws := drawsAt_zero ..

theorem drawsMet_succ {x : Nat} (hx : x < s.slots.length) :
    s.drawsMet (x + 1) = if (s.slot x).sounding then (s.voiceMet x).draws else s.drawsMet x :=
  drawsAt_succ s _ _ _ x hx

theorem mixed_draws (s : State) : s.mixed.2.draws = s.drawsMet s.slots.length := by
  obtain ⟨hdraws, -, -, -⟩ := mixPass_spec s s.lanes.d0 s.slots ⟨NumR.lit 0, false, s.draws⟩
  exact hdraws

/-- R157: without a NOISE term the mixing pass takes no draw. -/
theorem mixed_draws_of_noiseFree (hs : s.noiseFree) : s.mixed.2.draws = s.draws :=
  mixPass_draws s s.lanes.d0 s.slots hs _

theorem mixed_dom_iff (s : State) :
    s.mixed.2.dom = true ↔ ∃ x < s.slots.length, (s.slot x).sounding = true ∧ (s.voiceMet x).dom = true := by
  obtain ⟨-, hdom, -, -⟩ := mixPass_spec s s.lanes.d0 s.slots ⟨NumR.lit 0, false, s.draws⟩
  exact hdom.trans (or_iff_right Bool.false_ne_true)

/-- R153, R154: for `NUM_R` the pass adds up the samples of the sounding notes. -/
theorem toReal_mixed_acc (hnum : s.cfg.num = .real) (ρ : Valuation) : s.mixed.2.acc.toReal ρ =
    ∑ x ∈ Finset.range s.slots.length, if (s.slot x).sounding then (s.voiceMet x).sample.toReal ρ else 0 := by
  obtain ⟨-, -, -, hsum⟩ := mixPass_spec s s.lanes.d0 s.slots ⟨NumR.lit 0, false, s.draws⟩
  have h := hsum hnum ρ
  rw [toReal_lit, Rat.cast_zero, zero_add] at h
  exact h

/-- R153, R155: of the settled slots the two passes free exactly those whose note sounded and is finished. -/
theorem prune_mixed_slot {x : Nat} (hx : x < s.slots.length) (hsettled : (s.slot x).settled = true) :
    (s.mixed.1.map SlotRegs.prune).getD x SlotRegs.free =
      if (s.slot x).sounding = true ∧ (s.voiceMet x).fin = true then SlotRegs.free else s.slot x := by
  obtain ⟨-, -, hslots, -⟩ := mixPass_spec s s.lanes.d0 s.slots ⟨NumR.lit 0, false, s.draws⟩
  have hmixed : s.mixed.1.getD x SlotRegs.free =
      if (s.slot x).sounding = true ∧ (s.voiceMet x).fin = true then (s.slot x).deactivate else s.slot x := hslots x hx
  rw [getD_map_prune, hmixed]
  split
  · next hfin =>
    obtain ⟨hsound, -⟩ := hfin
    exact prune_deactivate hsound
  · exact prune_of_settled hsettled

/-- The mixing pass depends on the parameters, BASEF, the instruments, the lanes, the slots and the draw counter alone. -/
theorem mixed_congr (hcfg : t.cfg = s.cfg) (hbasef : t.basef = s.basef) (hinstrs : t.instrs = s.instrs)
    (hlanes : t.lanes = s.lanes) (hslots : t.slots = s.slots) (hdraws : t.draws = s.draws) : t.mixed = s.mixed := by
  rw [State.mixed, State.mixed, hlanes, hslots, hdraws, mixPass_congr s t hcfg hbasef hinstrs]

theorem mixPass_of_silent (s : State) (tg : Val) {slots : List SlotRegs} (m : Mix)
    (hsilent : ∀ r ∈ slots, r.sounding = false) : s.mixPass tg slots m = (slots, m) := by
  induction slots with
  | nil => rfl
  | cons r rs ih =>
    have hr := hsilent r List.mem_cons_self
    have hrs := ih fun q hq => hsilent q (List.mem_cons_of_mem r hq)
    rw [State.mixPass, if_neg (Bool.eq_false_iff.mp hr), hrs]

/-- R153: the state after the two passes of RENDER, before the response. -/
def State.passed (s : State) : State :=
  { s with slots := s.mixed.1.map SlotRegs.prune, acc := s.mixed.2.acc, draws := s.mixed.2.draws }

theorem exec_render (s : State) :
    exec .render s = .next (s.passed.reply s.mixed.2.dom s.mixed.2.acc 0#32 false) := rfl

/-- Where `dom` says that `p` holds, a command that completes reports DOMAIN under `p`. -/
theorem reply_eq_of_dom_iff (s : State) {dom : Bool} {p : Prop} [Decidable p] (hp : dom = true ↔ p) (q : Val) (r : I32)
    (fin : Bool) : s.reply dom q r fin = { s with
      status := if p then s.status ||| 16#32 else s.status
      rsp := some ⟨q, r, fin, if p then .domain else .ok⟩ } := by
  simp only [State.reply, setFlag, Err.statusBit, hp]

theorem setFlag_setFlag (st : I32) (e : Err) : setFlag (setFlag st e) e = setFlag st e := by
  rw [setFlag, setFlag, BitVec.or_assoc, BitVec.or_self]

/-- A command that completes once more in the same way leaves the same state. -/
theorem reply_reply (s : State) (dom : Bool) (q : Val) (r : I32) (fin : Bool) :
    (s.reply dom q r fin).reply dom q r fin = s.reply dom q r fin := by
  cases dom
  · rfl
  · simp only [State.reply, if_true, setFlag_setFlag]

end Sys2Proof.Machine

open Sys2Proof Sys2Proof.Machine

/-- Settles O50: `at_` is `State.drawsMet` and `q` the sum of the mixing pass; each clause is one law of the two passes, written out by
the fields of the note that RENDER meets (`State.voiceMet`). -/
theorem renderMixesAndPrunes : Obligations.RenderMixesAndPrunes := by
  unfold Obligations.RenderMixesAndPrunes
  intro s hsettled
  rw [mem_slot_iff] at hsettled
  refine ⟨s.drawsMet, s.mixed.2.acc, _, drawsMet_zero s, fun x hx => drawsMet_succ hx, exec_render s, ?state,
    exec_slots_length (exec_render s), fun x hx => prune_mixed_slot hx (hsettled x hx), fun hnum ρ => ?sum⟩
  case state =>
    rw [← mixed_draws]
    exact reply_eq_of_dom_iff _ (mixed_dom_iff s) _ _ _
  case sum =>
    rw [toReal_mixed_acc hnum ρ]
    exact Finset.sum_congr rfl fun x _ => if_congr Iff.rfl (toReal_instrRender_sample hnum ρ _ _ _ _ _ _ _) rfl

/-- Settles O20: a slot that held a note holds it still, unless the command is RENDER (`exec_slot_of_valid`). -/
theorem onlyRenderFreesASlot : Obligations.OnlyRenderFreesASlot := by
  unfold Obligations.OnlyRenderFreesASlot
  intro i s t x h _ hvalid hfreed
  obtain ⟨off, hslot⟩ | ⟨hi, -, -⟩ := exec_slot_of_valid h hvalid
  · rw [hslot] at hfreed
    exact absurd hvalid (Bool.eq_false_iff.mp hfreed)
  · exact hi

/-- Settles O47: the slot is the one that ADDNOTE finds (`freeSlot_eq_some`), and it was free (`setSlot_nvalid_of_free`). -/
theorem addnoteTakesTheLeastFreeSlot : Obligations.AddnoteTakesTheLeastFreeSlot := by
  unfold Obligations.AddnoteTakesTheLeastFreeSlot
  intro i x s hi hx hfree hleast
  exact ⟨_, exec_addnote_of_free ((noteRefOk_iff s.cfg i).mpr hi) (freeSlot_eq_some hx hfree hleast), rfl,
    setSlot_nvalid_of_free hx hfree (valid_of_sflags rfl)⟩

/-- Settles O49: one law of ADDNOTE or NOTEOFF for each error; the index of ADDNOTE is tested before the pool. -/
theorem poolErrors : Obligations.PoolErrors := by
  unfold Obligations.PoolErrors
  intro x s
  refine ⟨fun hx hnull => exec_addnote_of_badRef ?_, fun hx hfull => ?_, exec_noteoff_of_beyond, exec_noteoff_of_free⟩
  · rw [← Bool.not_eq_true, noteRefOk_iff]
    exact not_or.mpr ⟨hx.not_gt, hnull⟩
  · exact exec_addnote_of_full ((noteRefOk_iff s.cfg x).mpr hx) (freeSlot_eq_none hfull)

/-- Settles O52: the second mixing pass runs on what the first one ran on, since no slot and no draw was taken, so the block completes
RENDER a second time as it did the first time (`reply_reply`). -/
theorem renderIsIdempotent : Obligations.RenderIsIdempotent := by
  unfold Obligations.RenderIsIdempotent
  intro s t h hslots hnoise
  have ht : s.passed.reply s.mixed.2.dom s.mixed.2.acc 0#32 false = t := next_inj h
  have hmixed : t.mixed = s.mixed := by
    subst ht
    exact mixed_congr rfl rfl rfl rfl hslots (mixed_draws_of_noiseFree hnoise)
  rw [exec_render, State.passed, hmixed]
  subst ht
  exact congrArg Host.Outcome.next (reply_reply s.passed _ _ _ _)

/-- Settles O53: the note is active and does not sound, and RENDER frees no such slot (`exec_slot_of_valid`). -/
theorem nullNotesAreNeverRemoved : Obligations.NullNotesAreNeverRemoved := by
  unfold Obligations.NullNotesAreNeverRemoved
  intro i s t x h _ hflags hnull
  obtain ⟨off, hslot⟩ | ⟨-, -, hinactive | hsound⟩ := exec_slot_of_valid h (valid_of_sflags hflags)
  · rw [hslot]
    exact ⟨hflags, hnull⟩
  · exact absurd (active_of_sflags hflags) (Bool.eq_false_iff.mp hinactive)
  · obtain ⟨-, -, hbound⟩ := sounding_flags hsound
    exact absurd hnull hbound

/-- Settles O48: the state written out in the statement is the one of `exec_noteoff_of_valid`. -/
theorem noteoffMovesTheReleasePoint : Obligations.NoteoffMovesTheReleasePoint := by
  unfold Obligations.NoteoffMovesTheReleasePoint
  intro x s hx hvalid
  exact exec_noteoff_of_valid hx hvalid

/-- Settles O51: no free slot sounds, so the mixing pass adds nothing (`mixPass_of_silent`), and there is nothing to prune. -/
theorem renderOfAnEmptyPoolIsZero : Obligations.RenderOfAnEmptyPoolIsZero := by
  unfold Obligations.RenderOfAnEmptyPoolIsZero
  intro s hfree
  have hmixed : s.mixed = (s.slots, ⟨NumR.lit 0, false, s.draws⟩) :=
    mixPass_of_silent s _ _ fun r hr => by rw [hfree r hr]; rfl
  have hprune : s.slots.map SlotRegs.prune = s.slots :=
    (List.map_congr_left fun r hr => by rw [hfree r hr]; rfl).trans (List.map_id _)
  rw [exec_render, State.passed, hmixed, hprune]
  rfl

end

section
/-! ## Register access and housekeeping (R165 to R168) -/

namespace Sys2Proof.Machine

/-! ### RD (R166) -/

theorem exec_rd_of_mapped {s : State} {a : Nat} {r : RegName} (h : regAt s.cfg a = some r) :
    exec (.rd a) s = .next (s.replyReg (s.read r)) := by
  simp only [exec, execRd, State.readAddr, h, Option.map_some]

/-! ### WR (R167) -/

/-- R167: what WR puts into a register of a type: lane `D0` into a V-typed one, lane `N` into an I-typed one. -/
def RegType.operand (ty : RegType) (n : I32) (d0 : Val) : RegVal :=
  match ty with
  | .v => .v d0
  | .i => .i n

theorem instrWrite_read_same (m : InstrRegs) (i : Nat) (f : InstrField) (n : I32) (d : Val) :
    (m.write f n d).read f = (RegName.instr i f).type.operand n d := by
  cases f <;> rfl

theorem termWrite_read_same (m : TermRegs) (i k : Nat) (f : TermField) (n : I32) (d : Val) :
    (m.write f n d).read f = (RegName.term i k f).type.operand n d := by
  cases f <;> rfl

theorem setInstr_instr_same (s : State) {i : Nat} (m : InstrRegs) (hi : i < s.instrs.length) :
    (s.setInstr i m).instr i = m := by
  rw [State.instr, State.setInstr_instrs, getD_set, if_pos ⟨rfl, hi⟩]

theorem setTerm_term_same (m : InstrRegs) {k : Nat} (u : TermRegs) (hk : k < m.terms.length) :
    InstrRegs.term { m with terms := m.terms.set k u } k = u := by
  rw [InstrRegs.term, getD_set, if_pos ⟨rfl, hk⟩]

/-- R20: under the invariant every instrument of the table has `NTERM` terms. -/
theorem instr_terms_length {s : State} (hs : s.Inv) {i : Nat} (hi : i < s.instrs.length) :
    (s.instr i).terms.length = s.cfg.nterm := by
  obtain ⟨-, -, -, -, hlen, -⟩ := (instrWf_iff s.cfg (s.instr i)).mp (getD_mem hs.instrs hi)
  exact hlen

/-- R25, R167: under the invariant a read-write register that exists reads, once written, as the lane of its type. -/
theorem write_read_same {s : State} (hs : s.Inv) {r : RegName} (he : r.exists s.cfg = true) (hrw : r.access = .rw)
    (n : I32) (d : Val) : (s.write r n d).read r = r.type.operand n d := by
  cases r with
  | basef => rfl
  | instr i f =>
    have hi : i < s.instrs.length := hs.instrsLength ▸ of_decide_eq_true he
    rw [State.write, State.read, setInstr_instr_same s _ hi, instrWrite_read_same]
  | term i k f =>
    simp only [RegName.exists, Bool.and_eq_true, decide_eq_true_eq] at he
    obtain ⟨hic, hkc⟩ := he
    have hi : i < s.instrs.length := hs.instrsLength ▸ hic
    have hk : k < (s.instr i).terms.length := instr_terms_length hs hi ▸ hkc
    rw [State.write, State.read, setInstr_instr_same s _ hi, setTerm_term_same _ _ hk, termWrite_read_same]
  | _ => cases hrw

/-- R167: a write leaves every register but the one it names, NVALID included. -/
theorem write_read_of_ne (s : State) {r q : RegName} (hq : q ≠ r) (n : I32) (d : Val) :
    (s.write r n d).read q = s.read q := by
  by_cases hnvalid : q = .nvalid
  · rw [hnvalid, write_nvalid]
  · exact write_read s r q n d hq hnvalid

/-- R85: a command that completes without DOMAIN leaves every register. -/
theorem done_read_all (s : State) (r : RegName) : s.done.read r = s.read r := by
  cases r <;> rfl

/-- R65: two addresses do not name one register. -/
theorem regAt_injective {c : Cfg} {a b : Nat} {r : RegName} (ha : regAt c a = some r) (hb : regAt c b = some r) :
    a = b :=
  (exists_and_addr_of_regAt ha).2.symm.trans (exists_and_addr_of_regAt hb).2

/-- R167: the frame of WR by address. -/
theorem done_write_readAddr_of_ne {s : State} {a b : Nat} {r : RegName} (hr : regAt s.cfg a = some r) (hb : b ≠ a)
    (n : I32) (d : Val) :
    (s.write r n d).done.readAddr b = s.readAddr b := by
  obtain ⟨-, hcfg, -⟩ := write_ports s r n d
  rw [State.readAddr, State.readAddr, State.done_cfg, hcfg]
  refine Option.map_congr fun q hq => ?_
  have hqr : q ≠ r := fun h => hb (regAt_injective (h ▸ hq) hr)
  rw [done_read_all, write_read_of_ne s hqr]

/-! ### Legal values (R168) -/

theorem legalGate_iff (n : I32) : legalGate n = true ↔ n = 0#32 ∨ n = 1#32 := by
  simp [legalGate]

theorem legalTime_of_real {c : Cfg} (h : c.num = .real) (v : Val) : legalTime c v = true ↔ 0 ≤ v.real := by
  rw [legalTime, ops_real h, numR_le, le_iff, real_zeroVal]

theorem tctlKind_eq_mod (n : I32) : tctlKind n = n.toNat % 8 := by
  rw [tctlKind, BitVec.extractLsb'_toNat, Nat.shiftRight_zero]

/-- R28, R168: bits 31:4 are zero exactly where the word is below 16. -/
theorem extractHigh_eq_zero_iff (n : I32) : n.extractLsb' 4 28 = 0#28 ↔ n.toNat / 16 = 0 := by
  rw [← BitVec.toNat_inj, BitVec.extractLsb'_toNat, Nat.shiftRight_eq_div_pow]
  simp only [BitVec.toNat_ofNat]
  omega

theorem legalTctl_iff (n : I32) : legalTctl n = true ↔ n.toNat / 16 = 0 ∧ n.toNat % 8 ≤ 5 := by
  rw [legalTctl, Bool.and_eq_true, beq_iff_eq, decide_eq_true_eq, extractHigh_eq_zero_iff, tctlKind_eq_mod]

theorem legalSemi_iff (n : I32) : legalSemi n = true ↔ -128 ≤ n.toInt ∧ n.toInt ≤ 127 := by
  rw [legalSemi, Bool.and_eq_true, decide_eq_true_eq, decide_eq_true_eq, sext32]

theorem legalSawp_iff (n : I32) : legalSawp n = true ↔ 0 ≤ n.toInt ∧ n.toInt ≤ 65535 := by
  rw [legalSawp, Bool.and_eq_true, decide_eq_true_eq, decide_eq_true_eq, sext32]

end Sys2Proof.Machine

open Sys2Proof Sys2Proof.Machine

/-- Settles O56: the register reads as the lane of its type (`write_read_same`), and two addresses do not name one register, so every
other one is left (`done_write_readAddr_of_ne`). -/
theorem wrWritesOneRegister : Obligations.WrWritesOneRegister := by
  unfold Obligations.WrWritesOneRegister
  intro a s r hwf hr hkind hlegal
  have hrw : r.access = .rw := by obtain rfl | ⟨i, f, rfl⟩ | ⟨i, k, f, rfl⟩ := hkind <;> rfl
  have hro : r.access ≠ .ro := by rw [hrw]; decide
  obtain ⟨-, hcfg, hinbox, hlanes, hdraws⟩ := write_ports s r s.lanes.n s.lanes.d0
  refine ⟨_, exec_wr_of_legal hr hro hlegal, rfl, ?same, fun b hb => done_write_readAddr_of_ne hr hb _ _, hlanes,
    hinbox, hdraws⟩
  case same =>
    obtain ⟨he, -⟩ := exists_and_addr_of_regAt hr
    rw [State.readAddr, State.done_cfg, hcfg, hr, Option.map_some, done_read_all,
      write_read_same ((wf_iff s).mp hwf) he hrw]
    rfl

/-- Settles O58: one law for each row of R168; the other registers accept every value by the test's own last row. -/
theorem legalValuesAreThoseOfR168 : Obligations.LegalValuesAreThoseOfR168 := by
  unfold Obligations.LegalValuesAreThoseOfR168
  intro i k c n v
  refine ⟨legalGate_iff n, rfl, rfl, rfl, fun h => legalTime_of_real h v, legalTctl_iff n, legalSemi_iff n,
    legalSawp_iff n, fun r _ hr => ?unlisted⟩
  case unlisted =>
    obtain rfl | rfl | rfl | rfl | rfl | rfl | rfl | rfl := hr <;> rfl

/-- Settles O25: the state written out in the statement is `State.done`. -/
theorem nopHasNoEffect : Obligations.NopHasNoEffect := by
  unfold Obligations.NopHasNoEffect
  exact fun s => rfl

/-- Settles O54, by `exec_rd_of_mapped`, for a V-typed value and for an I-typed one. -/
theorem rdReadsOneRegister : Obligations.RdReadsOneRegister := by
  unfold Obligations.RdReadsOneRegister
  intro a s r hr
  rw [exec_rd_of_mapped hr]
  cases s.read r with
  | v x => rfl
  | i n => rfl

end

section
/-! ## The Sequencer (R175 to R180) -/

namespace Sys2Proof.Machine

/-! ### What a Sequencer is asked for, and its step duration (R176, U23) -/

section
variable (w : WaveImpl)

/-- R175, R176, R179: for `NUM_R` the test of a Sequencer, clause by clause. -/
theorem sequencerOk_iff (q : Sequencer) : q.ok (numR w) = true ↔
    0 < q.beats ∧ 0 < q.subBeats ∧ 0 < q.tempo.real ∧ q.currentStep < q.totalSteps ∧
    ∀ c ∈ q.channels, q.totalSteps ≤ c.pattern.length := by
  simp [Sequencer.ok, lt_iff, and_assoc]

/-- R176. -/
theorem real_stepDuration (q : Sequencer) :
    (q.stepDuration (numR w)).real = 60 / q.tempo.real / (q.subBeats : ℝ) := by
  simp [Sequencer.stepDuration]

theorem stepDuration_pos {q : Sequencer} (hok : q.ok (numR w) = true) : 0 < (q.stepDuration (numR w)).real := by
  obtain ⟨-, hsub, htempo, -⟩ := (sequencerOk_iff w q).mp hok
  rw [real_stepDuration]
  positivity

/-- R177: a call that U23 does not refuse is the loop on the clock with the time added. -/
theorem advance_of_ok {q : Sequencer} {deltaTime : Val} (hok : q.ok (numR w) = true) (hd : 0 ≤ deltaTime.real) (n : Nat) :
    q.advance (numR w) n deltaTime = Sequencer.loop (numR w) n (q.tick (numR w) deltaTime) := by
  simp [Sequencer.advance, hok, lt_eq, hd]

theorem advance_of_negative (q : Sequencer) {deltaTime : Val} (hd : deltaTime.real < 0) (n : Nat) :
    q.advance (numR w) n deltaTime = .refused := by
  simp [Sequencer.advance, lt_eq, hd]

theorem advance_of_not_ok {q : Sequencer} (hok : ¬ q.ok (numR w) = true) (deltaTime : Val) (n : Nat) :
    q.advance (numR w) n deltaTime = .refused := by
  simp [Sequencer.advance, hok]

end

/-! ### What `tick` and `cross` change (R177) -/

section
variable (N : NumRec) (q : Sequencer) (deltaTime : Val)

@[simp] theorem tick_clock : (q.tick N deltaTime).clock = N.add q.clock deltaTime := rfl
@[simp] theorem tick_stepDuration : (q.tick N deltaTime).stepDuration N = q.stepDuration N := rfl

@[simp] theorem cross_clock : (q.cross N).clock = N.sub q.clock (q.stepDuration N) := rfl
@[simp] theorem cross_currentStep : (q.cross N).currentStep = (q.currentStep + 1) % q.totalSteps := rfl
@[simp] theorem cross_totalSteps : (q.cross N).totalSteps = q.totalSteps := rfl
@[simp] theorem cross_stepDuration : (q.cross N).stepDuration N = q.stepDuration N := rfl
@[simp] theorem cross_notesAt (k : Nat) : (q.cross N).notesAt k = q.notesAt k := rfl

theorem cross_ok {w : WaveImpl} {q : Sequencer} (hok : q.ok (numR w) = true) : (q.cross (numR w)).ok (numR w) = true := by
  obtain ⟨hbeats, hsub, htempo, hstep, hpat⟩ := (sequencerOk_iff w q).mp hok
  exact (sequencerOk_iff w _).mpr ⟨hbeats, hsub, htempo, Nat.mod_lt _ (by omega), hpat⟩

end

/-- R177: a change of a Sequencer that moves its step index on by one and sets its clock, done `m` times, moves the index on by `m`
with wraparound and sets the clock. -/
theorem iterate_of_moves_one {f : Sequencer → Sequencer}
    (hf : ∀ r, f r = { r with clock := (f r).clock, currentStep := (r.currentStep + 1) % r.totalSteps })
    {q : Sequencer} (hstep : q.currentStep < q.totalSteps) (m : Nat) :
    f^[m] q = { q with clock := (f^[m] q).clock, currentStep := (q.currentStep + m) % q.totalSteps } := by
  induction m with
  | zero => simp [Nat.mod_eq_of_lt hstep]
  | succ m ih =>
    rw [Function.iterate_succ_apply', hf, ih]
    simp [Sequencer.totalSteps, add_assoc]

/-! ### The loop of `advance` (R177) -/

/-- R177: the notes of the next `m` steps, in order, each read at the step's new index. -/
def Sequencer.notesCrossed (q : Sequencer) (m : Nat) : List SeqNote :=
  ((List.range m).map (fun j => q.notesAt ((q.currentStep + 1 + j) % q.totalSteps))).flatten

theorem notesCrossed_one (q : Sequencer) : q.notesCrossed 1 = q.notesAt ((q.currentStep + 1) % q.totalSteps) := by
  simp [Sequencer.notesCrossed]

theorem notesCrossed_succ (N : NumRec) (q : Sequencer) (m : Nat) :
    q.notesCrossed (m + 1) = (q.cross N).notesAt (q.cross N).currentStep ++ (q.cross N).notesCrossed m := by
  simp [Sequencer.notesCrossed, List.range_succ_eq_map, Function.comp_def, add_assoc, add_comm 1]

section
variable {w : WaveImpl} {q : Sequencer}

theorem loop_of_lt (h : q.clock.real < (q.stepDuration (numR w)).real) (n : Nat) :
    Sequencer.loop (numR w) n q = .done q [] := by
  cases n <;> simp [Sequencer.loop, le_eq, h]

theorem loop_zero_of_le (h : (q.stepDuration (numR w)).real ≤ q.clock.real) :
    Sequencer.loop (numR w) 0 q = .unfinished := by
  simp [Sequencer.loop, le_eq, h]

theorem loop_succ_of_le (h : (q.stepDuration (numR w)).real ≤ q.clock.real) (n : Nat) :
    Sequencer.loop (numR w) (n + 1) q = (Sequencer.loop (numR w) n (q.cross (numR w))).after
      ((q.cross (numR w)).notesAt (q.cross (numR w)).currentStep) := by
  simp [Sequencer.loop, le_eq, h]

theorem real_clock_iterate_cross (m : Nat) :
    ((Sequencer.cross (numR w))^[m] q).clock.real = q.clock.real - m * (q.stepDuration (numR w)).real := by
  induction m generalizing q with
  | zero => simp
  | succ m ih =>
    rw [Function.iterate_succ_apply, ih, cross_clock, cross_stepDuration, numR_sub, real_sub]
    push_cast
    ring

/-- R177: the loop goes round once for each step duration that fits in the clock. Allowed fewer rounds, it has not ended. -/
theorem loop_of_rounds (hpos : 0 < (q.stepDuration (numR w)).real) {m : Nat}
    (hle : m * (q.stepDuration (numR w)).real ≤ q.clock.real)
    (hlt : q.clock.real < (m + 1) * (q.stepDuration (numR w)).real) :
    (∀ n ≥ m, Sequencer.loop (numR w) n q = .done ((Sequencer.cross (numR w))^[m] q) (q.notesCrossed m)) ∧
    (∀ n < m, Sequencer.loop (numR w) n q = .unfinished) := by
  induction m generalizing q with
  | zero => exact ⟨fun n _ => loop_of_lt (by simpa using hlt) n, fun n hn => absurd hn n.not_lt_zero⟩
  | succ m ih =>
    push_cast at hle hlt
    have hround : (q.stepDuration (numR w)).real ≤ q.clock.real := by nlinarith [m.cast_nonneg (α := ℝ)]
    obtain ⟨hdone, hmore⟩ := ih (q := q.cross (numR w)) hpos
      (by rw [cross_clock, cross_stepDuration, numR_sub, real_sub]; linarith)
      (by rw [cross_clock, cross_stepDuration, numR_sub, real_sub]; linarith)
    constructor
    · intro n hn
      obtain ⟨k, rfl⟩ : ∃ k, n = k + 1 := ⟨n - 1, by omega⟩
      rw [loop_succ_of_le hround, hdone k (by omega), notesCrossed_succ (numR w)]
      rfl
    · intro n hn
      cases n with
      | zero => exact loop_zero_of_le hround
      | succ k =>
        rw [loop_succ_of_le hround, hmore k (by omega)]
        rfl

end

/-! ### Calls of one step duration each (R180) -/

/-- R177, R180: a Sequencer whose clock is short of a step, called with a time of exactly one step. -/
structure Sequencer.OneStepCall (w : WaveImpl) (deltaTime : Val) (q : Sequencer) : Prop where
  ok : q.ok (numR w) = true
  clock_nonneg : 0 ≤ q.clock.real
  clock_lt : q.clock.real < (q.stepDuration (numR w)).real
  time : deltaTime.real = (q.stepDuration (numR w)).real

/-- R177: what a call that goes round once makes of a Sequencer (`advance_of_oneStepCall`). -/
def Sequencer.oneStep (N : NumRec) (deltaTime : Val) (q : Sequencer) : Sequencer := (q.tick N deltaTime).cross N

section
variable {w : WaveImpl} {deltaTime : Val} {q : Sequencer}

theorem Sequencer.OneStepCall.real_clock_oneStep (h : q.OneStepCall w deltaTime) :
    (q.oneStep (numR w) deltaTime).clock.real = q.clock.real := by
  simp [Sequencer.oneStep, h.time]

theorem Sequencer.OneStepCall.oneStep (h : q.OneStepCall w deltaTime) :
    (q.oneStep (numR w) deltaTime).OneStepCall w deltaTime where
  ok := cross_ok (q := q.tick (numR w) deltaTime) h.ok
  clock_nonneg := h.real_clock_oneStep.symm ▸ h.clock_nonneg
  clock_lt := h.real_clock_oneStep.symm ▸ h.clock_lt
  time := h.time

theorem advance_of_oneStepCall (h : q.OneStepCall w deltaTime) {n : Nat} (hn : 1 ≤ n) :
    q.advance (numR w) n deltaTime =
      .done (q.oneStep (numR w) deltaTime) (q.notesAt ((q.currentStep + 1) % q.totalSteps)) := by
  have hpos := stepDuration_pos w h.ok
  have hclock : (q.tick (numR w) deltaTime).clock.real = q.clock.real + (q.stepDuration (numR w)).real := by
    rw [tick_clock, numR_add, real_add, h.time]
  obtain ⟨hdone, -⟩ := loop_of_rounds (q := q.tick (numR w) deltaTime) (m := 1) hpos
    (by rw [hclock, tick_stepDuration, Nat.cast_one]; linarith [h.clock_nonneg])
    (by rw [hclock, tick_stepDuration, Nat.cast_one]; linarith [h.clock_lt])
  rw [advance_of_ok w h.ok (h.time ▸ hpos.le), hdone n hn, notesCrossed_one]
  rfl

/-- R180: each call of a run is again a call of one step, and none moves the clock. -/
theorem oneStepCall_iterate (h : q.OneStepCall w deltaTime) (k : Nat) :
    ((Sequencer.oneStep (numR w) deltaTime)^[k] q).OneStepCall w deltaTime ∧
    ((Sequencer.oneStep (numR w) deltaTime)^[k] q).clock.real = q.clock.real := by
  induction k with
  | zero => exact ⟨h, rfl⟩
  | succ k ih =>
    obtain ⟨hcall, hclock⟩ := ih
    rw [Function.iterate_succ_apply']
    exact ⟨hcall.oneStep, hcall.real_clock_oneStep.trans hclock⟩

theorem iterate_oneStep_eq (hstep : q.currentStep < q.totalSteps) (k : Nat) :
    (Sequencer.oneStep (numR w) deltaTime)^[k] q =
      { q with clock := ((Sequencer.oneStep (numR w) deltaTime)^[k] q).clock
               currentStep := (q.currentStep + k) % q.totalSteps } :=
  iterate_of_moves_one (fun _ => rfl) hstep k

/-- R177, R180: call `k` of a run triggers the notes of step `k + 1` after the first. -/
theorem advance_iterate_oneStep (h : q.OneStepCall w deltaTime) (k : Nat) {n : Nat} (hn : 1 ≤ n) :
    ((Sequencer.oneStep (numR w) deltaTime)^[k] q).advance (numR w) n deltaTime =
      .done ((Sequencer.oneStep (numR w) deltaTime)^[k + 1] q)
        (q.notesAt ((q.currentStep + k + 1) % q.totalSteps)) := by
  obtain ⟨-, -, -, hstep, -⟩ := (sequencerOk_iff w q).mp h.ok
  obtain ⟨hcall, -⟩ := oneStepCall_iterate h k
  have hnotes : ∀ r : Sequencer, r = { q with clock := r.clock, currentStep := (q.currentStep + k) % q.totalSteps } →
      r.notesAt ((r.currentStep + 1) % r.totalSteps) = q.notesAt ((q.currentStep + k + 1) % q.totalSteps) := by
    intro r hr
    rw [hr]
    exact congrArg q.notesAt (Nat.mod_add_mod _ _ _)
  rw [advance_of_oneStepCall hcall hn, hnotes _ (iterate_oneStep_eq hstep k), Function.iterate_succ_apply']

/-- R177: a Sequencer of one channel triggers once at a step that has the marker, and otherwise not. -/
theorem notesAt_length_of_one_channel {c : SeqChannel} (hc : q.channels = [c]) (k : Nat) :
    (q.notesAt k).length = if c.pattern[k]? = some q.trig then 1 else 0 := by
  simp only [Sequencer.notesAt, hc, List.length_map]
  split_ifs with h <;> simp [h]

end

end Sys2Proof.Machine

open Sys2Proof Sys2Proof.Machine

/-- Settles O59: `m` is the whole part of the time on the clock in step durations (`loop_of_rounds`). -/
theorem advanceCrossesEachStepOnce : Obligations.AdvanceCrossesEachStepOnce := by
  unfold Obligations.AdvanceCrossesEachStepOnce
  intro w q deltaTime
  constructor
  · intro hok hclock hd
    obtain ⟨-, -, -, hstep, -⟩ := (sequencerOk_iff w q).mp hok
    have hpos := stepDuration_pos w hok
    have hticked : (q.tick (numR w) deltaTime).clock.real = q.clock.real + deltaTime.real := real_add _ _
    obtain ⟨m, hm⟩ : ∃ m, ⌊(q.clock.real + deltaTime.real) / (q.stepDuration (numR w)).real⌋₊ = m := ⟨_, rfl⟩
    rw [Nat.floor_eq_iff (by positivity), le_div_iff₀ hpos, div_lt_iff₀ hpos] at hm
    obtain ⟨hle, hlt⟩ := hm
    obtain ⟨hdone, hmore⟩ := loop_of_rounds (q := q.tick (numR w) deltaTime) hpos (hticked ▸ hle) (hticked ▸ hlt)
    refine ⟨m, (Sequencer.cross (numR w))^[m] (q.tick (numR w) deltaTime), ?_⟩
    simp only [← real_stepDuration w]
    refine ⟨hle, hlt, fun n hn => ?done, fun n hn => ?more, ?clock, ?frame⟩
    case done => exact (advance_of_ok w hok hd n).trans (hdone n hn)
    case more => exact (advance_of_ok w hok hd n).trans (hmore n hn)
    case clock => rw [real_clock_iterate_cross, hticked, tick_stepDuration]
    case frame => exact iterate_of_moves_one (q := q.tick (numR w) deltaTime) (fun _ => rfl) hstep m
  · rintro n (hd | hbad)
    · exact advance_of_negative w q hd n
    · refine advance_of_not_ok w (fun hok => ?_) deltaTime n
      obtain ⟨hbeats, hsub, htempo, -, hpat⟩ := (sequencerOk_iff w q).mp hok
      obtain h | h | h | ⟨c, hc, hshort⟩ := hbad
      · exact absurd htempo h.not_gt
      · omega
      · omega
      · exact absurd (hpat c hc) hshort.not_ge

/-- Settles O60: the run is `oneStep` iterated (`advance_iterate_oneStep`). After `totalSteps` calls the index is back, and of the
steps 1 to 16 the marked ones are those that 4 divides. -/
theorem theSequencerCycleCloses : Obligations.TheSequencerCycleCloses := by
  unfold Obligations.TheSequencerCycleCloses
  constructor
  · intro w q hok hclock hlt
    obtain ⟨-, -, -, hstep, -⟩ := (sequencerOk_iff w q).mp hok
    have hcall : q.OneStepCall w (q.stepDuration (numR w)) := ⟨hok, hclock, real_stepDuration w q ▸ hlt, rfl⟩
    refine ⟨fun k => (Sequencer.oneStep (numR w) (q.stepDuration (numR w)))^[k] q, rfl,
      fun k => ⟨1, _, fun n hn => advance_iterate_oneStep hcall k hn⟩, (oneStepCall_iterate hcall _).2, ?_⟩
    have hrun := iterate_oneStep_eq (w := w) (deltaTime := q.stepDuration (numR w)) hstep q.totalSteps
    rwa [Nat.add_mod_right, Nat.mod_eq_of_lt hstep] at hrun
  · intro w q c hok hbeats hsub htempo hclock hzero hc hpat deltaTime hd
    have hdur : (q.stepDuration (numR w)).real = 1 / 8 := by
      rw [real_stepDuration, htempo, hsub]
      norm_num
    have htotal : q.totalSteps = 16 := by rw [Sequencer.totalSteps, hbeats, hsub]
    have hcall : q.OneStepCall w deltaTime := ⟨hok, hclock.ge, by rw [hclock, hdur]; norm_num, hd.trans hdur.symm⟩
    refine ⟨fun k => (Sequencer.oneStep (numR w) deltaTime)^[k] q, rfl,
      fun k => ⟨1, _, fun n hn => advance_iterate_oneStep hcall k hn, ?_⟩⟩
    have hmark : (k + 1) % 16 ∈ [0, 4, 8, 12] ↔ (k + 1) % 4 = 0 := by
      simp only [List.mem_cons, List.not_mem_nil, or_false]
      omega
    rw [notesAt_length_of_one_channel hc, hzero, htotal, zero_add]
    simp only [hpat _ (Nat.mod_lt _ (by norm_num)), hmark]

end

section
/-! ## Exceptions (R190 to R194, R200) -/

namespace Sys2Proof.Machine

variable {s t : State} {r : Response}

/-! ### An error that ends a command (R194) -/

/-- R194: a command that answers with an ending code has gone the error path: one that goes through answers OK or DOMAIN. -/
theorem exec_eq_raise_of_ends {i : Instr} (h : exec i s = .next t) (hr : t.rsp = some r) (hends : r.err.ends = true) :
    t = s.raise r.err := by
  obtain ⟨e, -, rfl⟩ | ⟨u, dom, q, n, fin, rfl, -⟩ := exec_shape i s t h
  · obtain rfl := Option.some.inj hr
    rfl
  · obtain rfl := Option.some.inj hr
    cases dom <;> cases hends

/-- R86, R194: the same for a step that takes a command, whether its word decodes or not. -/
theorem step_eq_raise_of_ends {c : Command} {rest : List HostInput} (hin : s.inbox = .command c :: rest)
    (h : step s = .next t) (hr : t.rsp = some r) (hends : r.err.ends = true) : t = (s.accept c rest).raise r.err := by
  match hd : decode c.word with
  | .ok i => exact exec_eq_raise_of_ends ((step_of_decode_ok hin hd).symm.trans h) hr hends
  | .illegal why =>
    obtain rfl := next_inj (h.symm.trans (step_of_decode_illegal hin hd))
    obtain rfl := Option.some.inj hr
    rfl

/-! ### The codes of the two ways a command ends (R192); every row of the table has OK first -/

theorem raise_err_mem {e : Err} {es : List Err} (hr : (s.raise e).rsp = some r) (he : e ∈ es) : r.err ∈ .ok :: es := by
  obtain rfl := Option.some.inj hr
  exact List.mem_cons_of_mem _ he

theorem reply_err_mem {dom : Bool} {q : Val} {n : I32} {fin : Bool} {es : List Err}
    (hr : (s.reply dom q n fin).rsp = some r) (hdom : dom = true → .domain ∈ es) : r.err ∈ .ok :: es := by
  obtain rfl := Option.some.inj hr
  cases dom with
  | false => exact List.mem_cons_self
  | true => exact List.mem_cons_of_mem _ (hdom rfl)

/-- A command that meets no singular point answers OK. -/
theorem reply_false_err_mem {q : Val} {n : I32} {fin : Bool} (es : List Err) (hr : (s.reply false q n fin).rsp = some r) :
    r.err ∈ .ok :: es :=
  reply_err_mem hr (nomatch ·)

theorem replyReg_err_mem (v : RegVal) (es : List Err) (hr : (s.replyReg v).rsp = some r) : r.err ∈ .ok :: es := by
  cases v <;> exact reply_false_err_mem es hr

/-! ### The operand errors of ENV, VOICE and FLT.* (R192, R193) -/

theorem exec_env_of_beyond {x : Nat} (hx : s.cfg.ninstr ≤ x) : exec (.env x) s = .next (s.raise .badArg) :=
  congrArg Host.Outcome.next (if_neg hx.not_gt)

theorem exec_voice_of_beyond {x : Nat} (hx : s.cfg.ninstr ≤ x) : exec (.voice x) s = .next (s.raise .badArg) :=
  congrArg Host.Outcome.next (if_neg hx.not_gt)

theorem exec_fltInit_of_beyond {f : Nat} (hf : s.cfg.nfilt ≤ f) : exec (.fltInit f) s = .next (s.raise .badArg) :=
  congrArg Host.Outcome.next (if_pos hf)

theorem exec_fltSetf_of_beyond {f : Nat} (hf : s.cfg.nfilt ≤ f) : exec (.fltSetf f) s = .next (s.raise .badArg) :=
  congrArg Host.Outcome.next (if_pos hf)

theorem exec_fltLp_of_beyond {f : Nat} (hf : s.cfg.nfilt ≤ f) : exec (.fltLp f) s = .next (s.raise .badArg) :=
  congrArg Host.Outcome.next (if_pos hf)

theorem exec_fltHp_of_beyond {f : Nat} (hf : s.cfg.nfilt ≤ f) : exec (.fltHp f) s = .next (s.raise .badArg) :=
  congrArg Host.Outcome.next (if_pos hf)

/-- R130: FLT.INIT with a rate `<= 0`. -/
theorem exec_fltInit_of_rate {f : Nat} (hf : f < s.cfg.nfilt) (hrate : s.cfg.ops.le s.lanes.d1 zeroVal = true) :
    exec (.fltInit f) s = .next (s.raise .badArg) :=
  congrArg Host.Outcome.next ((if_neg hf.not_ge).trans (if_pos hrate))

/-- R131: FLT.SETF of a unit that was never initialised. -/
theorem exec_fltSetf_of_fresh {f : Nat} (hf : f < s.cfg.nfilt) (hfresh : s.cfg.ops.eq (s.filt f).srate zeroVal = true) :
    exec (.fltSetf f) s = .next (s.raise .badRef) :=
  congrArg Host.Outcome.next ((if_neg hf.not_ge).trans (if_pos hfresh))

end Sys2Proof.Machine

open Sys2Proof Sys2Proof.Machine

/-- Settles O16: the state written out in the statement is the error path from the accepted command. -/
theorem anEndingErrorChangesOnlyItsFlag : Obligations.AnEndingErrorChangesOnlyItsFlag := by
  unfold Obligations.AnEndingErrorChangesOnlyItsFlag
  intro s t c rest r hin h hr hends
  exact step_eq_raise_of_ends hin h hr hends

/-- Settles O18, command by command along the branches of its meaning: each raises a code of its row or goes through, and only
OSC.SAWD, VOICE and RENDER can meet a singular point. -/
theorem eachCommandHasItsErrorCodes : Obligations.EachCommandHasItsErrorCodes := by
  unfold Obligations.EachCommandHasItsErrorCodes
  intro i s t r h hr
  cases i with
  | nop | oscSin | oscTri | oscSqr | oscSawa | oscNoise | scale =>
    obtain rfl := next_inj h
    exact reply_false_err_mem _ hr
  | oscSawd | render =>
    obtain rfl := next_inj h
    exact reply_err_mem hr fun _ => by decide
  | env =>
    obtain rfl := next_inj h
    split at hr
    · exact reply_false_err_mem _ hr
    · exact raise_err_mem hr (by decide)
  | voice =>
    obtain rfl := next_inj h
    split at hr
    · exact reply_err_mem hr fun _ => by decide
    · exact raise_err_mem hr (by decide)
  | fltLp | fltHp =>
    obtain rfl := next_inj h
    split at hr
    · exact raise_err_mem hr (by decide)
    · exact reply_false_err_mem _ hr
  | fltInit | fltSetf =>
    obtain rfl := next_inj h
    split at hr
    · exact raise_err_mem hr (by decide)
    split at hr
    · exact raise_err_mem hr (by decide)
    · exact reply_false_err_mem _ hr
  | addnote =>
    obtain rfl := next_inj h
    split at hr
    · split at hr
      · exact raise_err_mem hr (by decide)
      · exact reply_false_err_mem _ hr
    · exact raise_err_mem hr (by decide)
  | noteoff =>
    obtain rfl := next_inj h
    split at hr
    · exact raise_err_mem hr (by decide)
    split at hr
    · exact reply_false_err_mem _ hr
    · exact raise_err_mem hr (by decide)
  | rd =>
    obtain rfl := next_inj h
    split at hr
    · exact raise_err_mem hr (by decide)
    · exact replyReg_err_mem _ _ hr
  | wr =>
    obtain rfl | ⟨q, -, -, rfl⟩ := exec_wr_cases h
    · exact raise_err_mem hr (by decide)
    · exact reply_false_err_mem _ hr

/-- Settles O10: the state written out in the statement is `State.idle`. -/
theorem idleBlockStaysAsItIs : Obligations.IdleBlockStaysAsItIs := by
  unfold Obligations.IdleBlockStaysAsItIs
  exact fun s hin => step_of_nil hin

/-- Settles O44, error by error. -/
theorem unitOperandErrors : Obligations.UnitOperandErrors := by
  unfold Obligations.UnitOperandErrors
  intro x s
  exact ⟨fun hx => ⟨exec_env_of_beyond hx, exec_voice_of_beyond hx⟩,
    fun hx => ⟨exec_fltInit_of_beyond hx, exec_fltSetf_of_beyond hx, exec_fltLp_of_beyond hx, exec_fltHp_of_beyond hx⟩,
    exec_fltInit_of_rate, exec_fltSetf_of_fresh⟩

end
